-- ==== Sys2Proof/Word.lean ====
section
/-! DEFINITION. The word types of the machine.

A register value, an address and a CSR value stand in 64 bits at either MXLEN (00_scope.md R2); with MXLEN=32 only the low
32 bits count, and the operations of `Sys2Proof/Machine/Operands.lean` cut a value to them (log 2). -/

namespace Sys2Proof

/-- A value of up to 64 bits: a general register, the pc, a CSR, an address. -/
abbrev Word := BitVec 64

/-- One byte of memory. -/
abbrev Byte := BitVec 8

/-- An instruction word (30_encoding.md R80: every instruction in scope has 32 bits). -/
abbrev InstrWord := BitVec 32

/-- A register operand: the 5-bit index of `rd`, `rs1`, `rs2` (30_encoding.md R84). -/
abbrev RegIdx := BitVec 5

/-- A CSR number, 12 bits, never extended (30_encoding.md R84). -/
abbrev CsrNum := BitVec 12

end Sys2Proof
end

