-- ==== Sys2Proof/Config.lean ====
section
/-! DEFINITION. What an implementation fixes (the parameters of 00_scope.md section 5) and the free values.

The parameters are plain data: one `Config` stands in the state, no step writes it, and a statement about every state is
thereby about every implementation (log 1). The free values are constants without a body (log 12, 13). -/

namespace Sys2Proof

/-- `MXLEN`, with its two values (00_scope.md R2). XLEN equals it in every mode (92_eei_decisions.md D4). -/
inductive Mxlen where
  | x32
  | x64
  deriving DecidableEq, Repr

/-- The value of a field that holds an XLEN: SXL, UXL and VSXL equal MXL in every implementation (92_eei_decisions.md D4). That
MXL is 1 for 32 bits and 2 for 64 is the family's. PRESUMED (log 16). -/
def xlField : Mxlen → BitVec 2
  | .x32 => 1#2
  | .x64 => 2#2

/-- The three privilege levels: `u` is 0, `s` is 1 (HS or VS), `m` is 3 (10_state.md R10). -/
inductive Priv where
  | u
  | s
  | m
  deriving DecidableEq, Repr

/-- `misaligned_policy` (20_memory.md R65). -/
inductive MisalignedPolicy where
  | trap
  | split
  deriving DecidableEq, Repr

/-- `GVA_RULE`: which reading of the GVA sentence is followed (60_exceptions.md R162; 92_eei_decisions.md D14). -/
inductive GvaRule where
  | guestVa
  | literal
  deriving DecidableEq, Repr

/-- `TVM_EXCEPTION`: what an access blocked by TVM raises (92_eei_decisions.md D23). -/
inductive TvmException where
  | illegalInstruction
  | virtualInstruction
  deriving DecidableEq, Repr

/-- `MIDELEG_BIT12_NO_GEI`: what `mideleg` bit 12 is when GEILEN = 0 (10_state.md R27; 92_eei_decisions.md D24). -/
inductive Bit12NoGei where
  | zero
  | one
  | writable
  deriving DecidableEq, Repr

/-- `mtinst_value`: the set that a trap draws `mtinst` from (60_exceptions.md R166; 92_eei_decisions.md D16).
`zeroUnlessImplicit` is R166's default: zero, but some nonzero value for a guest-page fault of an implicit VS-stage access
whose `mtval2` is nonzero. `anyLegal` is D16's set for a proof that must hold on real hardware: every legal value (every
nonzero legal value in the implicit case). -/
inductive MtinstPolicy where
  | zeroUnlessImplicit
  | anyLegal
  deriving DecidableEq, Repr

/-- A part of the physical address map (`PhysMem`, 20_memory.md R67): the addresses from `base` on, `size` of them, what
physical protection lets be done there, and whether an access has side effects (20_memory.md R66). -/
structure PhysRegion where
  base   : Nat
  size   : Nat
  r      : Bool
  w      : Bool
  x      : Bool
  device : Bool
  deriving DecidableEq, Repr

/-- A WARL legal set, as the inclusive ranges of its nonzero elements; 0 is always legal (92_eei_decisions.md D27). -/
abbrev LegalRanges := List (Nat × Nat)

/-- The parameters of 00_scope.md section 5. -/
structure Config where
  /-- `MXLEN` (R2). -/
  mxlen             : Mxlen
  /-- `GEILEN` (R3). -/
  geilen            : Nat
  /-- `VARIABLE_LENGTH` (R41, R80, R165). -/
  variableLength    : Bool
  /-- `misaligned_policy` (R65, R74). -/
  misaligned        : MisalignedPolicy
  /-- `GVA_RULE` (R162). -/
  gvaRule           : GvaRule
  /-- `TVM_EXCEPTION` (R115, R126). -/
  tvmException      : TvmException
  /-- `MRET_MPP_AFTER` (R120). -/
  mretMppAfter      : Priv
  /-- `MRET_MPV_AFTER` (R120). -/
  mretMpvAfter      : Bool
  /-- `MIDELEG_BIT12_NO_GEI` (R27). -/
  midelegBit12NoGei : Bit12NoGei
  /-- `mtval2_legal` (R35). -/
  mtval2Legal       : LegalRanges
  /-- `mtinst_legal` (R37). -/
  mtinstLegal       : LegalRanges
  /-- `mtinst_value` (R166). -/
  mtinstPolicy      : MtinstPolicy
  /-- The exceptions that go to HS-mode when raised below M-mode: `trap_target`'s data (R160, R176; log 11). -/
  medeleg           : List Nat
  /-- The exceptions of `medeleg` that go on to VS-mode when raised with V=1 (R160, R176; log 11). -/
  hedeleg           : List Nat
  /-- CSR numbers that the larger machine implements outside this spec (R87(a), R100; log 21). -/
  otherCsrs         : List CsrNum
  /-- The address map of `PhysMem` (R67). -/
  phys              : List PhysRegion
  /-- `RESET_PC` (R44). -/
  resetPc           : Word
  deriving DecidableEq, Repr

/-- The configuration of `State.reset`: the defaults of 95_test_vectors.md and of 00_scope.md section 5 where those give one,
and otherwise the values that log 1, 4, 5, 11 and 21 name. DESIGN CHOICE (unsafe). -/
def Config.atReset : Config where
  mxlen             := .x64
  geilen            := 1
  variableLength    := true
  misaligned        := .split
  gvaRule           := .guestVa
  tvmException      := .illegalInstruction
  mretMppAfter      := .u
  mretMpvAfter      := false
  midelegBit12NoGei := .zero
  mtval2Legal       := [(0, 0x1FFFFFFFFFFFFFF)]
  mtinstLegal       := [(0, 0xFFFFFFFFFFFFFFFF)]
  mtinstPolicy      := .zeroUnlessImplicit
  medeleg           := []
  hedeleg           := []
  otherCsrs         := []
  phys              := [{ base := 0, size := 0x10000000000000000, r := true, w := true, x := true, device := false }]
  resetPc           := 0x80000000

/-- The registers and fields whose illegal writes are resolved by the implementation (00_scope.md R5). -/
inductive WarlReg where
  | mtval2
  | mtinst
  | mpp
  deriving DecidableEq, Repr

/-- FREE VALUE: `warl_resolve(csr, old, written)` (00_scope.md R5; U15). What a write of an illegal value leaves; the
operation that uses it keeps only a legal answer (log 13). -/
opaque Config.warlResolve : WarlReg → Word → Word → Word

/-- FREE VALUE: `mtval2_reports_gpa(trap)`, the draw of 60_exceptions.md R163 (U1): true for `gpa`, false for `zero`. -/
opaque Config.mtval2ReportsGpa : Nat → Bool

/-- FREE VALUE: the draw of 60_exceptions.md R166 (U5) that `mtinst` receives, before the legal set is applied. -/
opaque Config.mtinstDraw : Nat → Word

/-- FREE VALUE: whether an illegal- or virtual-instruction trap writes the instruction bits to `mtval`, or 0
(60_exceptions.md R169; 30_encoding.md R87). -/
opaque Config.mtvalHoldsInstr : Nat → Bool

/-- FREE VALUE: the order in which the bytes of a split access are performed (20_memory.md R65: "in an unspecified order"). -/
opaque Config.splitOrder : Nat → Nat

/-- FREE VALUE: whether a WFI under TW=1 passes its bounded time and raises (60_exceptions.md R180; U17). -/
opaque Config.wfiTimesOut : Nat → Bool

end Sys2Proof
end

