-- ==== Sys2Proof/Syntax.lean ====
section
/-! DEFINITION. The instructions: one constructor per row of spec/opcode_table.json (30_encoding.md R85). -/

namespace Sys2Proof

/-- The 22 instructions. Operands are the fields of 30_encoding.md R84, in the order of the assembler syntax (R88). -/
inductive Instr where
  /-- CSRRW rd, csr, rs1 (R101). -/
  | csrrw  (rd : RegIdx) (csr : CsrNum) (rs1 : RegIdx)
  /-- CSRRS rd, csr, rs1 (R102). -/
  | csrrs  (rd : RegIdx) (csr : CsrNum) (rs1 : RegIdx)
  /-- CSRRC rd, csr, rs1 (R103). -/
  | csrrc  (rd : RegIdx) (csr : CsrNum) (rs1 : RegIdx)
  /-- CSRRWI rd, csr, uimm (R104). -/
  | csrrwi (rd : RegIdx) (csr : CsrNum) (uimm : BitVec 5)
  /-- CSRRSI rd, csr, uimm (R105). -/
  | csrrsi (rd : RegIdx) (csr : CsrNum) (uimm : BitVec 5)
  /-- CSRRCI rd, csr, uimm (R106). -/
  | csrrci (rd : RegIdx) (csr : CsrNum) (uimm : BitVec 5)
  /-- MRET (R120). -/
  | mret
  /-- HFENCE.VVMA rs1, rs2 (R125). -/
  | hfenceVvma (rs1 rs2 : RegIdx)
  /-- HFENCE.GVMA rs1, rs2 (R126). -/
  | hfenceGvma (rs1 rs2 : RegIdx)
  /-- HLV.B rd, (rs1) (R136). -/
  | hlvB   (rd rs1 : RegIdx)
  /-- HLV.BU rd, (rs1) (R137). -/
  | hlvBu  (rd rs1 : RegIdx)
  /-- HLV.H rd, (rs1) (R138). -/
  | hlvH   (rd rs1 : RegIdx)
  /-- HLV.HU rd, (rs1) (R139). -/
  | hlvHu  (rd rs1 : RegIdx)
  /-- HLVX.HU rd, (rs1) (R140). -/
  | hlvxHu (rd rs1 : RegIdx)
  /-- HLV.W rd, (rs1) (R141). -/
  | hlvW   (rd rs1 : RegIdx)
  /-- HLVX.WU rd, (rs1) (R142). -/
  | hlvxWu (rd rs1 : RegIdx)
  /-- HLV.WU rd, (rs1), MXLEN=64 only (R143). -/
  | hlvWu  (rd rs1 : RegIdx)
  /-- HLV.D rd, (rs1), MXLEN=64 only (R144). -/
  | hlvD   (rd rs1 : RegIdx)
  /-- HSV.B rs2, (rs1) (R145). -/
  | hsvB   (rs2 rs1 : RegIdx)
  /-- HSV.H rs2, (rs1) (R146). -/
  | hsvH   (rs2 rs1 : RegIdx)
  /-- HSV.W rs2, (rs1) (R147). -/
  | hsvW   (rs2 rs1 : RegIdx)
  /-- HSV.D rs2, (rs1), MXLEN=64 only (R148). -/
  | hsvD   (rs2 rs1 : RegIdx)
  deriving DecidableEq, Repr

end Sys2Proof
end

