-- ==== Sys2Proof/WellFormed.lean ====
section
/-! DEFINITION. Which instructions exist at which MXLEN. The operand bounds are in the types of the fields; the one
condition the table puts on a row beside its bits is "MXLEN=64 only". -/

namespace Sys2Proof

/-- HLV.WU, HLV.D and HSV.D are reserved when MXLEN=32; every other instruction exists at both widths
(30_encoding.md R87(b), 43_hlv_hsv.md R143, R144, R148). -/
def Instr.wellFormed (m : Mxlen) : Instr → Bool
  | .hlvWu _ _ | .hlvD _ _ | .hsvD _ _ => m == .x64
  | .csrrw _ _ _ | .csrrs _ _ _ | .csrrc _ _ _ | .csrrwi _ _ _ | .csrrsi _ _ _ | .csrrci _ _ _
  | .mret | .hfenceVvma _ _ | .hfenceGvma _ _
  | .hlvB _ _ | .hlvBu _ _ | .hlvH _ _ | .hlvHu _ _ | .hlvxHu _ _ | .hlvW _ _ | .hlvxWu _ _
  | .hsvB _ _ | .hsvH _ _ | .hsvW _ _ => true

end Sys2Proof
end

