-- ==== Sys2Proof/Decode.lean ====
section
/-! DEFINITION. The decoder and the encoder, from the formats of 30_encoding.md (R80 to R87).

A word is an instruction of the table, a RESERVED word (R87: the machine raises IllegalInstruction), or OUTSIDE this spec
(another instruction of the larger architecture: 00_scope.md section 4.3). Decoding does not depend on MXLEN; that HLV.WU,
HLV.D and HSV.D are reserved when MXLEN=32 is `Instr.wellFormed`. -/

namespace Sys2Proof

/-- What the decoder makes of a word. -/
inductive Decoded where
  /-- One of the 22 instructions. -/
  | instr (i : Instr)
  /-- A reserved word of 30_encoding.md R87. -/
  | reserved
  /-- Not an encoding of this spec. -/
  | outside
  deriving DecidableEq, Repr

/-- Major opcode SYSTEM (R81). -/
def opSystem : BitVec 7 := 0b1110011#7

/-! The fields of a word (R81, R82). -/

def fOpcode (w : InstrWord) : BitVec 7 := w.extractLsb' 0 7
def fRd     (w : InstrWord) : RegIdx   := w.extractLsb' 7 5
def fFunct3 (w : InstrWord) : BitVec 3 := w.extractLsb' 12 3
def fRs1    (w : InstrWord) : RegIdx   := w.extractLsb' 15 5
def fRs2    (w : InstrWord) : RegIdx   := w.extractLsb' 20 5
def fFunct7 (w : InstrWord) : BitVec 7 := w.extractLsb' 25 7
def fCsr    (w : InstrWord) : CsrNum   := w.extractLsb' 20 12

/-- The words with `funct3` = 000: HFENCE.VVMA, HFENCE.GVMA and MRET, and the reserved words next to them (R87(c), (d)). -/
def decodePriv (w : InstrWord) : Decoded :=
  if fFunct7 w = 0b0010001#7 then
    if fRd w = 0#5 then .instr (.hfenceVvma (fRs1 w) (fRs2 w)) else .reserved
  else if fFunct7 w = 0b0110001#7 then
    if fRd w = 0#5 then .instr (.hfenceGvma (fRs1 w) (fRs2 w)) else .reserved
  else if fFunct7 w = 0b0011000#7 ∧ fRs2 w = 0b00010#5 then
    if fRs1 w = 0#5 ∧ fRd w = 0#5 then .instr .mret else .reserved
  else .outside

/-- A load of `funct3` = 100: `rs2` selects the variant (R82, R85). -/
def decodeHypLoad (w : InstrWord) : Decoded :=
  let rd := fRd w
  let rs1 := fRs1 w
  if fFunct7 w = 0b0110000#7 then
    if fRs2 w = 0b00000#5 then .instr (.hlvB rd rs1)
    else if fRs2 w = 0b00001#5 then .instr (.hlvBu rd rs1)
    else .reserved
  else if fFunct7 w = 0b0110010#7 then
    if fRs2 w = 0b00000#5 then .instr (.hlvH rd rs1)
    else if fRs2 w = 0b00001#5 then .instr (.hlvHu rd rs1)
    else if fRs2 w = 0b00011#5 then .instr (.hlvxHu rd rs1)
    else .reserved
  else if fFunct7 w = 0b0110100#7 then
    if fRs2 w = 0b00000#5 then .instr (.hlvW rd rs1)
    else if fRs2 w = 0b00001#5 then .instr (.hlvWu rd rs1)
    else if fRs2 w = 0b00011#5 then .instr (.hlvxWu rd rs1)
    else .reserved
  else if fFunct7 w = 0b0110110#7 then
    if fRs2 w = 0b00000#5 then .instr (.hlvD rd rs1) else .reserved
  else .reserved

/-- The words with `funct3` = 100: the stores have `rd` = 00000, and every word not listed is reserved (R82, R85, R87(b)). -/
def decodeHyp (w : InstrWord) : Decoded :=
  let rs1 := fRs1 w
  let rs2 := fRs2 w
  if fFunct7 w = 0b0110001#7 then
    if fRd w = 0#5 then .instr (.hsvB rs2 rs1) else .reserved
  else if fFunct7 w = 0b0110011#7 then
    if fRd w = 0#5 then .instr (.hsvH rs2 rs1) else .reserved
  else if fFunct7 w = 0b0110101#7 then
    if fRd w = 0#5 then .instr (.hsvW rs2 rs1) else .reserved
  else if fFunct7 w = 0b0110111#7 then
    if fRd w = 0#5 then .instr (.hsvD rs2 rs1) else .reserved
  else decodeHypLoad w

/-- The decoder (R81 to R85, R87). Every word of `funct3` 001, 010, 011, 101, 110, 111 is a CSR instruction, whatever CSR
number it names. -/
def decode (w : InstrWord) : Decoded :=
  if fOpcode w = opSystem then
    if fFunct3 w = 0b000#3 then decodePriv w
    else if fFunct3 w = 0b001#3 then .instr (.csrrw (fRd w) (fCsr w) (fRs1 w))
    else if fFunct3 w = 0b010#3 then .instr (.csrrs (fRd w) (fCsr w) (fRs1 w))
    else if fFunct3 w = 0b011#3 then .instr (.csrrc (fRd w) (fCsr w) (fRs1 w))
    else if fFunct3 w = 0b100#3 then decodeHyp w
    else if fFunct3 w = 0b101#3 then .instr (.csrrwi (fRd w) (fCsr w) (fRs1 w))
    else if fFunct3 w = 0b110#3 then .instr (.csrrsi (fRd w) (fCsr w) (fRs1 w))
    else .instr (.csrrci (fRd w) (fCsr w) (fRs1 w))
  else .outside

/-- The word stored as four bytes, the first at the lowest address (R80: little-endian). -/
def wordOfBytes (b0 b1 b2 b3 : Byte) : InstrWord := b3 ++ b2 ++ b1 ++ b0

/-- The decoder on a run of bytes: the first four are the instruction's, the rest is given back. Fewer than four bytes are
no instruction of this spec. -/
def decodeBytes : List Byte → Decoded × List Byte
  | b0 :: b1 :: b2 :: b3 :: rest => (decode (wordOfBytes b0 b1 b2 b3), rest)
  | rest => (.outside, rest)

/-- Byte `k` of a number. -/
def byteOfNat (n k : Nat) : Byte := BitVec.ofNat 8 (n >>> (8 * k))

/-- The instruction that the decoder reads from the low `nbits` bits of `w`, numbered as spec/opcode_table.json numbers
them. -/
def decodeTableWord (nbits w : Nat) : Option Instr :=
  let v := w % 2 ^ nbits
  match (decodeBytes [byteOfNat v 0, byteOfNat v 1, byteOfNat v 2, byteOfNat v 3]).1 with
  | .instr i => some i
  | .reserved => none
  | .outside => none

/-! ## The encoder -/

/-- Format I-CSR (R81). -/
def encCsr (csr : CsrNum) (rs1 : RegIdx) (funct3 : BitVec 3) (rd : RegIdx) : InstrWord :=
  csr ++ rs1 ++ funct3 ++ rd ++ opSystem

/-- Format R-SYS (R82). -/
def encSys (funct7 : BitVec 7) (rs2 rs1 : RegIdx) (funct3 : BitVec 3) (rd : RegIdx) : InstrWord :=
  funct7 ++ rs2 ++ rs1 ++ funct3 ++ rd ++ opSystem

/-- The word of an instruction, from the bit patterns of 30_encoding.md R85. -/
def encode : Instr → InstrWord
  | .csrrw rd csr rs1   => encCsr csr rs1 0b001#3 rd
  | .csrrs rd csr rs1   => encCsr csr rs1 0b010#3 rd
  | .csrrc rd csr rs1   => encCsr csr rs1 0b011#3 rd
  | .csrrwi rd csr uimm => encCsr csr uimm 0b101#3 rd
  | .csrrsi rd csr uimm => encCsr csr uimm 0b110#3 rd
  | .csrrci rd csr uimm => encCsr csr uimm 0b111#3 rd
  | .mret               => encSys 0b0011000#7 0b00010#5 0#5 0b000#3 0#5
  | .hfenceVvma rs1 rs2 => encSys 0b0010001#7 rs2 rs1 0b000#3 0#5
  | .hfenceGvma rs1 rs2 => encSys 0b0110001#7 rs2 rs1 0b000#3 0#5
  | .hlvB rd rs1        => encSys 0b0110000#7 0b00000#5 rs1 0b100#3 rd
  | .hlvBu rd rs1       => encSys 0b0110000#7 0b00001#5 rs1 0b100#3 rd
  | .hlvH rd rs1        => encSys 0b0110010#7 0b00000#5 rs1 0b100#3 rd
  | .hlvHu rd rs1       => encSys 0b0110010#7 0b00001#5 rs1 0b100#3 rd
  | .hlvxHu rd rs1      => encSys 0b0110010#7 0b00011#5 rs1 0b100#3 rd
  | .hlvW rd rs1        => encSys 0b0110100#7 0b00000#5 rs1 0b100#3 rd
  | .hlvxWu rd rs1      => encSys 0b0110100#7 0b00011#5 rs1 0b100#3 rd
  | .hlvWu rd rs1       => encSys 0b0110100#7 0b00001#5 rs1 0b100#3 rd
  | .hlvD rd rs1        => encSys 0b0110110#7 0b00000#5 rs1 0b100#3 rd
  | .hsvB rs2 rs1       => encSys 0b0110001#7 rs2 rs1 0b100#3 0#5
  | .hsvH rs2 rs1       => encSys 0b0110011#7 rs2 rs1 0b100#3 0#5
  | .hsvW rs2 rs1       => encSys 0b0110101#7 rs2 rs1 0b100#3 0#5
  | .hsvD rs2 rs1       => encSys 0b0110111#7 rs2 rs1 0b100#3 0#5

end Sys2Proof
end

