-- ==== Sys2Proof/Machine/State.lean ====
section
/-! DEFINITION. The machine's state: everything the spec gives the hart (10_state.md), the data of the parameter
`Translate` (20_memory.md R68), memory, and the model's own three fields `stored`, `env`, `draws`. -/

namespace Sys2Proof.Machine

/-- A mode (`priv`, `V`), of the hart or of an access (10_state.md R12; 20_memory.md section 2). -/
structure Mode where
  p : Priv
  v : Bool
  deriving DecidableEq, Repr

/-- The exceptions of 60_exceptions.md R169. -/
inductive Exc where
  | instrAddressMisaligned
  | instrAccessFault
  | illegalInstruction
  | breakpoint
  | loadAddressMisaligned
  | loadAccessFault
  | storeAddressMisaligned
  | storeAccessFault
  | ecallFromU
  | ecallFromHs
  | ecallFromVs
  | ecallFromM
  | instrPageFault
  | loadPageFault
  | storePageFault
  | instrGuestPageFault
  | loadGuestPageFault
  | virtualInstruction
  | storeGuestPageFault
  deriving DecidableEq, Repr

/-- The kind of a memory access (20_memory.md R68). -/
inductive AccessKind where
  | read
  | write
  | execute
  | executeAsRead
  deriving DecidableEq, Repr

/-- Whose explicit access it is: a base-ISA load or store, or HLV, HLVX, HSV (20_memory.md section 2). -/
inductive AccessOrigin where
  | ordinary
  | hyp
  deriving DecidableEq, Repr

/-- The widths an explicit access moves (20_memory.md R66). -/
inductive Width where
  | b
  | h
  | w
  | d
  deriving DecidableEq, Repr

/-- The fields of `mstatus` and, when MXLEN=32, of `mstatush` (10_state.md R15, R16). SD is computed on a read (log 16). The
field VS (vector status, bits 10:9) is `vecStatus`. -/
structure Mstatus where
  sie       : Bool
  mie       : Bool
  spie      : Bool
  ube       : Bool
  mpie      : Bool
  spp       : Bool
  vecStatus : BitVec 2
  mpp       : BitVec 2
  fs        : BitVec 2
  xs        : BitVec 2
  mprv      : Bool
  sum       : Bool
  mxr       : Bool
  tvm       : Bool
  tw        : Bool
  tsr       : Bool
  uxl       : BitVec 2
  sxl       : BitVec 2
  sbe       : Bool
  mbe       : Bool
  gva       : Bool
  mpv       : Bool
  deriving DecidableEq, Repr

/-- The fields of `vsstatus`, and those that `sstatus` shows of `mstatus` (10_state.md R24, R39; the list of fields is the
family's, log 17). -/
structure Sstatus where
  sie       : Bool
  spie      : Bool
  ube       : Bool
  spp       : Bool
  vecStatus : BitVec 2
  fs        : BitVec 2
  xs        : BitVec 2
  sum       : Bool
  mxr       : Bool
  uxl       : BitVec 2
  deriving DecidableEq, Repr

/-- The fields of `hstatus` (10_state.md R39; 43_hlv_hsv.md R135; the layout is the family's, log 18). -/
structure Hstatus where
  vsbe  : Bool
  gva   : Bool
  spv   : Bool
  spvp  : Bool
  hu    : Bool
  vgein : BitVec 6
  vtvm  : Bool
  vtw   : Bool
  vtsr  : Bool
  vsxl  : BitVec 2
  deriving DecidableEq, Repr

/-- What a stage's page says of itself: readable, writable, executable, user (20_memory.md R62, R63). -/
structure PagePerm where
  r : Bool
  w : Bool
  x : Bool
  u : Bool
  deriving DecidableEq, Repr

/-- What one translation stage answers for the input addresses `base`, `base` + 1, … (`size` of them) while its root
registers hold `key` and physical memory holds the bytes `found`, which are those of its page tables: the output address of
`base`, the page's permissions, and the addresses of the page-table entries that the walk reads (the implicit accesses of
20_memory.md R51, in the stage's own output space). A store to a byte of `found` changes the answer. Data of the parameter
`Translate`, of which memory is an argument (R68; log 6). -/
structure StageEntry where
  key   : List Word
  base  : Word
  size  : Nat
  found : List Host.Cell
  out   : Word
  perm  : PagePerm
  walk  : List Word
  deriving DecidableEq, Repr

/-- The data of the parameter `Translate` (20_memory.md R68; log 6), by stage, the first entry that holds answering: the single stage of V=0 (key: `satp`), the VS stage
(key: `vsatp`, `hgatp`), the guest-physical stage (key: `hgatp`), and the register `satp` that only Translate reads. -/
structure Translation where
  satp : Word
  hs   : List StageEntry
  vs   : List StageEntry
  g    : List StageEntry
  deriving DecidableEq, Repr

/-- The description of a trap (60_exceptions.md R160). `prev_priv` and `prev_V` are the hart's own when it is taken. -/
structure Trap where
  isInterrupt     : Bool
  code            : Nat
  epc             : Word
  tval            : Word
  tvalIsGva       : Bool
  gpa             : Option Word
  implicitVsStage : Bool
  deriving DecidableEq, Repr

/-- A trap that the environment supplies, for an event outside the spec (60_exceptions.md R160; log 8). -/
structure EnvTrap where
  isInterrupt     : Bool
  code            : Nat
  tval            : Word
  tvalIsGva       : Bool
  gpa             : Option Word
  implicitVsStage : Bool
  deriving DecidableEq, Repr

/-- The explicit access of a base-ISA load or store at the pc: out of scope as an instruction, in scope as what MPRV governs
(20_memory.md R51, R52; log 9). -/
structure OrdinaryAccess where
  isStore : Bool
  width   : Width
  signed  : Bool
  rd      : RegIdx
  addr    : Word
  value   : Word
  deriving DecidableEq, Repr

/-- What the environment does at a step (00_scope.md section 6, 92_eei_decisions.md D32; log 8). -/
inductive EnvEvent where
  /-- Nothing: the hart executes. -/
  | pass
  /-- The pending bits are driven to these values (10_state.md R43). -/
  | pending (bits : BitVec 16)
  /-- A trap of an event outside the spec (60_exceptions.md R160): an exception, or an interrupt for a mode below M. -/
  | trap (t : EnvTrap)
  /-- The instruction at the pc is a base-ISA load or store (20_memory.md R51). -/
  | access (a : OrdinaryAccess)
  /-- `Translate` answers otherwise from here on (20_memory.md R68, R43(b)). -/
  | translation (t : Translation)
  deriving DecidableEq, Repr

/-- Memory: (address, byte) pairs, addresses strictly rising, no entry equal to what an unlisted address reads as. -/
abbrev Memory := List Host.Cell

/-- The state of the machine; INVENTORY.md '## State' lists every field with its rule. -/
structure State where
  /-- The implementation's parameters; no step writes them (00_scope.md section 5). -/
  cfg      : Config
  /-- The current privilege level (R10). -/
  priv     : Priv
  /-- The current virtualization mode V (R11). -/
  v        : Bool
  /-- The program counter (R41). -/
  pc       : Word
  /-- The general registers x0 to x31 (R40). -/
  regs     : Vector Word 32
  /-- `mstatus` and `mstatush` (R14 to R23). -/
  mstatus  : Mstatus
  /-- The writable bits of `mideleg` (R25 to R28). -/
  mideleg  : BitVec 16
  /-- The interrupt-pending bits, of `mip` and `hip` (R29 to R33). -/
  pend     : BitVec 16
  /-- The interrupt-enable bits, of `mie` and `hie` (R29 to R33). -/
  enab     : BitVec 16
  /-- `mtval` (R38). -/
  mtval    : Word
  /-- `mtval2` (R34, R35). -/
  mtval2   : Word
  /-- `mtinst` (R36, R37). -/
  mtinst   : Word
  /-- `mepc` (R120, R167). -/
  mepc     : Word
  /-- `mcause` (R167). -/
  mcause   : Word
  /-- `mtvec` (R167). -/
  mtvec    : Word
  /-- `mscratch` (R44). -/
  mscratch : Word
  /-- `hstatus` (R39). -/
  hstatus  : Hstatus
  /-- `vsstatus` (R24, R39). -/
  vsstatus : Sstatus
  /-- `hgatp` (R39, R115). -/
  hgatp    : Word
  /-- `vsatp` (R39, R115). -/
  vsatp    : Word
  /-- The data of `Translate` (R68). -/
  trans    : Translation
  /-- Physical memory (R67, R74). -/
  mem      : Memory
  /-- The model's own: physical addresses that a store has written, rising (R72; log 24). -/
  stored   : List Nat
  /-- The model's own: the environment's coming events, the next one first (R43, R160; log 8). -/
  env      : List EnvEvent
  /-- The model's own: how many free values have been drawn (log 12). -/
  draws    : Nat
  deriving DecidableEq, Repr

/-- The ways the machine sticks. -/
inductive Fault where
  /-- Raised by a fetch of a byte that a store has written: 20_memory.md R72 gives such a fetch no meaning (no FENCE.I in
  scope), so what it would return is a race. Safe: the real machine goes on, the model stops (log 24). -/
  | fetchOfStoredByte
  deriving DecidableEq, Repr

/-- The situations without a meaning. -/
inductive Refusal where
  /-- Raised by `exec` alone, for an instruction that has no meaning yet. Safe. -/
  | notModelled (mnemonic : String)
  /-- Raised by MRET and by an ordinary access under MPRV=1 when MPP holds 2, which is not a legal value
  (20_memory.md R59, 41_mret.md R120, D28). Safe: no step reaches such a state (log 27). -/
  | reservedMpp
  /-- Raised by a trap whose target is HS-mode or VS-mode: entry there is out of scope (00_scope.md section 4.3,
  60_exceptions.md R160). Safe (log 11). -/
  | trapBelowM
  /-- Raised by a CSR access to a register that `cfg.otherCsrs` lists: implemented by the larger machine, outside this spec.
  Safe (log 21). -/
  | foreignCsr (csr : CsrNum)
  /-- Raised by a fetch of an instruction outside this spec (00_scope.md section 4.3). Safe (log 25). -/
  | outsideInstruction
  /-- Raised by an access to a physical address with side effects, which this spec leaves to the platform
  (20_memory.md R66). Safe (log 33). -/
  | deviceAccess
  deriving DecidableEq, Repr

/-- `mstatus` with every field 0. -/
def Mstatus.zero : Mstatus where
  sie := false
  mie := false
  spie := false
  ube := false
  mpie := false
  spp := false
  vecStatus := 0#2
  mpp := 0#2
  fs := 0#2
  xs := 0#2
  mprv := false
  sum := false
  mxr := false
  tvm := false
  tw := false
  tsr := false
  uxl := 0#2
  sxl := 0#2
  sbe := false
  mbe := false
  gva := false
  mpv := false

/-- `mstatus` after reset: MIE, MPRV and MBE are 0 (10_state.md R44), UXL and SXL hold MXL (92_eei_decisions.md D4; log 16); the
other fields are 0 by choice (log 3). -/
def Mstatus.reset (m : Mxlen) : Mstatus := { Mstatus.zero with uxl := xlField m, sxl := xlField m }

/-- `vsstatus` with every field 0. -/
def Sstatus.zero : Sstatus where
  sie := false
  spie := false
  ube := false
  spp := false
  vecStatus := 0#2
  fs := 0#2
  xs := 0#2
  sum := false
  mxr := false
  uxl := 0#2

/-- `vsstatus` after reset: UXL holds MXL (92_eei_decisions.md D4; log 16), the other fields are 0 by choice (log 3). -/
def Sstatus.reset (m : Mxlen) : Sstatus := { Sstatus.zero with uxl := xlField m }

/-- `hstatus` with every field 0. -/
def Hstatus.zero : Hstatus where
  vsbe := false
  gva := false
  spv := false
  spvp := false
  hu := false
  vgein := 0#6
  vtvm := false
  vtw := false
  vtsr := false
  vsxl := 0#2

/-- `hstatus` after reset: VSXL holds MXL (92_eei_decisions.md D4; log 16), the other fields are 0 by choice (log 3). -/
def Hstatus.reset (m : Mxlen) : Hstatus := { Hstatus.zero with vsxl := xlField m }

/-- The state after reset of an implementation `c` (10_state.md R44, 70_reset_and_hazards.md R200): M-mode with V=0, MIE and
MPRV 0, pc = RESET_PC; the fields that hold an XLEN hold MXL. Every other register holds 0 by choice (log 3), no stage maps anything (log 6), no memory is
listed. -/
def State.resetOf (c : Config) : State where
  cfg      := c
  priv     := .m
  v        := false
  pc       := c.resetPc
  regs     := Vector.replicate 32 0#64
  mstatus  := .reset c.mxlen
  mideleg  := 0#16
  pend     := 0#16
  enab     := 0#16
  mtval    := 0#64
  mtval2   := 0#64
  mtinst   := 0#64
  mepc     := 0#64
  mcause   := 0#64
  mtvec    := 0#64
  mscratch := 0#64
  hstatus  := .reset c.mxlen
  vsstatus := .reset c.mxlen
  hgatp    := 0#64
  vsatp    := 0#64
  trans    := { satp := 0#64, hs := [], vs := [], g := [] }
  mem      := []
  stored   := []
  env      := []
  draws    := 0

/-- The machine right after reset, with the configuration `Config.atReset`. -/
def State.reset : State := State.resetOf Config.atReset

end Sys2Proof.Machine
end

