-- ==== Sys2Proof/Machine/Operands.lean ====
section
/-! DEFINITION. Values of operands: the width XLEN, extension and truncation, the bytes of a value, the portions of an
access, and the small tables of modes and exceptions (00_scope.md section 7.1, 20_memory.md R64 to R66, 40_csr_access.md
R117, 60_exceptions.md R169). -/

namespace Sys2Proof.Machine

/-! ## Widths and extension -/

/-- MXLEN as a number of bits. -/
def mxlenBits : Mxlen → Nat
  | .x32 => 32
  | .x64 => 64

/-- A value reduced to XLEN bits: arithmetic is modulo 2^XLEN (R41, R117). -/
def xlenCut (m : Mxlen) (a : Word) : Word :=
  match m with
  | .x32 => (a.setWidth 32).setWidth 64
  | .x64 => a

/-- The immediate `uimm`, zero-extended (R84, R117(b)). -/
def zextUimm (u : BitVec 5) : Word := u.setWidth 64

/-- How many bytes an access moves (R66). -/
def widthBytes : Width → Nat
  | .b => 1
  | .h => 2
  | .w => 4
  | .d => 8

/-- The low bytes of a value, zero-extended (R117(c), (d)). -/
def zextWidth (n : Width) (a : Word) : Word :=
  match n with
  | .b => (a.setWidth 8).setWidth 64
  | .h => (a.setWidth 16).setWidth 64
  | .w => (a.setWidth 32).setWidth 64
  | .d => a

/-- The low bytes of a value, sign-extended (R117(c)). -/
def sextWidth (n : Width) (a : Word) : Word :=
  match n with
  | .b => (a.setWidth 8).signExtend 64
  | .h => (a.setWidth 16).signExtend 64
  | .w => (a.setWidth 32).signExtend 64
  | .d => a

/-- The value that a load of `n` bytes leaves in a register. -/
def extendLoad (m : Mxlen) (signed : Bool) (n : Width) (a : Word) : Word :=
  xlenCut m (if signed then sextWidth n a else zextWidth n a)

/-- An instruction address: bit 0 clear, and bit 1 too when every instruction has four bytes (R41, R167). -/
def instrAddr (c : Config) (a : Word) : Word :=
  if c.variableLength then a &&& ~~~1#64 else a &&& ~~~3#64

/-! ## The bytes of a value (R64) -/

/-- The place of the byte at offset `k` of an `n`-byte access in the value. Little-endian: the lowest address holds bits
7:0. -/
def bytePlace (big : Bool) (n k : Nat) : Nat := if big then n - 1 - k else k

/-- The byte that an `n`-byte store of `value` puts at offset `k`. -/
def byteOfValue (big : Bool) (n : Nat) (value : Word) (k : Nat) : Byte :=
  (value >>> (8 * bytePlace big n k)).setWidth 8

/-- The value of an `n`-byte load from its bytes by offset. -/
def valueOfBytes (big : Bool) (n : Nat) : List (Nat × Byte) → Word
  | [] => 0#64
  | (k, b) :: rest => (b.setWidth 64 <<< (8 * bytePlace big n k)) ||| valueOfBytes big n rest

/-! ## The portions of an access (R65, R74) -/

/-- The elements of a list in the order that a number selects: every order is selected by some number. `fuel` is the
length. -/
def reorder {α : Type} : Nat → Nat → List α → List α
  | 0, _, _ => []
  | _ + 1, _, [] => []
  | fuel + 1, k, a :: rest =>
    let i := k % (rest.length + 1)
    match (a :: rest)[i]? with
    | some b => b :: reorder fuel (k / (rest.length + 1)) ((a :: rest).eraseIdx i)
    | none => []

/-- Natural alignment: `addr mod n = 0` (R65). -/
def aligned (addr : Word) (n : Width) : Bool := addr.toNat % widthBytes n == 0

/-- The portions (offset, length) in which an access is performed: one when it is aligned, and otherwise its bytes in the
order `order` (R65, R74; log 23). -/
def portions (addr : Word) (n : Width) (order : Nat) : List (Nat × Nat) :=
  if aligned addr n then [(0, widthBytes n)]
  else reorder (widthBytes n) order ((List.range (widthBytes n)).map fun k => (k, 1))

/-! ## Modes -/

/-- The encoding of a privilege level in MPP (10_state.md R10, R17). -/
def privBits : Priv → BitVec 2
  | .u => 0#2
  | .s => 1#2
  | .m => 3#2

/-- The privilege level of an MPP value; 2 is none (R17). -/
def privOfBits (b : BitVec 2) : Option Priv :=
  if b = 0#2 then some .u
  else if b = 1#2 then some .s
  else if b = 3#2 then some .m
  else none

/-- The privilege level that `hstatus.SPVP` names (20_memory.md R60). -/
def privOfSpvp (spvp : Bool) : Priv := if spvp then .s else .u

/-! ## Exceptions (R169) -/

/-- The cause codes. -/
def excCode : Exc → Nat
  | .instrAddressMisaligned => 0
  | .instrAccessFault       => 1
  | .illegalInstruction     => 2
  | .breakpoint             => 3
  | .loadAddressMisaligned  => 4
  | .loadAccessFault        => 5
  | .storeAddressMisaligned => 6
  | .storeAccessFault       => 7
  | .ecallFromU             => 8
  | .ecallFromHs            => 9
  | .ecallFromVs            => 10
  | .ecallFromM             => 11
  | .instrPageFault         => 12
  | .loadPageFault          => 13
  | .storePageFault         => 15
  | .instrGuestPageFault    => 20
  | .loadGuestPageFault     => 21
  | .virtualInstruction     => 22
  | .storeGuestPageFault    => 23

/-- The codes of the three guest-page faults (R163). -/
def isGuestPageFault (code : Nat) : Bool := code == 20 || code == 21 || code == 23

/-- The codes whose `mtval` can be a guest virtual address (R169, last column). -/
def gvaPossible (code : Nat) : Bool := [0, 1, 3, 4, 5, 6, 7, 12, 13, 15, 20, 21, 23].contains code

/-- The codes of the access, page and guest-page faults: those of the literal reading of R162 (log 29). -/
def literalGvaCode (code : Nat) : Bool := [1, 5, 7, 12, 13, 15, 20, 21, 23].contains code

/-- The access fault of an access (R169). HLVX reports a load fault (R135). -/
def accessFaultOf : AccessKind → Exc
  | .read | .executeAsRead => .loadAccessFault
  | .write => .storeAccessFault
  | .execute => .instrAccessFault

/-- The page fault of an access (R169, R135). -/
def pageFaultOf : AccessKind → Exc
  | .read | .executeAsRead => .loadPageFault
  | .write => .storePageFault
  | .execute => .instrPageFault

/-- The guest-page fault of an access (R169, R135). -/
def guestPageFaultOf : AccessKind → Exc
  | .read | .executeAsRead => .loadGuestPageFault
  | .write => .storeGuestPageFault
  | .execute => .instrGuestPageFault

/-- The misaligned-address exception of an access (R65, R169). -/
def misalignedOf : AccessKind → Exc
  | .read | .executeAsRead => .loadAddressMisaligned
  | .write => .storeAddressMisaligned
  | .execute => .instrAddressMisaligned

/-! ## WARL (00_scope.md R5) -/

/-- Whether a value is in a legal set: 0 always is, and a nonzero value has at most MXLEN bits and lies in a range. -/
def legalIn (m : Mxlen) (set : LegalRanges) (a : Word) : Bool :=
  a == 0#64 || (decide (a.toNat < 2 ^ mxlenBits m) && set.any fun r => decide (r.1 ≤ a.toNat) && decide (a.toNat ≤ r.2))

/-- What a software write leaves in a WARL register: the value if it is legal, and otherwise the implementation's legal
choice (R5, R113, R114; log 13). -/
def warlWrite (m : Mxlen) (reg : WarlReg) (set : LegalRanges) (old a : Word) : Word :=
  if legalIn m set a then a
  else if legalIn m set (Config.warlResolve reg old a) then Config.warlResolve reg old a
  else 0#64

/-- What a software write leaves in MPP: 0, 1 and 3 are legal (R17, R108; log 13). -/
def mppWrite (old a : BitVec 2) : BitVec 2 :=
  if a = 2#2 then
    let r := (Config.warlResolve .mpp (old.setWidth 64) (a.setWidth 64)).setWidth 2
    if r = 2#2 then 0#2 else r
  else a

/-- The smallest nonzero value of a legal set, 0 if there is none. -/
def firstNonzeroLegal (m : Mxlen) : LegalRanges → Word
  | [] => 0#64
  | r :: rest =>
    let k := max r.1 1
    if k ≤ r.2 ∧ k < 2 ^ mxlenBits m then BitVec.ofNat 64 k else firstNonzeroLegal m rest

end Sys2Proof.Machine
end

