-- ==== Sys2Proof/Machine/Flags.lean ====
section
/-! DEFINITION. The status registers as words: what a read of `mstatus`, `mstatush`, `sstatus`, `vsstatus`, `hstatus`
shows of their fields and what a write leaves in them (10_state.md R14 to R24, 40_csr_access.md R107 to R109). The hardware
has no condition codes (10_state.md R42); no instruction writes a flag. -/

namespace Sys2Proof.Machine

/-- Two status bits as the family writes "dirty": a field holding 3. -/
def dirty (f : BitVec 2) : Bool := f == 3#2

/-- SD, computed: some of FS, XS, VS is dirty (the family's, log 16). -/
def sdOf (fs xs vecStatus : BitVec 2) : Bool := dirty fs || dirty xs || dirty vecStatus

/-! ## Fields at their positions (00_scope.md R4) -/

/-- A one-bit field at bit `k` of a word, the other bits 0. -/
def bitAt (b : Bool) (k : Nat) : Word := (BitVec.ofBool b).setWidth 64 <<< k

/-- A field of `n` bits whose lowest bit is bit `k` of a word, the other bits 0. -/
def fieldAt {n : Nat} (a : BitVec n) (k : Nat) : Word := a.setWidth 64 <<< k

/-! ## `mstatus` and `mstatush` -/

/-- Bits 22:0 of `mstatus`, the same at both widths; bits 4, 2, 0 are reserved (R15, R16). -/
def mstatusLow (f : Mstatus) : Word :=
  bitAt f.sie 1 ||| bitAt f.mie 3 ||| bitAt f.spie 5 ||| bitAt f.ube 6 ||| bitAt f.mpie 7 ||| bitAt f.spp 8
    ||| fieldAt f.vecStatus 9 ||| fieldAt f.mpp 11 ||| fieldAt f.fs 13 ||| fieldAt f.xs 15 ||| bitAt f.mprv 17
    ||| bitAt f.sum 18 ||| bitAt f.mxr 19 ||| bitAt f.tvm 20 ||| bitAt f.tw 21 ||| bitAt f.tsr 22

/-- `mstatus` when MXLEN=64 (R15). -/
def mstatusRead64 (f : Mstatus) : Word :=
  mstatusLow f ||| fieldAt f.uxl 32 ||| fieldAt f.sxl 34 ||| bitAt f.sbe 36 ||| bitAt f.mbe 37 ||| bitAt f.gva 38
    ||| bitAt f.mpv 39 ||| bitAt (sdOf f.fs f.xs f.vecStatus) 63

/-- `mstatus` when MXLEN=32: MPV and GVA are not in it (R16). -/
def mstatusRead32 (f : Mstatus) : Word := mstatusLow f ||| bitAt (sdOf f.fs f.xs f.vecStatus) 31

/-- `mstatush`, which exists when MXLEN=32 (R16). -/
def mstatushRead (f : Mstatus) : Word := bitAt f.sbe 4 ||| bitAt f.mbe 5 ||| bitAt f.gva 6 ||| bitAt f.mpv 7

/-- `CsrRead(mstatus)` (R107). -/
def mstatusRead (m : Mxlen) (f : Mstatus) : Word :=
  match m with
  | .x64 => mstatusRead64 f
  | .x32 => mstatusRead32 f

/-- The fields that a write of `a` to `mstatus` changes at both widths (R108). R108 says "each writable field" and names MPRV,
TSR, TVM, TW, MXR, SUM and MPP; that SIE, MIE, SPIE, MPIE, SPP, FS and the vector status VS are plain writable storage too,
though the floating-point and vector units are out of scope, is a DESIGN CHOICE (log 41). UBE is fixed at 0 (D6, log 15); XS and
SD are read-only (log 16). -/
def mstatusWriteLow (a : Word) (f : Mstatus) : Mstatus :=
  { f with
    sie := a.getLsbD 1, mie := a.getLsbD 3, spie := a.getLsbD 5, mpie := a.getLsbD 7, spp := a.getLsbD 8,
    vecStatus := a.extractLsb' 9 2, mpp := mppWrite f.mpp (a.extractLsb' 11 2), fs := a.extractLsb' 13 2,
    mprv := a.getLsbD 17, sum := a.getLsbD 18, mxr := a.getLsbD 19, tvm := a.getLsbD 20, tw := a.getLsbD 21,
    tsr := a.getLsbD 22 }

/-- `CsrWrite(mstatus, a)` (R108): with MXLEN=64 also MPV and GVA, with MXLEN=32 neither. -/
def mstatusWrite (m : Mxlen) (a : Word) (f : Mstatus) : Mstatus :=
  match m with
  | .x64 => { mstatusWriteLow a f with mpv := a.getLsbD 39, gva := a.getLsbD 38 }
  | .x32 => mstatusWriteLow a f

/-- `CsrWrite(mstatush, a)` (R109): MPV and GVA; MBE and SBE are fixed at 0 (D6). -/
def mstatushWrite (a : Word) (f : Mstatus) : Mstatus :=
  { f with mpv := a.getLsbD 7, gva := a.getLsbD 6 }

/-! ## `sstatus` and `vsstatus` -/

/-- Bits 19:0 of `sstatus` and `vsstatus` (the family's layout, log 17). -/
def sstatusLow (f : Sstatus) : Word :=
  bitAt f.sie 1 ||| bitAt f.spie 5 ||| bitAt f.ube 6 ||| bitAt f.spp 8 ||| fieldAt f.vecStatus 9 ||| fieldAt f.fs 13
    ||| fieldAt f.xs 15 ||| bitAt f.sum 18 ||| bitAt f.mxr 19

/-- A read of `sstatus` or `vsstatus`. -/
def sstatusRead (m : Mxlen) (f : Sstatus) : Word :=
  match m with
  | .x64 => sstatusLow f ||| fieldAt f.uxl 32 ||| bitAt (sdOf f.fs f.xs f.vecStatus) 63
  | .x32 => sstatusLow f ||| bitAt (sdOf f.fs f.xs f.vecStatus) 31

/-- What a write of `a` leaves in the fields of `sstatus` or `vsstatus`: UBE is fixed at 0 (D6), UXL and XS are not
writable (log 16, 17). -/
def sstatusWrite (a : Word) (f : Sstatus) : Sstatus :=
  { f with
    sie := a.getLsbD 1, spie := a.getLsbD 5, spp := a.getLsbD 8, vecStatus := a.extractLsb' 9 2,
    fs := a.extractLsb' 13 2, sum := a.getLsbD 18, mxr := a.getLsbD 19 }

/-- The fields of `mstatus` that the HS-level `sstatus` shows: the same storage (10_state.md R24(a)). -/
def sstatusOf (f : Mstatus) : Sstatus where
  sie := f.sie
  spie := f.spie
  ube := f.ube
  spp := f.spp
  vecStatus := f.vecStatus
  fs := f.fs
  xs := f.xs
  sum := f.sum
  mxr := f.mxr
  uxl := f.uxl

/-- `mstatus` with the fields of `sstatus` replaced (10_state.md R24(a)). -/
def withSstatus (f : Mstatus) (g : Sstatus) : Mstatus :=
  { f with
    sie := g.sie, spie := g.spie, ube := g.ube, spp := g.spp, vecStatus := g.vecStatus, fs := g.fs, xs := g.xs,
    sum := g.sum, mxr := g.mxr, uxl := g.uxl }

/-! ## `hstatus` -/

/-- Bits 22:0 of `hstatus` (the family's layout, log 18). -/
def hstatusLow (f : Hstatus) : Word :=
  bitAt f.vsbe 5 ||| bitAt f.gva 6 ||| bitAt f.spv 7 ||| bitAt f.spvp 8 ||| bitAt f.hu 9 ||| fieldAt f.vgein 12
    ||| bitAt f.vtvm 20 ||| bitAt f.vtw 21 ||| bitAt f.vtsr 22

/-- A read of `hstatus`. -/
def hstatusRead (m : Mxlen) (f : Hstatus) : Word :=
  match m with
  | .x64 => hstatusLow f ||| fieldAt f.vsxl 32
  | .x32 => hstatusLow f

/-- What a write of `a` leaves in the fields of `hstatus`: VSBE is fixed at 0 (D6), VSXL is not writable (D4). -/
def hstatusWrite (a : Word) (f : Hstatus) : Hstatus :=
  { f with
    gva := a.getLsbD 6, spv := a.getLsbD 7, spvp := a.getLsbD 8, hu := a.getLsbD 9, vgein := a.extractLsb' 12 6,
    vtvm := a.getLsbD 20, vtw := a.getLsbD 21, vtsr := a.getLsbD 22 }

/-! ## Where TSR, TVM and TW act (10_state.md R21; 60_exceptions.md R178 to R180) -/

/-- HS-mode: `priv` = 1 and V = 0 (10_state.md R12). -/
def inHs (md : Mode) : Bool := md.p == .s && !md.v

/-- VS-mode: `priv` = 1 and V = 1 (10_state.md R12). -/
def inVs (md : Mode) : Bool := md.p == .s && md.v

/-- TSR affects execution in HS-mode only (R178). -/
def tsrActs (f : Mstatus) (md : Mode) : Bool := f.tsr && inHs md

/-- TVM affects execution in HS-mode only (R179). -/
def tvmActs (f : Mstatus) (md : Mode) : Bool := f.tvm && inHs md

/-- TW affects execution in every mode except M-mode (R180). -/
def twActs (f : Mstatus) (md : Mode) : Bool := f.tw && md.p != .m

end Sys2Proof.Machine
end

