-- ==== Sys2Proof/Machine/Ops.lean ====
section
/-! DEFINITION. The named operations over registers, the pc and memory; the interrupt registers as they read; taking a trap
into M-mode as ONE operation (60_exceptions.md R160 to R169) and the return from it beside it (41_mret.md R120). -/

namespace Sys2Proof.Machine

/-- The outcome of an instruction or of a step. -/
abbrev Result := Host.Outcome State Fault Refusal

/-- The hart's mode (10_state.md R12). -/
def State.mode (s : State) : Mode := { p := s.priv, v := s.v }

/-! ## General registers (10_state.md R40) -/

/-- `x[i]`: x0 reads 0. -/
def State.x (s : State) (i : RegIdx) : Word :=
  if i = 0#5 then 0#64 else xlenCut s.cfg.mxlen (s.regs[i.toNat]'i.isLt)

/-- `x[i] <- a`: a write to x0 is discarded. -/
def State.setX (s : State) (i : RegIdx) (a : Word) : State :=
  if i = 0#5 then s else { s with regs := s.regs.set i.toNat (xlenCut s.cfg.mxlen a) i.isLt }

/-! ## The program counter (10_state.md R41) -/

/-- `pc <- pc + 4`, modulo 2^XLEN. -/
def State.advance (s : State) : State := { s with pc := xlenCut s.cfg.mxlen (s.pc + 4#64) }

/-- A free value has been drawn. -/
def State.bumpDraws (s : State) : State := { s with draws := s.draws + 1 }

/-! ## Memory (20_memory.md R67) -/

/-- What a byte of memory that nothing has written reads as. DESIGN CHOICE (log 5). -/
def unlistedByte : Byte := 0#8

/-- The byte at a physical address. -/
def Memory.read (m : Memory) (a : Nat) : Byte :=
  match m with
  | [] => unlistedByte
  | (b, y) :: rest => if a = b then y else Memory.read rest a

/-- Memory with the byte at a physical address replaced, in canonical form. -/
def Memory.write (m : Memory) (a : Nat) (y : Byte) : Memory :=
  match m with
  | [] => if y = unlistedByte then [] else [(a, y)]
  | (b, z) :: rest =>
    if a < b then (if y = unlistedByte then (b, z) :: rest else (a, y) :: (b, z) :: rest)
    else if a = b then (if y = unlistedByte then rest else (a, y) :: rest)
    else (b, z) :: Memory.write rest a y

/-- The canonical form: addresses strictly rising, no entry equal to what an unlisted address reads as. -/
def Memory.wf (m : Memory) : Bool :=
  match m with
  | [] => true
  | (a, y) :: rest =>
    decide (y ≠ unlistedByte) && (match rest with | [] => true | (b, _) :: _ => decide (a < b)) && Memory.wf rest

/-- A rising list with an address put in. -/
def insertAddr (a : Nat) : List Nat → List Nat
  | [] => [a]
  | b :: rest => if a < b then a :: b :: rest else if a = b then b :: rest else b :: insertAddr a rest

/-- A store's effect on one byte: memory changes, and the address is remembered as stored to (R72; log 24). -/
def State.storeByte (s : State) (a : Nat) (y : Byte) : State :=
  { s with mem := Memory.write s.mem a y, stored := insertAddr a s.stored }

/-- The byte of the machine's memory at a physical address. -/
def State.byteAt (s : State) (a : Nat) : Byte := Memory.read s.mem a

/-! ## The interrupt registers as they read (10_state.md R25 to R33, 40_csr_access.md R107) -/

/-- `mideleg` bit 12: fixed at 1 when GEILEN ≠ 0, otherwise as `MIDELEG_BIT12_NO_GEI` says (R27). -/
def midelegBit12 (c : Config) (kept : BitVec 16) : BitVec 16 :=
  if c.geilen ≠ 0 then 0x1000#16
  else match c.midelegBit12NoGei with
    | .zero => 0#16
    | .one => 0x1000#16
    | .writable => kept &&& 0x1000#16

/-- `mideleg`: bits 10, 6, 2 are fixed at 1, bits 9, 5, 1 are kept, the rest reads 0 (R26 to R28, R110). -/
def State.midelegBits (s : State) : BitVec 16 :=
  (s.mideleg &&& 0x222#16) ||| 0x444#16 ||| midelegBit12 s.cfg s.mideleg

/-- The defined bits of `mip` and `mie` (R30); bit 12 reads 0 when GEILEN = 0 (R111, R112). -/
def intMask (c : Config) : BitVec 16 := if c.geilen ≠ 0 then 0x1EEE#16 else 0x0EEE#16

/-- The aliased bits 12, 10, 6, 2 (R31, R32). -/
def aliasMask : BitVec 16 := 0x1444#16

/-- `mip` (R29, R107). -/
def State.mipBits (s : State) : BitVec 16 := s.pend &&& intMask s.cfg

/-- `mie` (R29, R107). -/
def State.mieBits (s : State) : BitVec 16 := s.enab &&& intMask s.cfg

/-- `hip`: the same storage in bits 12, 10, 6, 2, no other bit (R31, R33, R116). -/
def State.hipBits (s : State) : BitVec 16 := s.mipBits &&& aliasMask

/-- `hie`: the same storage in bits 12, 10, 6, 2, no other bit (R32, R33, R116). -/
def State.hieBits (s : State) : BitVec 16 := s.mieBits &&& aliasMask

/-! ## Where a trap goes (60_exceptions.md R160, R171, R176) -/

/-- The mode that a trap is taken into. -/
inductive Target where
  | m
  | hs
  | vs
  deriving DecidableEq, Repr

/-- `trap_target` (R160; log 11). A delegated interrupt never goes to M-mode (R171). An exception raised in M-mode goes
there; one raised below goes to HS-mode, or on to VS-mode, as the delegation lists say (R176); code 11 is never delegated. -/
def trapTarget (t : Trap) (s : State) : Target :=
  if t.isInterrupt then
    if s.midelegBits.getLsbD t.code then .hs else .m
  else if s.priv = .m ∨ t.code = 11 then .m
  else if s.cfg.medeleg.contains t.code then
    if s.v && s.cfg.hedeleg.contains t.code then .vs else .hs
  else .m

/-! ## Entry into M-mode (60_exceptions.md R161 to R168) -/

/-- GVA (R162): whether the trap writes a guest virtual address to `mtval`; under the literal reading, whether it is an
access, page or guest-page fault (D14; log 29). -/
def gvaOf (c : Config) (t : Trap) : Bool :=
  match c.gvaRule with
  | .guestVa => t.tvalIsGva
  | .literal => !t.isInterrupt && literalGvaCode t.code

/-- `mtval2` (R163): on a guest-page fault zero or, where the draw `d` says so and the value is legal, the guest physical
address shifted right by 2; on every other trap zero. -/
def mtval2Of (c : Config) (t : Trap) (d : Nat) : Word :=
  if !t.isInterrupt && isGuestPageFault t.code then
    match t.gpa with
    | some g => if Config.mtval2ReportsGpa d && legalIn c.mxlen c.mtval2Legal (g >>> 2) then g >>> 2 else 0#64
    | none => 0#64
  else 0#64

/-- Case (b) of R166: a guest-page fault of an implicit VS-stage access whose guest physical address is in `mtval2`. -/
def needsMtinst (c : Config) (t : Trap) (d : Nat) : Bool := t.implicitVsStage && mtval2Of c t d != 0#64

/-- `mtinst` (R166): an element of `mtinst_value(trap)` that is legal, by the draw `d` (log 14). -/
def mtinstOf (c : Config) (t : Trap) (d : Nat) : Word :=
  let free := xlenCut c.mxlen (Config.mtinstDraw d)
  if needsMtinst c t d then
    if free ≠ 0#64 ∧ legalIn c.mxlen c.mtinstLegal free then free else firstNonzeroLegal c.mxlen c.mtinstLegal
  else match c.mtinstPolicy with
    | .zeroUnlessImplicit => 0#64
    | .anyLegal => if legalIn c.mxlen c.mtinstLegal free then free else 0#64

/-- `mcause` (R167): the interrupt bit at MXLEN-1, the code below it. -/
def mcauseOf (m : Mxlen) (t : Trap) : Word :=
  xlenCut m ((if t.isInterrupt then 1#64 <<< (mxlenBits m - 1) else 0#64) ||| BitVec.ofNat 64 t.code)

/-- The handler's address (R167): vectored for an interrupt when `mtvec` MODE is 1, and `mtvec` BASE * 4 otherwise. -/
def trapPc (m : Mxlen) (mtvec : Word) (t : Trap) : Word :=
  let base := mtvec &&& ~~~3#64
  xlenCut m (if mtvec.extractLsb' 0 2 = 1#2 ∧ t.isInterrupt then base + 4#64 * BitVec.ofNat 64 t.code else base)

/-- What entry into M-mode leaves in `mstatus`: MPV, MPP (R161), GVA (R162), MPIE and MIE (R167). -/
def mstatusTrap (s : State) (t : Trap) : Mstatus :=
  { s.mstatus with
    mpv := s.v, mpp := privBits s.priv, gva := gvaOf s.cfg t, mpie := s.mstatus.mie, mie := false }

/-- TAKING A TRAP INTO M-MODE (R161 to R168). All right-hand sides read the state before the trap. No general register
changes. -/
def enterM (t : Trap) (s : State) : State :=
  { s with
    mstatus := mstatusTrap s t
    mepc := xlenCut s.cfg.mxlen (instrAddr s.cfg t.epc)
    mcause := mcauseOf s.cfg.mxlen t
    mtval := xlenCut s.cfg.mxlen t.tval
    mtval2 := mtval2Of s.cfg t s.draws
    mtinst := mtinstOf s.cfg t s.draws
    pc := trapPc s.cfg.mxlen s.mtvec t
    priv := .m
    v := false
    draws := s.draws + 1 }

/-- A trap: into M-mode it is taken; entry into HS-mode and VS-mode is out of scope (R160; log 11). -/
def takeTrap (t : Trap) (s : State) : Result :=
  match trapTarget t s with
  | .m => .next (enterM t s)
  | .hs => .refused .trapBelowM
  | .vs => .refused .trapBelowM

/-- `raise e` by the instruction at the pc, with nothing about an address: `mtval` receives the instruction bits or 0
(R169; 30_encoding.md R87; log 12). -/
def instrTrap (e : Exc) (ir : InstrWord) (s : State) : Trap where
  isInterrupt := false
  code := excCode e
  epc := s.pc
  tval := if Config.mtvalHoldsInstr s.draws then ir.setWidth 64 else 0#64
  tvalIsGva := false
  gpa := none
  implicitVsStage := false

/-- `raise e`: the instruction `ir` at the pc has no other effect (00_scope.md section 7.1). -/
def raiseInstr (e : Exc) (ir : InstrWord) (s : State) : Result := takeTrap (instrTrap e ir s) s

/-- What TVM raises (`TVM_EXCEPTION`, D23). -/
def tvmExc (c : Config) : Exc :=
  match c.tvmException with
  | .illegalInstruction => .illegalInstruction
  | .virtualInstruction => .virtualInstruction

/-! ## Interrupts (60_exceptions.md R170 to R173) -/

/-- The interrupts in their order, highest first (R173(b)). -/
def interruptOrder : List Nat := [11, 3, 7, 9, 1, 5, 12, 10, 2, 6]

/-- Interrupt `i` is taken into M-mode: pending, enabled, not delegated, and the hart is below M or MIE is 1 (R172). -/
def interruptReady (s : State) (i : Nat) : Bool :=
  s.mipBits.getLsbD i && s.mieBits.getLsbD i && !s.midelegBits.getLsbD i && (s.priv != .m || s.mstatus.mie)

/-- The interrupt that is taken instead of the instruction at the pc, if any (R173(a), (b)). -/
def pendingInterrupt (s : State) : Option Nat := interruptOrder.find? (interruptReady s)

/-- The trap of an interrupt: `mtval` receives 0 (R162, R167). -/
def interruptTrap (code : Nat) (s : State) : Trap where
  isInterrupt := true
  code := code
  epc := s.pc
  tval := 0#64
  tvalIsGva := false
  gpa := none
  implicitVsStage := false

/-! ## The return (41_mret.md R120, 60_exceptions.md R174) -/

/-- `mepc` as it reads: its low bits read 0 (R120, R167). -/
def State.mepcRead (s : State) : Word := xlenCut s.cfg.mxlen (instrAddr s.cfg s.mepc)

/-- What MRET leaves in `mstatus` when it returns to the level `p` (R120). -/
def mstatusReturn (c : Config) (p : Priv) (f : Mstatus) : Mstatus :=
  { f with
    mie := f.mpie, mpie := true, mpp := privBits c.mretMppAfter, mpv := c.mretMpvAfter,
    mprv := if p = .m then f.mprv else false }

/-- RETURNING from a trap to the level `p` that MPP names (R120): V is MPV, but stays 0 when MPP = 3. -/
def returnTo (p : Priv) (s : State) : State :=
  { s with
    mstatus := mstatusReturn s.cfg p s.mstatus
    priv := p
    v := if p = .m then false else s.mstatus.mpv
    pc := s.mepcRead }

end Sys2Proof.Machine
end

