-- ==== Sys2Proof/Machine/Control.lean ====
section
/-! DEFINITION. MRET (41_mret.md R120), HFENCE.VVMA and HFENCE.GVMA (42_hfence.md R125, R126). -/

namespace Sys2Proof.Machine

/-- MRET (R120): legal in M-mode only. MPP = 2 cannot occur; the model refuses it (log 27). -/
def execMret (s : State) : Result :=
  if s.priv = .m then
    match privOfBits s.mstatus.mpp with
    | some p => .next (returnTo p s)
    | none => .refused .reservedMpp
  else raiseInstr .illegalInstruction (encode .mret) s

/-- The check of both fences: VirtualInstruction with V = 1, IllegalInstruction in U-mode (R125, R126). -/
def fenceCheck (s : State) : Option Exc :=
  if s.v then some .virtualInstruction
  else if s.priv = .u then some .illegalInstruction
  else none

/-- What a fence does where it may execute: the ordering acts inside `Translate`, which never caches here, so only the pc
advances (R125, R126; log 26). -/
def fenceEffect (s : State) : Result := .next s.advance

/-- HFENCE.VVMA (R125): TVM is not tested, in any mode. The operands restrict the ordering only. -/
def execHfenceVvma (rs1 rs2 : RegIdx) (s : State) : Result :=
  match fenceCheck s with
  | some e => raiseInstr e (encode (.hfenceVvma rs1 rs2)) s
  | none => fenceEffect s

/-- HFENCE.GVMA (R126): blocked in HS-mode when TVM = 1. The operands restrict the ordering only. -/
def execHfenceGvma (rs1 rs2 : RegIdx) (s : State) : Result :=
  match fenceCheck s with
  | some e => raiseInstr e (encode (.hfenceGvma rs1 rs2)) s
  | none =>
    if tvmActs s.mstatus s.mode then raiseInstr (tvmExc s.cfg) (encode (.hfenceGvma rs1 rs2)) s
    else fenceEffect s

end Sys2Proof.Machine
end

