-- ==== Sys2Proof/Machine/Csr.lean ====
section
/-! DEFINITION. The CSRs by number, the access check, and what a read returns and a write does (30_encoding.md R86,
40_csr_access.md R100, R107 to R116). -/

namespace Sys2Proof.Machine

/-- The CSRs of 30_encoding.md R86, with `mscratch` (10_state.md R44; log 19), and the registers of the larger machine that
this spec leaves out. -/
inductive Csr where
  | mstatus
  | mideleg
  | mie
  | mtvec
  | mstatush
  | mscratch
  | mepc
  | mcause
  | mtval
  | mip
  | mtinst
  | mtval2
  | sstatus
  | vsstatus
  | vsatp
  | hstatus
  | hie
  | hip
  | hgatp
  | foreign (n : CsrNum)
  deriving DecidableEq, Repr

/-- The CSR numbers at either MXLEN (R86; 0x340 for `mscratch`, log 19). -/
def csrTable : List (CsrNum × Csr) :=
  [(0x300#12, .mstatus), (0x303#12, .mideleg), (0x304#12, .mie), (0x305#12, .mtvec), (0x340#12, .mscratch),
   (0x341#12, .mepc), (0x342#12, .mcause), (0x343#12, .mtval), (0x344#12, .mip), (0x34A#12, .mtinst), (0x34B#12, .mtval2),
   (0x100#12, .sstatus), (0x200#12, .vsstatus), (0x280#12, .vsatp), (0x600#12, .hstatus), (0x604#12, .hie),
   (0x644#12, .hip), (0x680#12, .hgatp)]

/-- The register that a number names; `mstatush` exists when MXLEN=32 only (10_state.md R16, D34). -/
def csrNamed (c : Config) (n : CsrNum) : Option Csr :=
  if n = 0x310#12 then
    match c.mxlen with
    | .x32 => some .mstatush
    | .x64 => none
  else match csrTable.lookup n with
    | some r => some r
    | none => if c.otherCsrs.contains n then some (.foreign n) else none

/-- The lowest privilege level of a CSR number: 0 U, 1 S, 2 HS, 3 M (R86). -/
def csrLevel (n : CsrNum) : BitVec 2 := n.extractLsb' 8 2

/-- Whether a CSR number is read-only (R86). -/
def csrReadOnly (n : CsrNum) : Bool := n.extractLsb' 10 2 == 3#2

/-- The register that is reached: with V=1 the S-level number of `sstatus` reaches `vsstatus` (R100; log 22). -/
def csrReached (v : Bool) (r : Csr) : Csr :=
  match r with
  | .sstatus => if v then .vsstatus else .sstatus
  | r => r

/-- The registers whose access TVM blocks in HS-mode: `hgatp` (R115), and `satp` where the larger machine implements it
(60_exceptions.md R179; its number is the family's, log 21). -/
def tvmGuards (r : Csr) : Bool := r == .hgatp || r == .foreign 0x180#12

/-- `CsrCheck(csr, writes)` (R100, R115): the exception to raise, or the register that the access reaches. -/
def csrCheck (n : CsrNum) (writes : Bool) (s : State) : Except Exc Csr :=
  match csrNamed s.cfg n with
  | none => .error .illegalInstruction
  | some r =>
    if writes && csrReadOnly n then .error .illegalInstruction
    else if csrLevel n = 3#2 ∧ s.priv ≠ .m then .error .illegalInstruction
    else if csrLevel n = 2#2 ∧ s.v then .error .virtualInstruction
    else if csrLevel n = 2#2 ∧ s.priv = .u then .error .illegalInstruction
    else if csrLevel n = 1#2 ∧ s.priv = .u then .error (if s.v then .virtualInstruction else .illegalInstruction)
    else if tvmGuards r ∧ tvmActs s.mstatus s.mode then .error (tvmExc s.cfg)
    else .ok (csrReached s.v r)

/-- `CsrRead(csr)` (R107, R116); a read has no side effect. -/
def csrRead (r : Csr) (s : State) : Word :=
  let m := s.cfg.mxlen
  match r with
  | .mstatus => mstatusRead m s.mstatus
  | .mstatush => mstatushRead s.mstatus
  | .mideleg => s.midelegBits.setWidth 64
  | .mie => s.mieBits.setWidth 64
  | .mip => s.mipBits.setWidth 64
  | .hie => s.hieBits.setWidth 64
  | .hip => s.hipBits.setWidth 64
  | .mtvec => xlenCut m s.mtvec
  | .mscratch => xlenCut m s.mscratch
  | .mepc => s.mepcRead
  | .mcause => xlenCut m s.mcause
  | .mtval => xlenCut m s.mtval
  | .mtval2 => s.mtval2
  | .mtinst => s.mtinst
  | .sstatus => sstatusRead m (sstatusOf s.mstatus)
  | .vsstatus => sstatusRead m s.vsstatus
  | .hstatus => hstatusRead m s.hstatus
  | .vsatp => xlenCut m s.vsatp
  | .hgatp => xlenCut m s.hgatp
  | .foreign _ => 0#64

/-- A 16-bit register with the bits of `mask` taken from `a`. -/
def mergeBits (mask old a : BitVec 16) : BitVec 16 := (a &&& mask) ||| (old &&& ~~~mask)

/-- The bits of `mideleg` that a write changes (R110): 9, 5, 1, and 12 where the parameter makes it writable. -/
def midelegWritable (c : Config) : BitVec 16 :=
  if c.geilen = 0 ∧ c.midelegBit12NoGei = .writable then 0x1222#16 else 0x222#16

/-- The bits of `mip` that a write changes (R111): SSIP, VSSIP, STIP, SEIP. -/
def mipWritable : BitVec 16 := 0x226#16

/-- `CsrWrite(csr, a)` (R108 to R116): the state after the write, the pc and the general registers as before. `mtval` is
written by trap entry only (10_state.md R38; log 20). -/
def csrWrite (r : Csr) (a : Word) (s : State) : State :=
  let m := s.cfg.mxlen
  let low := a.setWidth 16
  match r with
  | .mstatus => { s with mstatus := mstatusWrite m a s.mstatus }
  | .mstatush => { s with mstatus := mstatushWrite a s.mstatus }
  | .mideleg => { s with mideleg := mergeBits (midelegWritable s.cfg) s.mideleg low }
  | .mie => { s with enab := mergeBits (intMask s.cfg) s.enab low }
  | .mip => { s with pend := mergeBits mipWritable s.pend low }
  | .hie => { s with enab := mergeBits (intMask s.cfg &&& aliasMask) s.enab low }
  | .hip => { s with pend := mergeBits (mipWritable &&& aliasMask) s.pend low }
  | .mtvec => { s with mtvec := xlenCut m a }
  | .mscratch => { s with mscratch := xlenCut m a }
  | .mepc => { s with mepc := xlenCut m (instrAddr s.cfg a) }
  | .mcause => { s with mcause := xlenCut m a }
  | .mtval => s
  | .mtval2 => { s with mtval2 := warlWrite m .mtval2 s.cfg.mtval2Legal s.mtval2 a }
  | .mtinst => { s with mtinst := warlWrite m .mtinst s.cfg.mtinstLegal s.mtinst a }
  | .sstatus => { s with mstatus := withSstatus s.mstatus (sstatusWrite a (sstatusOf s.mstatus)) }
  | .vsstatus => { s with vsstatus := sstatusWrite a s.vsstatus }
  | .hstatus => { s with hstatus := hstatusWrite a s.hstatus }
  | .vsatp => { s with vsatp := xlenCut m a }
  | .hgatp => { s with hgatp := xlenCut m a }
  | .foreign _ => s

end Sys2Proof.Machine
end

