-- ==== Sys2Proof/Machine/CsrInstr.lean ====
section
/-! DEFINITION. CSRRW, CSRRS, CSRRC, CSRRWI, CSRRSI, CSRRCI (40_csr_access.md R100 to R106). -/

namespace Sys2Proof.Machine

/-- What the six have in common: the check; the register `rd` receives the old value (a write to x0 is discarded, and a
read has no side effect, so CSRRW with rd = x0 needs no case of its own); where `writes` holds the CSR receives `new old`; the
pc advances (R101 to R106). -/
def csrAccess (i : Instr) (n : CsrNum) (rd : RegIdx) (writes : Bool) (new : Word → Word) (s : State) : Result :=
  match csrCheck n writes s with
  | .error e => raiseInstr e (encode i) s
  | .ok (.foreign k) => .refused (.foreignCsr k)
  | .ok r =>
    let old := csrRead r s
    let t := if writes then csrWrite r (new old) s else s
    .next (t.setX rd old).advance

/-- CSRRW (R101). -/
def execCsrrw (rd : RegIdx) (csr : CsrNum) (rs1 : RegIdx) (s : State) : Result :=
  csrAccess (.csrrw rd csr rs1) csr rd true (fun _ => s.x rs1) s

/-- CSRRS (R102): it writes unless `rs1` is x0; the test is on the index. -/
def execCsrrs (rd : RegIdx) (csr : CsrNum) (rs1 : RegIdx) (s : State) : Result :=
  csrAccess (.csrrs rd csr rs1) csr rd (rs1 != 0#5) (fun old => old ||| s.x rs1) s

/-- CSRRC (R103): as CSRRS. -/
def execCsrrc (rd : RegIdx) (csr : CsrNum) (rs1 : RegIdx) (s : State) : Result :=
  csrAccess (.csrrc rd csr rs1) csr rd (rs1 != 0#5) (fun old => old &&& ~~~(s.x rs1)) s

/-- CSRRWI (R104). -/
def execCsrrwi (rd : RegIdx) (csr : CsrNum) (uimm : BitVec 5) (s : State) : Result :=
  csrAccess (.csrrwi rd csr uimm) csr rd true (fun _ => zextUimm uimm) s

/-- CSRRSI (R105): it writes unless `uimm` is 0. -/
def execCsrrsi (rd : RegIdx) (csr : CsrNum) (uimm : BitVec 5) (s : State) : Result :=
  csrAccess (.csrrsi rd csr uimm) csr rd (uimm != 0#5) (fun old => old ||| zextUimm uimm) s

/-- CSRRCI (R106): it writes unless `uimm` is 0. -/
def execCsrrci (rd : RegIdx) (csr : CsrNum) (uimm : BitVec 5) (s : State) : Result :=
  csrAccess (.csrrci rd csr uimm) csr rd (uimm != 0#5) (fun old => old &&& ~~~(zextUimm uimm)) s

end Sys2Proof.Machine
end

