-- ==== Sys2Proof/Machine/Translate.lean ====
section
/-! DEFINITION. The effective mode of an access (20_memory.md R52 to R61) and the parameter `Translate` with its
obligations (R62, R63, R68): which stages apply, what MXR and SUM do at each, what a guest-page fault reports. What the walk
of a stage answers is the data of `State.trans`, as a function of the root registers and of memory (log 6, 7). -/

namespace Sys2Proof.Machine

/-! ## The effective mode -/

/-- The mode of HLV, HLVX and HSV: V = 1 and the privilege `hstatus.SPVP`, whatever MPRV, MPP and MPV hold (R60). -/
def hypMode (s : State) : Mode := { p := privOfSpvp s.hstatus.spvp, v := true }

/-- `EffMode(s, origin)` (Table 5.4, R52 to R60). `none` when MPRV = 1 and MPP = 2, which has no row (R59). -/
def effMode (origin : AccessOrigin) (s : State) : Option Mode :=
  match origin with
  | .hyp => some (hypMode s)
  | .ordinary =>
    if s.mstatus.mprv then
      match privOfBits s.mstatus.mpp with
      | none => none
      | some .m => some { p := .m, v := false }
      | some p => some { p := p, v := s.mstatus.mpv }
    else some s.mode

/-- The mode of an implicit fetch: the hart's own, whatever MPRV holds (R61). -/
def fetchMode (s : State) : Mode := s.mode

/-- The byte order of an access with this effective mode (R64). The five control bits are fixed at 0, little-endian (D6,
log 15). -/
def bigEndian (md : Mode) (s : State) : Bool :=
  match md.p, md.v with
  | .m, _ => s.mstatus.mbe
  | .s, false => s.mstatus.sbe
  | .u, false => s.mstatus.ube
  | .s, true => s.hstatus.vsbe
  | .u, true => s.vsstatus.ube

/-! ## What an access can end in -/

/-- `Fault(cause, tval, gpa?, implicit_vs_stage?, tval_is_gva)` (R68). -/
structure MemFault where
  exc             : Exc
  tval            : Word
  tvalIsGva       : Bool
  gpa             : Option Word
  implicitVsStage : Bool
  deriving DecidableEq, Repr

/-- Why an access does not complete: a fault to raise, or an address with side effects (R66; log 33). -/
inductive AccessStop where
  | fault (f : MemFault)
  | device
  deriving DecidableEq, Repr

/-- The trap of a fault, raised by the instruction at the pc (60_exceptions.md R160). -/
def faultTrap (f : MemFault) (s : State) : Trap where
  isInterrupt := false
  code := excCode f.exc
  epc := s.pc
  tval := f.tval
  tvalIsGva := f.tvalIsGva
  gpa := f.gpa
  implicitVsStage := f.implicitVsStage

/-- What an access that stops does to the machine. -/
def stopResult (e : AccessStop) (s : State) : Result :=
  match e with
  | .fault f => takeTrap (faultTrap f s) s
  | .device => .refused .deviceAccess

/-- A fault about the address `va` of an access in the mode `md`: `tval_is_gva` exactly when V = 1 (R68(vi),
60_exceptions.md R162). -/
def addrFault (e : Exc) (va : Word) (md : Mode) : MemFault where
  exc := e
  tval := va
  tvalIsGva := md.v
  gpa := none
  implicitVsStage := false

/-- A guest-page fault, with the guest physical address that failed (R68(v)). -/
def guestFault (kind : AccessKind) (va gpa : Word) (implicit : Bool) (md : Mode) : MemFault where
  exc := guestPageFaultOf kind
  tval := va
  tvalIsGva := md.v
  gpa := some gpa
  implicitVsStage := implicit

/-! ## Physical addresses (R67, R68(i)) -/

/-- Whether a region holds the `n` bytes from a physical address on. -/
def regionHolds (pa n : Nat) (r : PhysRegion) : Bool := decide (r.base ≤ pa) && decide (pa + n ≤ r.base + r.size)

/-- What physical protection lets an access do in a region: the same at every effective privilege, M-level included, where the
spec says only that it may fault. DESIGN CHOICE (log 36). HLVX reads (log 7). -/
def regionAllows (kind : AccessKind) (r : PhysRegion) : Bool :=
  match kind with
  | .read | .executeAsRead => r.r
  | .write => r.w
  | .execute => r.x

/-- A physical access of `n` bytes for the address `va`: an access fault where no region holds it or protection forbids it
(R68(i), 60_exceptions.md R169; log 5). -/
def physical (s : State) (pa va : Word) (n : Nat) (kind : AccessKind) (md : Mode) : Except AccessStop Word :=
  match s.cfg.phys.find? (regionHolds pa.toNat n) with
  | none => .error (.fault (addrFault (accessFaultOf kind) va md))
  | some r =>
    if !regionAllows kind r then .error (.fault (addrFault (accessFaultOf kind) va md))
    else if r.device then .error .device
    else .ok pa

/-! ## The stages (R68(ii), (iii)) -/

/-- Whether memory holds the page-table bytes that an entry was found in. -/
def tablesHold (m : Memory) (e : StageEntry) : Bool := e.found.all fun c => m.read c.1 == c.2

/-- Whether an entry answers for `n` bytes at `a` under the root registers `key`, with memory as it is. -/
def entryHolds (m : Memory) (key : List Word) (a : Word) (n : Nat) (e : StageEntry) : Bool :=
  e.key == key && decide (e.base.toNat ≤ a.toNat) && decide (a.toNat + n ≤ e.base.toNat + e.size) && tablesHold m e

/-- The physical addresses of the bytes that the answers of Translate depend on. -/
def Translation.tableBytes (t : Translation) : List Nat := (t.hs ++ t.vs ++ t.g).flatMap fun e => e.found.map (·.1)

/-- The entry of the single stage for `n` bytes at `va`, if there is one. -/
def State.hsEntry (s : State) (va : Word) (n : Nat) : Option StageEntry :=
  s.trans.hs.find? (entryHolds s.mem [s.trans.satp] va n)

/-- The entry of the VS stage for `n` bytes at `va`, if there is one. -/
def State.vsEntry (s : State) (va : Word) (n : Nat) : Option StageEntry :=
  s.trans.vs.find? (entryHolds s.mem [s.vsatp, s.hgatp] va n)

/-- The entry of the guest-physical stage for `n` bytes at `gpa`, if there is one. -/
def State.gEntry (s : State) (gpa : Word) (n : Nat) : Option StageEntry :=
  s.trans.g.find? (entryHolds s.mem [s.hgatp] gpa n)

/-- The output address of an entry: 64 bits at either MXLEN (log 47). -/
def entryOut (e : StageEntry) (a : Word) : Word := e.out + (a - e.base)

/-- Whether a page lets the access do what it does, given the MXR that acts at this stage: HLVX needs execute permission
(43_hlv_hsv.md R135), MXR makes executable pages readable for a load (R62). -/
def permAllows (kind : AccessKind) (mxr : Bool) (q : PagePerm) : Bool :=
  match kind with
  | .read => q.r || (mxr && q.x)
  | .write => q.w
  | .execute => q.x
  | .executeAsRead => q.x

/-- Whether the level may touch the page: a U-level access only a user page, an S-level access a user page only by SUM and
never to fetch (R63; log 7). It is asked whatever the root register holds: that a stage which is switched off (MODE 0) checks its
entries' permissions and user bit as any other is a DESIGN CHOICE (log 42). -/
def userAllows (kind : AccessKind) (p : Priv) (sum : Bool) (q : PagePerm) : Bool :=
  match p with
  | .u => q.u
  | .s => !q.u || (sum && kind != .execute)
  | .m => true

/-- The MXR that acts at the HS stage and at the guest-physical stage: the HS-level bit (R62). -/
def mxrHs (s : State) : Bool := s.mstatus.mxr

/-- The MXR that acts at the VS stage: the HS-level bit or `vsstatus.MXR` (R62(a), (b)). -/
def mxrVs (s : State) : Bool := s.mstatus.mxr || s.vsstatus.mxr

/-- The SUM of a single-stage access: the HS-level bit (R63). -/
def sumHs (s : State) : Bool := s.mstatus.sum

/-- The SUM of a VS-level access: `vsstatus.SUM` in place of the HS-level bit (R58, R63). -/
def sumVs (s : State) : Bool := s.vsstatus.sum

/-- The implicit reads of a walk at physical addresses, that of the single stage and that of the guest-physical stage: the first
that stops, if any. Each reads one byte, and no walk writes. DESIGN CHOICE (log 7). -/
def physWalk (s : State) (va : Word) (kind : AccessKind) (md : Mode) : List Word → Option AccessStop
  | [] => none
  | pa :: rest =>
    match physical s pa va 1 .read md with
    | .ok _ => physWalk s va kind md rest
    | .error .device => some .device
    | .error (.fault _) => some (.fault (addrFault (accessFaultOf kind) va md))

/-- The guest-physical stage for an explicit access or a fetch (R68(iii)): its own walk, which reads physical memory (R51; log 7),
then the page. -/
def guestStage (s : State) (gpa va : Word) (n : Nat) (kind : AccessKind) (md : Mode) : Except AccessStop Word :=
  match s.gEntry gpa n with
  | none => .error (.fault (guestFault kind va gpa false md))
  | some e =>
    match physWalk s va kind md e.walk with
    | some stop => .error stop
    | none =>
      if permAllows kind (mxrHs s) e.perm then physical s (entryOut e gpa) va n kind md
      else .error (.fault (guestFault kind va gpa false md))

/-- One implicit read of a VS-stage page-table entry at the guest physical address `gpa`: it passes the guest-physical
stage as a read of one byte, on the page's own R bit (DESIGN CHOICE and PRESUMED, log 7); a fault reports `gpa` and is an implicit
VS-stage fault of the original access (R51, R68(v), 60_exceptions.md R164). -/
def implicitRead (s : State) (gpa va : Word) (kind : AccessKind) (md : Mode) : Except AccessStop Word :=
  match s.gEntry gpa 1 with
  | none => .error (.fault (guestFault kind va gpa true md))
  | some e =>
    match physWalk s va kind md e.walk with
    | some stop => .error stop
    | none =>
      if e.perm.r then
        match physical s (entryOut e gpa) va 1 .read md with
        | .ok pa => .ok pa
        | .error .device => .error .device
        | .error (.fault _) => .error (.fault (addrFault (accessFaultOf kind) va md))
      else .error (.fault (guestFault kind va gpa true md))

/-- The implicit reads of a VS-stage walk, in order: the first that stops, if any. -/
def vsWalk (s : State) (va : Word) (kind : AccessKind) (md : Mode) : List Word → Option AccessStop
  | [] => none
  | gpa :: rest =>
    match implicitRead s gpa va kind md with
    | .ok _ => vsWalk s va kind md rest
    | .error e => some e

/-- V = 0 below M-mode: HS-level translation and protection only, one stage (R54, R55, R68(ii)). -/
def oneStage (s : State) (va : Word) (n : Nat) (kind : AccessKind) (md : Mode) : Except AccessStop Word :=
  match s.hsEntry va n with
  | none => .error (.fault (addrFault (pageFaultOf kind) va md))
  | some e =>
    match physWalk s va kind md e.walk with
    | some stop => .error stop
    | none =>
      if permAllows kind (mxrHs s) e.perm && userAllows kind md.p (sumHs s) e.perm then
        physical s (entryOut e va) va n kind md
      else .error (.fault (addrFault (pageFaultOf kind) va md))

/-- V = 1: the VS stage, then the guest-physical stage (R57, R58, R68(iii)). -/
def twoStage (s : State) (va : Word) (n : Nat) (kind : AccessKind) (md : Mode) : Except AccessStop Word :=
  match s.vsEntry va n with
  | none => .error (.fault (addrFault (pageFaultOf kind) va md))
  | some e =>
    match vsWalk s va kind md e.walk with
    | some stop => .error stop
    | none =>
      if permAllows kind (mxrVs s) e.perm && userAllows kind md.p (sumVs s) e.perm then
        guestStage s (entryOut e va) va n kind md
      else .error (.fault (addrFault (pageFaultOf kind) va md))

/-- `Translate(addr, n, kind, mode, env)` (R68): the physical address of `n` bytes at `va`, or why there is none. -/
def translate (s : State) (va : Word) (n : Nat) (kind : AccessKind) (md : Mode) : Except AccessStop Word :=
  match md.p with
  | .m => physical s va va n kind md
  | .s | .u => if md.v then twoStage s va n kind md else oneStage s va n kind md

end Sys2Proof.Machine
end

