-- ==== Sys2Proof/Machine/Access.lean ====
section
/-! DEFINITION. The memory primitives `MemRead` and `MemWrite` (20_memory.md R65, R74) and the fetch of an instruction
(10_state.md R41, 20_memory.md R61, 60_exceptions.md R165). -/

namespace Sys2Proof.Machine

/-- Whether `misaligned_policy = trap` stops this access (R65, R74). -/
def misalignedTraps (s : State) (va : Word) (n : Width) : Bool := !aligned va n && s.cfg.misaligned == .trap

/-- The address of the portion at offset `k`, modulo 2^XLEN. The spec gives no meaning to an access whose bytes run past the end
of the address space: that it goes on at address 0 is a DESIGN CHOICE, of a data access by log 45 and of a fetch by log 44. -/
def portionAddr (s : State) (va : Word) (k : Nat) : Word := xlenCut s.cfg.mxlen (va + BitVec.ofNat 64 k)

/-- The physical address of byte `j` of a portion that starts at `pa`: 64 bits at either MXLEN (log 47). -/
def physByte (pa : Word) (j : Nat) : Nat := (pa + BitVec.ofNat 64 j).toNat

/-- The `len` bytes of a portion at offset `k` of an access, from the physical address `pa` on, by offset in the access. -/
def portionBytes (s : State) (pa : Word) (k len : Nat) : List (Nat × Byte) :=
  (List.range len).map fun j => (k + j, s.byteAt (physByte pa j))

/-- The bytes of an access, portion by portion: the first portion that stops ends it (R74). -/
def readPortions (s : State) (va : Word) (kind : AccessKind) (md : Mode) :
    List (Nat × Nat) → Except AccessStop (List (Nat × Byte))
  | [] => .ok []
  | (k, len) :: rest =>
    match translate s (portionAddr s va k) len kind md with
    | .error e => .error e
    | .ok pa =>
      match readPortions s va kind md rest with
      | .error e => .error e
      | .ok bs => .ok (portionBytes s pa k len ++ bs)

/-- `MemRead(addr, n, mode, kind)` (R74): the value, zero-extended. -/
def memRead (s : State) (va : Word) (n : Width) (md : Mode) (kind : AccessKind) : Except AccessStop Word :=
  if misalignedTraps s va n then .error (.fault (addrFault (misalignedOf kind) va md))
  else
    match readPortions s va kind md (portions va n (Config.splitOrder s.draws)) with
    | .error e => .error e
    | .ok bs => .ok (valueOfBytes (bigEndian md s) (widthBytes n) bs)

/-- The bytes of a portion stored, from the physical address `pa` on. -/
def storePortion (big : Bool) (n : Nat) (value : Word) (pa : Word) (k : Nat) : Nat → State → State
  | 0, s => s
  | j + 1, s => (storePortion big n value pa k j s).storeByte (physByte pa j) (byteOfValue big n value (k + j))

/-- The portions of a store in order. Where one stops, those before it stay written (R65). -/
def writePortions (va : Word) (n : Width) (value : Word) (md : Mode) :
    List (Nat × Nat) → State → State × Option AccessStop
  | [], s => (s, none)
  | (k, len) :: rest, s =>
    match translate s (portionAddr s va k) len .write md with
    | .error e => (s, some e)
    | .ok pa => writePortions va n value md rest (storePortion (bigEndian md s) (widthBytes n) value pa k len s)

/-- `MemWrite(addr, n, value, mode)` (R74): the state after it, and why it did not complete, if it did not. -/
def memWrite (s : State) (va : Word) (n : Width) (value : Word) (md : Mode) : State × Option AccessStop :=
  if misalignedTraps s va n then (s, some (.fault (addrFault (misalignedOf .write) va md)))
  else writePortions va n value md (portions va n (Config.splitOrder s.draws)) s

/-- The physical addresses that the portions of a store write, each translated with memory as the portions before it have left
it; none from the portion on that stops. -/
def portionTargets (va : Word) (n : Width) (value : Word) (md : Mode) : List (Nat × Nat) → State → List Nat
  | [], _ => []
  | (k, len) :: rest, s =>
    match translate s (portionAddr s va k) len .write md with
    | .error _ => []
    | .ok pa => (List.range len).map (physByte pa) ++
        portionTargets va n value md rest (storePortion (bigEndian md s) (widthBytes n) value pa k len s)

/-- The physical addresses that a store of `n` bytes at `va` writes. -/
def storeTargets (s : State) (va : Word) (n : Width) (value : Word) (md : Mode) : List Nat :=
  portionTargets va n value md (portions va n (Config.splitOrder s.draws)) s

/-- A split access draws its order; an aligned one draws nothing. -/
def drawOrder (va : Word) (n : Width) (s : State) : State := if aligned va n then s else s.bumpDraws

/-! ## Whole loads and stores -/

/-- A load: the register receives the extended value and the pc advances; an access that stops has no other effect
(R135 to R144). -/
def load (rd : RegIdx) (va : Word) (n : Width) (signed : Bool) (md : Mode) (kind : AccessKind) (s : State) : Result :=
  match memRead s va n md kind with
  | .ok value => .next ((drawOrder va n s).setX rd (extendLoad s.cfg.mxlen signed n value)).advance
  | .error e => stopResult e s

/-- A store: memory receives the low bytes of the value and the pc advances; of an access that stops, the portions before
stay written (R145 to R148, R65). -/
def store (va : Word) (n : Width) (value : Word) (md : Mode) (s : State) : Result :=
  match memWrite s va n value md with
  | (t, none) => .next (drawOrder va n t).advance
  | (t, some e) => stopResult e t

/-! ## Fetch -/

/-- What a fetch gives. -/
inductive Fetched where
  /-- A 32-bit word. -/
  | word (w : InstrWord)
  /-- An instruction of another length (R80): outside this spec. -/
  | otherLength
  /-- A portion that stops. -/
  | stop (e : AccessStop)
  /-- A byte that a store has written (R72; log 24). -/
  | storedByte
  deriving DecidableEq, Repr

/-- One parcel of `len` bytes at offset `k` of the pc: where it lies, or what the fetch ends in. What a fetch from the wrapped
address does is outside the spec (R41): that it is a fetch as at any other address is a DESIGN CHOICE (log 44). -/
def fetchParcel (s : State) (k len : Nat) : Except Fetched Word :=
  match translate s (portionAddr s s.pc k) len .execute (fetchMode s) with
  | .error e => .error (.stop e)
  | .ok pa =>
    if (List.range len).any fun j => s.stored.contains (physByte pa j) then .error .storedByte else .ok pa

/-- Whether the low byte of an instruction announces 32 bits: bits 1:0 = 11 and bits 4:2 ≠ 111 (R80). -/
def announces32 (b : Byte) : Bool := b.extractLsb' 0 2 == 3#2 && b.extractLsb' 2 3 != 7#3

/-- The fetch at the pc, always little-endian (R64). Where instructions have more than one length it goes by 2-byte parcels,
so that a fault concerns the portion that failed (60_exceptions.md R165). -/
def fetch (s : State) : Fetched :=
  if s.cfg.variableLength then
    match fetchParcel s 0 2 with
    | .error e => e
    | .ok pa =>
      let b0 := s.byteAt (physByte pa 0)
      if announces32 b0 then
        match fetchParcel s 2 2 with
        | .error e => e
        | .ok pb =>
          .word (wordOfBytes b0 (s.byteAt (physByte pa 1)) (s.byteAt (physByte pb 0)) (s.byteAt (physByte pb 1)))
      else .otherLength
  else
    match fetchParcel s 0 4 with
    | .error e => e
    | .ok pa =>
      let b0 := s.byteAt (physByte pa 0)
      if announces32 b0 then
        .word (wordOfBytes b0 (s.byteAt (physByte pa 1)) (s.byteAt (physByte pa 2)) (s.byteAt (physByte pa 3)))
      else .otherLength

end Sys2Proof.Machine
end

