-- ==== Sys2Proof/Machine/HypAccess.lean ====
section
/-! DEFINITION. The virtual-machine loads and stores HLV, HLVX, HSV (43_hlv_hsv.md R135 to R148). -/

namespace Sys2Proof.Machine

/-- `HypCheck` (R135): VirtualInstruction with V = 1, IllegalInstruction in U-mode without `hstatus.HU`. -/
def hypCheck (s : State) : Option Exc :=
  if s.v then some .virtualInstruction
  else if s.priv = .u ∧ s.hstatus.hu = false then some .illegalInstruction
  else none

/-- What the loads have in common (R135): a word that is reserved at this MXLEN raises IllegalInstruction before anything
else (30_encoding.md R87; log 31). -/
def hypLoad (i : Instr) (rd rs1 : RegIdx) (n : Width) (signed : Bool) (kind : AccessKind) (s : State) : Result :=
  if i.wellFormed s.cfg.mxlen then
    match hypCheck s with
    | some e => raiseInstr e (encode i) s
    | none => load rd (s.x rs1) n signed (hypMode s) kind s
  else raiseInstr .illegalInstruction (encode i) s

/-- What the stores have in common (R135). -/
def hypStore (i : Instr) (rs2 rs1 : RegIdx) (n : Width) (s : State) : Result :=
  if i.wellFormed s.cfg.mxlen then
    match hypCheck s with
    | some e => raiseInstr e (encode i) s
    | none => store (s.x rs1) n (s.x rs2) (hypMode s) s
  else raiseInstr .illegalInstruction (encode i) s

/-- HLV.B (R136). -/
def execHlvB (rd rs1 : RegIdx) (s : State) : Result := hypLoad (.hlvB rd rs1) rd rs1 .b true .read s

/-- HLV.BU (R137). -/
def execHlvBu (rd rs1 : RegIdx) (s : State) : Result := hypLoad (.hlvBu rd rs1) rd rs1 .b false .read s

/-- HLV.H (R138). -/
def execHlvH (rd rs1 : RegIdx) (s : State) : Result := hypLoad (.hlvH rd rs1) rd rs1 .h true .read s

/-- HLV.HU (R139). -/
def execHlvHu (rd rs1 : RegIdx) (s : State) : Result := hypLoad (.hlvHu rd rs1) rd rs1 .h false .read s

/-- HLVX.HU (R140): execute permission in place of read permission. -/
def execHlvxHu (rd rs1 : RegIdx) (s : State) : Result := hypLoad (.hlvxHu rd rs1) rd rs1 .h false .executeAsRead s

/-- HLV.W (R141). -/
def execHlvW (rd rs1 : RegIdx) (s : State) : Result := hypLoad (.hlvW rd rs1) rd rs1 .w true .read s

/-- HLVX.WU (R142): valid at both MXLEN. -/
def execHlvxWu (rd rs1 : RegIdx) (s : State) : Result := hypLoad (.hlvxWu rd rs1) rd rs1 .w false .executeAsRead s

/-- HLV.WU (R143): MXLEN=64 only. -/
def execHlvWu (rd rs1 : RegIdx) (s : State) : Result := hypLoad (.hlvWu rd rs1) rd rs1 .w false .read s

/-- HLV.D (R144): MXLEN=64 only. -/
def execHlvD (rd rs1 : RegIdx) (s : State) : Result := hypLoad (.hlvD rd rs1) rd rs1 .d false .read s

/-- HSV.B (R145). -/
def execHsvB (rs2 rs1 : RegIdx) (s : State) : Result := hypStore (.hsvB rs2 rs1) rs2 rs1 .b s

/-- HSV.H (R146). -/
def execHsvH (rs2 rs1 : RegIdx) (s : State) : Result := hypStore (.hsvH rs2 rs1) rs2 rs1 .h s

/-- HSV.W (R147). -/
def execHsvW (rs2 rs1 : RegIdx) (s : State) : Result := hypStore (.hsvW rs2 rs1) rs2 rs1 .w s

/-- HSV.D (R148): MXLEN=64 only. -/
def execHsvD (rs2 rs1 : RegIdx) (s : State) : Result := hypStore (.hsvD rs2 rs1) rs2 rs1 .d s

end Sys2Proof.Machine
end

