-- ==== Sys2Proof/Machine/Run.lean ====
section
/-! DEFINITION. What the hart does at a step, and what the environment does (60_exceptions.md R160, R173; 00_scope.md
section 6). -/

namespace Sys2Proof.Machine

/-! ## Instructions outside the spec that TSR, TVM and TW guard (60_exceptions.md R178 to R180; encodings: the family's,
log 25) -/

/-- SRET. -/
def sretWord : InstrWord := 0x10200073#32

/-- WFI. -/
def wfiWord : InstrWord := 0x10500073#32

/-- SFENCE.VMA and SINVAL.VMA, with any operands. -/
def isSfence (w : InstrWord) : Bool :=
  fOpcode w == opSystem && fFunct3 w == 0#3 && fRd w == 0#5 && (fFunct7 w == 0b0001001#7 || fFunct7 w == 0b0001011#7)

/-- What guards an instruction outside the spec: SRET raises IllegalInstruction in HS-mode under TSR and VirtualInstruction
in VS-mode under `hstatus.VTSR` (R178); SFENCE.VMA and SINVAL.VMA raise IllegalInstruction in HS-mode under TVM (R179); WFI
raises IllegalInstruction below M-mode under TW when its bounded time passes, a draw (R180). `hstatus.VTVM`, which R179 calls
the VS-mode counterpart of TVM and gives no effect, guards nothing here, nor does `hstatus.VTW`. DESIGN CHOICE (log 25). -/
def outsideGuard (w : InstrWord) (s : State) : Option Exc :=
  if w = sretWord then
    if tsrActs s.mstatus s.mode then some .illegalInstruction
    else if inVs s.mode && s.hstatus.vtsr then some .virtualInstruction
    else none
  else if w = wfiWord then
    if twActs s.mstatus s.mode && Config.wfiTimesOut s.draws then some .illegalInstruction else none
  else if isSfence w && tvmActs s.mstatus s.mode then some .illegalInstruction
  else none

/-- A word outside the spec: the exception that guards it, or no meaning (00_scope.md section 4.3; log 25). -/
def outsideWord (w : InstrWord) (s : State) : Result :=
  match outsideGuard w s with
  | some e => raiseInstr e w s
  | none => .refused .outsideInstruction

/-! ## The hart -/

/-- The word at the pc: an instruction is executed, a reserved word raises IllegalInstruction (30_encoding.md R87). -/
def runWord (w : InstrWord) (s : State) : Result :=
  match decode w with
  | .instr i => exec i s
  | .reserved => raiseInstr .illegalInstruction w s
  | .outside => outsideWord w s

/-- Fetch and execute the instruction at the pc. -/
def runInstr (s : State) : Result :=
  match fetch s with
  | .word w => runWord w s
  | .otherLength => .refused .outsideInstruction
  | .stop e => stopResult e s
  | .storedByte => .fault .fetchOfStoredByte

/-- Interrupts are examined before the instruction at the pc executes (R173(a)); `run` is that instruction. -/
def hartStep (run : State → Result) (s : State) : Result :=
  match pendingInterrupt s with
  | some code => takeTrap (interruptTrap code s) s
  | none => run s

/-! ## The environment -/

/-- The trap that the environment's description makes, at the hart's pc: an interrupt and an environment call have 0 in
`mtval`, and only an address can be a guest virtual address (R160, R162, R169; log 8). -/
def envTrap (t : EnvTrap) (s : State) : Trap where
  isInterrupt := t.isInterrupt
  code := t.code
  epc := s.pc
  tval := if t.isInterrupt || [8, 9, 10, 11].contains t.code then 0#64 else t.tval
  tvalIsGva := !t.isInterrupt && gvaPossible t.code && t.tvalIsGva
  gpa := t.gpa
  implicitVsStage := !t.isInterrupt && isGuestPageFault t.code && t.implicitVsStage

/-- The explicit access of a base-ISA load or store, in the mode that MPRV selects (20_memory.md R52; log 9). The instruction that
makes it is not fetched, so no fetch fault comes before it: a DESIGN CHOICE (log 43). So is that an access of 8 bytes is performed
at MXLEN=32 too, where R66 gives none (log 46). -/
def ordinaryAccess (a : OrdinaryAccess) (s : State) : Result :=
  match effMode .ordinary s with
  | none => .refused .reservedMpp
  | some md =>
    let va := xlenCut s.cfg.mxlen a.addr
    if a.isStore then store va a.width a.value md s else load a.rd va a.width a.signed md .read s

/-- Interrupt `i` can be taken below M-mode: pending, enabled and delegated, with the hart below M-mode (R171, R172). When it is
taken there is not in the spec, so the environment says so (log 10). -/
def interruptBelow (s : State) (i : Nat) : Bool :=
  s.mipBits.getLsbD i && s.mieBits.getLsbD i && s.midelegBits.getLsbD i && s.priv != .m

/-- What the environment's trap record does where no interrupt is taken into M-mode. An exception is taken. An interrupt can
only be one for a mode below M: where none can be taken, the record says nothing and the hart executes (log 10). The instruction
that raises the exception is not fetched, so no fetch fault, which R173(c) ranks first, comes before it: a DESIGN CHOICE
(log 43). -/
def envRecord (t : EnvTrap) (s : State) : Result :=
  if t.isInterrupt && !interruptBelow s t.code then runInstr s else takeTrap (envTrap t s) s

/-- The pending bits driven by the environment (10_state.md R43). -/
def setPending (bits : BitVec 16) (s : State) : State := { s with pend := bits }

/-- Translate answering otherwise (20_memory.md R68). -/
def setTranslation (t : Translation) (s : State) : State := { s with trans := t }

/-- A step at which the environment's event is `e`, already taken from the list. Whatever the hart does, an interrupt for M-mode
comes before it (R173(a), (b); log 37). -/
def envStep (e : EnvEvent) (s : State) : Result :=
  match e with
  | .pass => hartStep runInstr s
  | .pending bits => .next (setPending bits s)
  | .trap t => hartStep (envRecord t) s
  | .access a => hartStep (ordinaryAccess a) s
  | .translation t => .next (setTranslation t s)

/-! ## Placing a program -/

/-- The physical address that the fetch at the pc takes byte `k` of a word from. -/
def fetchTarget (s : State) (k : Nat) : Nat :=
  let first := if s.cfg.variableLength then k / 2 * 2 else 0
  let len := if s.cfg.variableLength then 2 else 4
  match translate s (portionAddr s s.pc first) len .execute (fetchMode s) with
  | .ok pa => physByte pa (k - first)
  | .error _ => (portionAddr s s.pc k).toNat

/-- A byte of a program put into memory from outside: it is no store of the hart's (log 24, 32). -/
def placeByte (a : Nat) (y : Byte) (s : State) : State :=
  { s with mem := Memory.write s.mem a y, stored := s.stored.filter fun b => b != a }

/-- The four bytes of a word put where the fetch at the pc takes them from. -/
def placeWord (n : Nat) (s : State) : State :=
  placeByte (fetchTarget s 3) (byteOfNat n 3) (placeByte (fetchTarget s 2) (byteOfNat n 2)
    (placeByte (fetchTarget s 1) (byteOfNat n 1) (placeByte (fetchTarget s 0) (byteOfNat n 0) s)))

/-- No environment event, and no interrupt, before the next instruction. -/
def clearEvents (s : State) : State :=
  match pendingInterrupt s with
  | some _ => { s with env := [], enab := 0#16 }
  | none => { s with env := [] }

end Sys2Proof.Machine
end

