-- ==== Sys2Proof/Machine/Step.lean ====
section
/-! DEFINITION. One step, and placing a word where the next step fetches it. -/

namespace Sys2Proof.Machine

/-- One step: the environment's next event if there is one, and otherwise the hart (00_scope.md section 6; log 8). -/
def step (s : State) : Host.Outcome State Fault Refusal :=
  match s.env with
  | [] => hartStep runInstr s
  | e :: rest => envStep e { s with env := rest }

/-- `s` with the word of the low `nbits` bits of `w` stored where `step` fetches its next instruction (log 32). -/
def State.withFetchWord (s : State) (nbits w : Nat) : State := clearEvents (placeWord (w % 2 ^ nbits) s)

end Sys2Proof.Machine
end

