-- ==== Sys2Proof/Safety.lean ====
section
/-! DEFINITION. What holds of the machine in every state that a run reaches: the invariants that the statements use. -/

namespace Sys2Proof.Machine

/-- The hart is in one of the five modes: `priv` = 3 implies V = 0 (10_state.md R12, R13). -/
def ModeLegal (s : State) : Prop := s.priv = .m → s.v = false

/-- MPP never holds 2 (10_state.md R17, 20_memory.md R59). -/
def MppLegal (s : State) : Prop := s.mstatus.mpp ≠ 2#2

/-- The pc is an instruction address of XLEN bits: 2-byte aligned, or 4-byte aligned when every instruction has four bytes
(10_state.md R41). -/
def PcAligned (s : State) : Prop := xlenCut s.cfg.mxlen (instrAddr s.cfg s.pc) = s.pc

/-- `mtval2` and `mtinst` hold legal values (00_scope.md R5, 10_state.md R35, R37). -/
def WarlLegal (s : State) : Prop :=
  legalIn s.cfg.mxlen s.cfg.mtval2Legal s.mtval2 = true ∧ legalIn s.cfg.mxlen s.cfg.mtinstLegal s.mtinst = true

/-- Memory is in canonical form. -/
def MemCanonical (s : State) : Prop := s.mem.wf = true

/-- The byte-order fields are 0, so every explicit access is little-endian (20_memory.md R64, 92_eei_decisions.md D6). -/
def LittleEndian (s : State) : Prop := ∀ md : Mode, bigEndian md s = false

/-- SXL, UXL and VSXL hold MXL, so XLEN equals MXLEN in every mode (92_eei_decisions.md D4; log 16). -/
def XlenFields (s : State) : Prop :=
  s.mstatus.sxl = xlField s.cfg.mxlen ∧ s.mstatus.uxl = xlField s.cfg.mxlen ∧ s.vsstatus.uxl = xlField s.cfg.mxlen ∧
    s.hstatus.vsxl = xlField s.cfg.mxlen

/-- The invariant of the machine. -/
structure Inv (s : State) : Prop where
  modeLegal    : ModeLegal s
  mppLegal     : MppLegal s
  pcAligned    : PcAligned s
  warlLegal    : WarlLegal s
  memCanonical : MemCanonical s
  littleEndian : LittleEndian s
  xlenFields   : XlenFields s

/-! ## Frames: what two states have in common -/

/-- The parameters, the mode, every CSR, translation and the environment's coming events are the same; the pc, the general
registers, memory, the record of stores and the count of draws may differ. -/
structure SameSpecials (s t : State) : Prop where
  cfg      : t.cfg = s.cfg
  priv     : t.priv = s.priv
  v        : t.v = s.v
  mstatus  : t.mstatus = s.mstatus
  mideleg  : t.mideleg = s.mideleg
  pend     : t.pend = s.pend
  enab     : t.enab = s.enab
  mtval    : t.mtval = s.mtval
  mtval2   : t.mtval2 = s.mtval2
  mtinst   : t.mtinst = s.mtinst
  mepc     : t.mepc = s.mepc
  mcause   : t.mcause = s.mcause
  mtvec    : t.mtvec = s.mtvec
  mscratch : t.mscratch = s.mscratch
  hstatus  : t.hstatus = s.hstatus
  vsstatus : t.vsstatus = s.vsstatus
  hgatp    : t.hgatp = s.hgatp
  vsatp    : t.vsatp = s.vsatp
  trans    : t.trans = s.trans
  env      : t.env = s.env

/-- Every general register reads the same, but for `rd`. -/
def SameRegsExcept (rd : RegIdx) (s t : State) : Prop := ∀ i : RegIdx, i ≠ rd → t.x i = s.x i

/-- Every general register reads the same. -/
def SameRegs (s t : State) : Prop := ∀ i : RegIdx, t.x i = s.x i

/-- Every byte of memory reads the same. -/
def SameMemory (s t : State) : Prop := ∀ a : Nat, t.byteAt a = s.byteAt a

/-- The pc has moved past a four-byte instruction (10_state.md R41). -/
def PcAdvanced (s t : State) : Prop := t.pc = xlenCut s.cfg.mxlen (s.pc + 4#64)

/-- HLV, HLVX and HSV may execute: not with V = 1, and in U-mode only with `hstatus.HU` (43_hlv_hsv.md R135). -/
def HypAllowed (s : State) : Prop := s.v = false ∧ (s.priv = .u → s.hstatus.hu = true)

/-- What a CSR instruction leaves whose check gives the register `r`: `rd` holds the old value, but x0 reads 0 whatever is
written to it (10_state.md R40), the register the new one where it is written, and nothing else has changed (40_csr_access.md
R101 to R106). -/
structure CsrEffect (rd : RegIdx) (writes : Bool) (new : Word) (r : Csr) (s t : State) : Prop where
  dest     : rd ≠ 0#5 → t.x rd = xlenCut s.cfg.mxlen (csrRead r s)
  zero     : t.x 0#5 = 0#64
  regs     : SameRegsExcept rd s t
  specials : SameSpecials (if writes then csrWrite r new s else s) t
  memory   : SameMemory s t
  pc       : PcAdvanced s t

/-- What a trap into M-mode leaves, apart from MPV, MPP, GVA, `mtval2` and `mtinst` (60_exceptions.md R167, R168): `mcause` holds
the code, with the top bit set for an interrupt. -/
structure EntryEffect (tr : Trap) (s t : State) : Prop where
  priv     : t.priv = .m
  v        : t.v = false
  mepc     : t.mepc = xlenCut s.cfg.mxlen (instrAddr s.cfg tr.epc)
  mcause   : t.mcause = xlenCut s.cfg.mxlen
    (if tr.isInterrupt then (1#64 <<< (mxlenBits s.cfg.mxlen - 1)) ||| BitVec.ofNat 64 tr.code else BitVec.ofNat 64 tr.code)
  mtval    : t.mtval = xlenCut s.cfg.mxlen tr.tval
  mpie     : t.mstatus.mpie = s.mstatus.mie
  mie      : t.mstatus.mie = false
  pc       : t.pc = trapPc s.cfg.mxlen s.mtvec tr
  regs     : SameRegs s t
  memory   : SameMemory s t

/-! ## The forms of an instruction -/

/-- The CSR number that a CSR instruction names, and whether the instruction writes the CSR: CSRRW and CSRRWI always, the
others unless the index `rs1` or the immediate is 0 (40_csr_access.md R101 to R106). -/
def csrOf : Instr → Option (CsrNum × Bool)
  | .csrrw _ n _ => some (n, true)
  | .csrrs _ n rs1 => some (n, rs1 != 0#5)
  | .csrrc _ n rs1 => some (n, rs1 != 0#5)
  | .csrrwi _ n _ => some (n, true)
  | .csrrsi _ n u => some (n, u != 0#5)
  | .csrrci _ n u => some (n, u != 0#5)
  | .mret | .hfenceVvma _ _ | .hfenceGvma _ _ => none
  | .hlvB _ _ | .hlvBu _ _ | .hlvH _ _ | .hlvHu _ _ | .hlvxHu _ _ | .hlvW _ _ | .hlvxWu _ _ | .hlvWu _ _ | .hlvD _ _ => none
  | .hsvB _ _ | .hsvH _ _ | .hsvW _ _ | .hsvD _ _ => none

/-- The address register, the width and the access kind of an HLV, HLVX or HSV (43_hlv_hsv.md R135, 20_memory.md R66). -/
def hypOf : Instr → Option (RegIdx × Width × AccessKind)
  | .csrrw _ _ _ | .csrrs _ _ _ | .csrrc _ _ _ | .csrrwi _ _ _ | .csrrsi _ _ _ | .csrrci _ _ _ => none
  | .mret | .hfenceVvma _ _ | .hfenceGvma _ _ => none
  | .hlvB _ rs1 => some (rs1, .b, .read)
  | .hlvBu _ rs1 => some (rs1, .b, .read)
  | .hlvH _ rs1 => some (rs1, .h, .read)
  | .hlvHu _ rs1 => some (rs1, .h, .read)
  | .hlvxHu _ rs1 => some (rs1, .h, .executeAsRead)
  | .hlvW _ rs1 => some (rs1, .w, .read)
  | .hlvxWu _ rs1 => some (rs1, .w, .executeAsRead)
  | .hlvWu _ rs1 => some (rs1, .w, .read)
  | .hlvD _ rs1 => some (rs1, .d, .read)
  | .hsvB _ rs1 => some (rs1, .b, .write)
  | .hsvH _ rs1 => some (rs1, .h, .write)
  | .hsvW _ rs1 => some (rs1, .w, .write)
  | .hsvD _ rs1 => some (rs1, .d, .write)

/-- The register that an HSV stores (43_hlv_hsv.md R145 to R148). -/
def storeSource : Instr → Option RegIdx
  | .csrrw _ _ _ | .csrrs _ _ _ | .csrrc _ _ _ | .csrrwi _ _ _ | .csrrsi _ _ _ | .csrrci _ _ _ => none
  | .mret | .hfenceVvma _ _ | .hfenceGvma _ _ => none
  | .hlvB _ _ | .hlvBu _ _ | .hlvH _ _ | .hlvHu _ _ | .hlvxHu _ _ | .hlvW _ _ | .hlvxWu _ _ | .hlvWu _ _ | .hlvD _ _ => none
  | .hsvB rs2 _ => some rs2
  | .hsvH rs2 _ => some rs2
  | .hsvW rs2 _ => some rs2
  | .hsvD rs2 _ => some rs2

/-! ## Where the bytes of an access lie, and what an access leaves -/

/-- The physical addresses `f 0`, `f 1`, … of the bytes of an access that `Translate` lets through: an aligned access is one
portion, a misaligned one under `split` is its bytes, each translated on its own (20_memory.md R65, R74), at addresses that are
taken modulo 2^XLEN (log 45). -/
def BytesAt (s : State) (va : Word) (n : Width) (kind : AccessKind) (md : Mode) (f : Nat → Nat) : Prop :=
  (va.toNat % widthBytes n = 0 ∧
    ∃ pa, translate s va (widthBytes n) kind md = .ok pa ∧ ∀ k < widthBytes n, f k = physByte pa k) ∨
  (va.toNat % widthBytes n ≠ 0 ∧ s.cfg.misaligned = .split ∧
    ∀ k < widthBytes n, ∃ pa, translate s (xlenCut s.cfg.mxlen (va + BitVec.ofNat 64 k)) 1 kind md = .ok pa ∧
      f k = pa.toNat)

/-- No two of the first `n` bytes of an access lie at one physical address. -/
def Distinct (f : Nat → Nat) (n : Nat) : Prop := ∀ j k, j < n → k < n → f j = f k → j = k

/-- The bytes of an access are not among the page-table bytes that translation depends on, or the access is one portion: storing
one byte then leaves the translation of the next as it was. -/
def TablesApart (s : State) (va : Word) (n : Width) (f : Nat → Nat) : Prop :=
  va.toNat % widthBytes n = 0 ∨ ∀ k < widthBytes n, f k ∉ s.trans.tableBytes

/-- What a load leaves: `rd` holds the value, but x0 reads 0 whatever is written to it (10_state.md R40), and nothing else has
changed (43_hlv_hsv.md R136 to R144). -/
structure LoadEffect (rd : RegIdx) (value : Word) (s t : State) : Prop where
  dest     : rd ≠ 0#5 → t.x rd = xlenCut s.cfg.mxlen value
  zero     : t.x 0#5 = 0#64
  regs     : SameRegsExcept rd s t
  specials : SameSpecials s t
  memory   : SameMemory s t
  pc       : PcAdvanced s t

/-- What a store of `n` bytes leaves at the physical addresses `f 0`, `f 1`, …: the bytes of the value, the low one first, these
addresses recorded as stored to (20_memory.md R72; log 24), and nothing else has changed (43_hlv_hsv.md R145 to R148). -/
structure StoreEffect (f : Nat → Nat) (n : Nat) (value : Word) (s t : State) : Prop where
  bytes    : ∀ k < n, t.byteAt (f k) = value.extractLsb' (8 * k) 8
  others   : ∀ a : Nat, (∀ k < n, a ≠ f k) → t.byteAt a = s.byteAt a
  stored   : ∀ a : Nat, a ∈ t.stored ↔ a ∈ s.stored ∨ ∃ k < n, a = f k
  regs     : SameRegs s t
  specials : SameSpecials s t
  pc       : PcAdvanced s t

/-- What a store that stops in the middle has left before its trap: of the bytes `f k` those with `k` in `done` are written, and
nothing else has changed (20_memory.md R65). -/
structure PartialStore (f : Nat → Nat) (done : List Nat) (value : Word) (s u : State) : Prop where
  bytes    : ∀ k ∈ done, u.byteAt (f k) = value.extractLsb' (8 * k) 8
  others   : ∀ a : Nat, (∀ k ∈ done, a ≠ f k) → u.byteAt a = s.byteAt a
  regs     : SameRegs s u
  specials : SameSpecials s u
  pc       : u.pc = s.pc

/-- What raising an exception leaves, besides what every entry leaves: the mode before it in MPV and MPP, and the frame. -/
structure RaiseEffect (tr : Trap) (s t : State) : Prop where
  entry : EntryEffect tr s t
  mpv   : t.mstatus.mpv = s.v
  mpp   : privOfBits t.mstatus.mpp = some s.priv
  gva   : t.mstatus.gva = gvaOf s.cfg tr

/-- What a fault about the address `va` leaves, raised by the instruction at the pc: the code, the address in `mtval`, in GVA
whether it is a guest's, and in `mtval2` the guest physical address shifted right by 2, where there is one, or 0
(60_exceptions.md R162, R163, R165). -/
structure FaultEffect (tr : Trap) (code : Nat) (va : Word) (isGva : Bool) (gpa : Option Word) (s t : State) : Prop where
  raised    : RaiseEffect tr s t
  exception : tr.isInterrupt = false
  code      : tr.code = code
  epc       : tr.epc = s.pc
  mtval     : t.mtval = va
  gva       : s.cfg.gvaRule = .guestVa → t.mstatus.gva = isGva
  mtval2    : t.mtval2 = 0#64 ∨ ∃ g, gpa = some g ∧ t.mtval2 = g >>> 2

/-! ## Split accesses of which some bytes fault (20_memory.md R65) -/

/-- A misaligned access under `split`: each byte `k` is let through, to the physical address `f k`, or faults with a fault that
goes to M-mode, and some byte faults; of a store the bytes lie at different addresses, none of them a page-table byte. The address of
each byte is taken modulo 2^XLEN (log 45). -/
structure BytesFault (s : State) (va : Word) (n : Width) (kind : AccessKind) (md : Mode) (f : Nat → Nat) : Prop where
  misaligned : va.toNat % widthBytes n ≠ 0
  split      : s.cfg.misaligned = .split
  each       : ∀ k < widthBytes n,
    (∃ pa, translate s (xlenCut s.cfg.mxlen (va + BitVec.ofNat 64 k)) 1 kind md = .ok pa ∧ f k = pa.toNat) ∨
    ∃ e, translate s (xlenCut s.cfg.mxlen (va + BitVec.ofNat 64 k)) 1 kind md = .error (.fault e) ∧
      (excCode e.exc ∉ s.cfg.medeleg ∨ s.priv = .m)
  faulting   : ∃ k < widthBytes n, ∃ e,
    translate s (xlenCut s.cfg.mxlen (va + BitVec.ofNat 64 k)) 1 kind md = .error (.fault e)
  apart      : kind = .write → Distinct f (widthBytes n) ∧ TablesApart s va n f

/-- What such an access leaves: the trap of one of the bytes that fault, about that byte's address; nothing is loaded, and of a
store some of the bytes that are let through are written and stay written. -/
def SplitFaultEffect (va : Word) (n : Width) (kind : AccessKind) (md : Mode) (f : Nat → Nat) (value : Word) (s t : State) :
    Prop :=
  ∃ u tr k e done, k < widthBytes n ∧
    translate s (xlenCut s.cfg.mxlen (va + BitVec.ofNat 64 k)) 1 kind md = .error (.fault e) ∧
    (∀ j ∈ done, j < widthBytes n ∧
      ∃ pa, translate s (xlenCut s.cfg.mxlen (va + BitVec.ofNat 64 j)) 1 kind md = .ok pa) ∧
    (kind ≠ .write → done = []) ∧ PartialStore f done value s u ∧
    FaultEffect tr (excCode e.exc) (xlenCut s.cfg.mxlen (va + BitVec.ofNat 64 k)) md.v e.gpa u t

end Sys2Proof.Machine
end

