-- ==== Sys2Proof/Certificates/Slice0/Obligations.lean ====
section
/-! DEFINITION. The statements. Each docstring names the rule of spec/ that it formalises. -/

open Sys2Proof Sys2Proof.Machine

/-! ## Encoding -/

/-- Every word that 40_csr_access.md R101 to R106, 41_mret.md R120, 42_hfence.md R125, R126 and 43_hlv_hsv.md R136 to R148 write
out beside an instruction decodes to that instruction. -/
def Obligations.DecodeReadsTheWorkedExamples : Prop :=
  decode 0x303013F3#32 = .instr (.csrrw 7#5 0x303#12 0#5) ∧ decode 0x30302473#32 = .instr (.csrrs 8#5 0x303#12 0#5) ∧
  decode 0x30033073#32 = .instr (.csrrc 0#5 0x300#12 6#5) ∧ decode 0x34A05073#32 = .instr (.csrrwi 0#5 0x34A#12 0#5) ∧
  decode 0x34426073#32 = .instr (.csrrsi 0#5 0x344#12 4#5) ∧ decode 0x34427073#32 = .instr (.csrrci 0#5 0x344#12 4#5) ∧
  decode 0x30200073#32 = .instr .mret ∧ decode 0x22000073#32 = .instr (.hfenceVvma 0#5 0#5) ∧
  decode 0x62000073#32 = .instr (.hfenceGvma 0#5 0#5) ∧
  decode 0x6005C573#32 = .instr (.hlvB 10#5 11#5) ∧ decode 0x6015C573#32 = .instr (.hlvBu 10#5 11#5) ∧
  decode 0x6405C573#32 = .instr (.hlvH 10#5 11#5) ∧ decode 0x6415C573#32 = .instr (.hlvHu 10#5 11#5) ∧
  decode 0x6435C6F3#32 = .instr (.hlvxHu 13#5 11#5) ∧ decode 0x6805C573#32 = .instr (.hlvW 10#5 11#5) ∧
  decode 0x6835C573#32 = .instr (.hlvxWu 10#5 11#5) ∧ decode 0x6815C573#32 = .instr (.hlvWu 10#5 11#5) ∧
  decode 0x6C05C573#32 = .instr (.hlvD 10#5 11#5) ∧ decode 0x62C5C073#32 = .instr (.hsvB 12#5 11#5) ∧
  decode 0x66C5C073#32 = .instr (.hsvH 12#5 11#5) ∧ decode 0x6AC5C073#32 = .instr (.hsvW 12#5 11#5) ∧
  decode 0x6EC5C073#32 = .instr (.hsvD 12#5 11#5)

/-- Decoding the word of an instruction gives it back, with every operand at every value (30_encoding.md R84, R85). -/
def Obligations.DecodeOfEncodeIsTheInstruction : Prop :=
  ∀ i : Instr, decode (encode i) = .instr i

/-- A word that decodes to an instruction is that instruction's word: no bit of it is ignored (30_encoding.md R85). -/
def Obligations.EncodeOfDecodeIsTheWord : Prop :=
  ∀ (w : InstrWord) (i : Instr), decode w = .instr i → encode i = w

/-- 30_encoding.md R85: a word is the instruction iff `w & mask = match`, for each of the 22 rows. -/
def Obligations.DecodeFollowsMatchAndMask : Prop :=
  ∀ w : InstrWord,
    (w &&& 0x0000707F#32 = 0x00001073#32 ↔ ∃ rd n rs1, decode w = .instr (.csrrw rd n rs1)) ∧
    (w &&& 0x0000707F#32 = 0x00002073#32 ↔ ∃ rd n rs1, decode w = .instr (.csrrs rd n rs1)) ∧
    (w &&& 0x0000707F#32 = 0x00003073#32 ↔ ∃ rd n rs1, decode w = .instr (.csrrc rd n rs1)) ∧
    (w &&& 0x0000707F#32 = 0x00005073#32 ↔ ∃ rd n u, decode w = .instr (.csrrwi rd n u)) ∧
    (w &&& 0x0000707F#32 = 0x00006073#32 ↔ ∃ rd n u, decode w = .instr (.csrrsi rd n u)) ∧
    (w &&& 0x0000707F#32 = 0x00007073#32 ↔ ∃ rd n u, decode w = .instr (.csrrci rd n u)) ∧
    (w &&& 0xFFFFFFFF#32 = 0x30200073#32 ↔ decode w = .instr .mret) ∧
    (w &&& 0xFE007FFF#32 = 0x22000073#32 ↔ ∃ rs1 rs2, decode w = .instr (.hfenceVvma rs1 rs2)) ∧
    (w &&& 0xFE007FFF#32 = 0x62000073#32 ↔ ∃ rs1 rs2, decode w = .instr (.hfenceGvma rs1 rs2)) ∧
    (w &&& 0xFFF0707F#32 = 0x60004073#32 ↔ ∃ rd rs1, decode w = .instr (.hlvB rd rs1)) ∧
    (w &&& 0xFFF0707F#32 = 0x60104073#32 ↔ ∃ rd rs1, decode w = .instr (.hlvBu rd rs1)) ∧
    (w &&& 0xFFF0707F#32 = 0x64004073#32 ↔ ∃ rd rs1, decode w = .instr (.hlvH rd rs1)) ∧
    (w &&& 0xFFF0707F#32 = 0x64104073#32 ↔ ∃ rd rs1, decode w = .instr (.hlvHu rd rs1)) ∧
    (w &&& 0xFFF0707F#32 = 0x64304073#32 ↔ ∃ rd rs1, decode w = .instr (.hlvxHu rd rs1)) ∧
    (w &&& 0xFFF0707F#32 = 0x68004073#32 ↔ ∃ rd rs1, decode w = .instr (.hlvW rd rs1)) ∧
    (w &&& 0xFFF0707F#32 = 0x68304073#32 ↔ ∃ rd rs1, decode w = .instr (.hlvxWu rd rs1)) ∧
    (w &&& 0xFFF0707F#32 = 0x68104073#32 ↔ ∃ rd rs1, decode w = .instr (.hlvWu rd rs1)) ∧
    (w &&& 0xFFF0707F#32 = 0x6C004073#32 ↔ ∃ rd rs1, decode w = .instr (.hlvD rd rs1)) ∧
    (w &&& 0xFE007FFF#32 = 0x62004073#32 ↔ ∃ rs2 rs1, decode w = .instr (.hsvB rs2 rs1)) ∧
    (w &&& 0xFE007FFF#32 = 0x66004073#32 ↔ ∃ rs2 rs1, decode w = .instr (.hsvH rs2 rs1)) ∧
    (w &&& 0xFE007FFF#32 = 0x6A004073#32 ↔ ∃ rs2 rs1, decode w = .instr (.hsvW rs2 rs1)) ∧
    (w &&& 0xFE007FFF#32 = 0x6E004073#32 ↔ ∃ rs2 rs1, decode w = .instr (.hsvD rs2 rs1))

/-- The reserved words of 30_encoding.md R87(b), (c), (d), and no others: with `funct3` = 100 what no row lists; HFENCE with
`rd` ≠ 0; `funct7` = 0011000, `rs2` = 00010 with an operand field that is not 0. A step that fetches one raises
IllegalInstruction. -/
def Obligations.ReservedWordsRaiseIllegalInstruction : Prop :=
  (∀ w : InstrWord, decode w = .reserved ↔
    fOpcode w = 0b1110011#7 ∧
      ((fFunct3 w = 0b100#3 ∧ (¬ ∃ i, decode w = .instr i)) ∨
       (fFunct3 w = 0b000#3 ∧ (fFunct7 w = 0b0010001#7 ∨ fFunct7 w = 0b0110001#7) ∧ fRd w ≠ 0#5) ∨
       (fFunct3 w = 0b000#3 ∧ fFunct7 w = 0b0011000#7 ∧ fRs2 w = 0b00010#5 ∧ (fRs1 w ≠ 0#5 ∨ fRd w ≠ 0#5)))) ∧
  (∀ (s : State) (w : InstrWord), s.env = [] → pendingInterrupt s = none → fetch s = .word w → decode w = .reserved →
    step s = raiseInstr .illegalInstruction w s)

/-! ## Reset and invariants -/

/-- What the spec gives for reset, in every implementation (10_state.md R44, 70_reset_and_hazards.md R200): M-mode, V = 0,
MIE, MPRV and MBE 0, pc = RESET_PC, and the fixed bits of `mideleg`. SXL, UXL and VSXL equal MXL (92_eei_decisions.md D4), which is
2 for 64 bits and 1 for 32 in the family (log 16). -/
def Obligations.ResetIsInMachineMode : Prop :=
  (∀ c : Config, (State.resetOf c).cfg = c ∧ (State.resetOf c).priv = .m ∧ (State.resetOf c).v = false ∧
    (State.resetOf c).pc = c.resetPc ∧ (State.resetOf c).mstatus.mie = false ∧ (State.resetOf c).mstatus.mprv = false ∧
    (State.resetOf c).mstatus.mbe = false ∧
    (∀ i : Nat, (i = 10 ∨ i = 6 ∨ i = 2 ∨ (i = 12 ∧ c.geilen ≠ 0)) →
      (csrRead .mideleg (State.resetOf c)).getLsbD i = true) ∧
    (∀ q ∈ [(State.resetOf c).mstatus.sxl, (State.resetOf c).mstatus.uxl, (State.resetOf c).hstatus.vsxl,
        (State.resetOf c).vsstatus.uxl],
      (c.mxlen = .x64 → q = 2#2) ∧ (c.mxlen = .x32 → q = 1#2))) ∧
  State.reset = State.resetOf Config.atReset

/-- The reset state meets the invariant that every step keeps. -/
def Obligations.ResetMeetsTheInvariant : Prop := Inv State.reset

/-- Every step keeps the invariant: `priv` = 3 implies V = 0 (10_state.md R13), MPP is not 2 (R17), the pc is an instruction
address (R41), `mtval2` and `mtinst` are legal (R35, R37), memory is canonical, every access is little-endian (R64), and SXL,
UXL and VSXL equal MXL (92_eei_decisions.md D4; that no write reaches them is log 16). -/
def Obligations.StepKeepsTheInvariant : Prop :=
  ∀ s t : State, Inv s → step s = .next t → Inv t

/-- No step changes one of the parameters in `cfg` (00_scope.md section 5, section 6: "Not state"; that they are data in State is
log 1). The one parameter that is kept elsewhere, `Translate` in `State.trans`, changes at a step only where the environment
replaces it, by a translation event (log 6). -/
def Obligations.StepKeepsTheParameters : Prop :=
  ∀ s t : State, step s = .next t →
    t.cfg = s.cfg ∧ (t.trans = s.trans ∨ ∃ tr rest, s.env = .translation tr :: rest ∧ t.trans = tr)

/-- 20_memory.md R59, 41_mret.md R120: in a state that meets the invariant no instruction is refused for MPP = 2. -/
def Obligations.ReservedMppIsNeverMet : Prop :=
  ∀ (s : State) (i : Instr), Inv s →
    exec i s ≠ .refused .reservedMpp ∧ ∀ a : OrdinaryAccess, ordinaryAccess a s ≠ .refused .reservedMpp

/-! ## The step -/

/-- A step with no environment event and no interrupt runs the instruction that the word at the pc decodes to. -/
def Obligations.StepRunsTheDecodedInstruction : Prop :=
  ∀ (s : State) (w : InstrWord) (i : Instr),
    s.env = [] → pendingInterrupt s = none → fetch s = .word w → decode w = .instr i → step s = exec i s

/-- Where the fetch takes a word from in M-mode, where nothing translates and the portions are executable memory that no store
has written: the four bytes at the pc, the lowest address first, whether instructions have one length and the fetch is one
portion of four bytes, or have several and it is two portions of two (30_encoding.md R80; 20_memory.md R61, R64, R68(i); the
portions are the model's choice, log 30, and so is a second one at address 0 past the end of the address space, log 44). -/
def Obligations.MachineModeFetchReadsTheBytesAtThePc : Prop :=
  ∀ s : State, s.priv = .m → xlenCut s.cfg.mxlen s.pc = s.pc →
    (s.byteAt s.pc.toNat).extractLsb' 0 2 = 3#2 → (s.byteAt s.pc.toNat).extractLsb' 2 3 ≠ 7#3 →
    (s.cfg.variableLength = false → physical s s.pc s.pc 4 .execute s.mode = .ok s.pc →
      (∀ j < 4, physByte s.pc j ∉ s.stored) →
      fetch s = .word (s.byteAt (physByte s.pc 3) ++ s.byteAt (physByte s.pc 2) ++ s.byteAt (physByte s.pc 1)
        ++ s.byteAt s.pc.toNat)) ∧
    (∀ pc₂, pc₂ = xlenCut s.cfg.mxlen (s.pc + 2#64) → s.cfg.variableLength = true →
      physical s s.pc s.pc 2 .execute s.mode = .ok s.pc → physical s pc₂ pc₂ 2 .execute s.mode = .ok pc₂ →
      (∀ j < 2, physByte s.pc j ∉ s.stored ∧ physByte pc₂ j ∉ s.stored) →
      fetch s = .word (s.byteAt (physByte pc₂ 1) ++ s.byteAt pc₂.toNat ++ s.byteAt (physByte s.pc 1)
        ++ s.byteAt s.pc.toNat))

/-- 20_memory.md R61: a fetch does not depend on MPRV, MPP and MPV. -/
def Obligations.FetchIgnoresMprv : Prop :=
  ∀ (s : State) (mprv mpv : Bool) (mpp : BitVec 2),
    fetch { s with mstatus := { s.mstatus with mprv := mprv, mpv := mpv, mpp := mpp } } = fetch s

/-- 20_memory.md R72 gives a fetch of bytes that a store has written no meaning; the model records the stored addresses in
`State.stored` (an HSV puts them there: StoresWriteTheirBytes) and stops with a fault of its own, by log 24. Every byte that the
fetch reads is covered: the one portion of four bytes, or the first portion of two and, where that announces a 32-bit
instruction, the second. -/
def Obligations.FetchOfAStoredByteStops : Prop :=
  ∀ (s : State) (pa : Word) (j : Nat), s.env = [] → pendingInterrupt s = none →
    (s.cfg.variableLength = false → translate s (xlenCut s.cfg.mxlen (s.pc + 0#64)) 4 .execute s.mode = .ok pa →
      j < 4 → physByte pa j ∈ s.stored → step s = .fault .fetchOfStoredByte) ∧
    (s.cfg.variableLength = true → translate s (xlenCut s.cfg.mxlen (s.pc + 0#64)) 2 .execute s.mode = .ok pa → j < 2 →
      (physByte pa j ∈ s.stored → step s = .fault .fetchOfStoredByte) ∧
      (∀ pb, (∀ i < 2, physByte pa i ∉ s.stored) →
        (s.byteAt (physByte pa 0)).extractLsb' 0 2 = 3#2 → (s.byteAt (physByte pa 0)).extractLsb' 2 3 ≠ 7#3 →
        translate s (xlenCut s.cfg.mxlen (s.pc + 2#64)) 2 .execute s.mode = .ok pb → physByte pb j ∈ s.stored →
        step s = .fault .fetchOfStoredByte))

/-- 60_exceptions.md R172, R173(a), (b): interrupt `i`, pending, enabled and not delegated, with the hart below M or MIE = 1,
is taken into M-mode instead of the instruction at the pc, and instead of whatever else the environment has the hart do (an
ordinary access, an exception from outside the spec, an interrupt for a lower mode), unless one that stands before it in the order
is ready too. Where none is ready none is taken: what the environment calls an interrupt is then the instruction at the pc, or,
pending, enabled and delegated below M-mode, an entry that this spec leaves out (the form of these events: log 8, 10, 37). -/
def Obligations.ReadyInterruptIsTaken : Prop :=
  (∀ (s : State) (before after : List Nat) (i : Nat) (rest : List EnvEvent),
    ((s.env = [] ∧ rest = []) ∨
      ∃ e, s.env = e :: rest ∧ (e = .pass ∨ (∃ tr, e = .trap tr) ∨ (∃ a, e = .access a))) →
    [11, 3, 7, 9, 1, 5, 12, 10, 2, 6] = before ++ i :: after →
    (csrRead .mip s).getLsbD i = true → (csrRead .mie s).getLsbD i = true → (csrRead .mideleg s).getLsbD i = false →
    (s.priv ≠ .m ∨ s.mstatus.mie = true) →
    (∀ j ∈ before, (csrRead .mip s).getLsbD j = false ∨ (csrRead .mie s).getLsbD j = false ∨
      (csrRead .mideleg s).getLsbD j = true) →
    ∃ t, step s = .next t ∧ EntryEffect (interruptTrap i s) { s with env := rest } t ∧
      t.mcause = xlenCut s.cfg.mxlen ((1#64 <<< (mxlenBits s.cfg.mxlen - 1)) ||| BitVec.ofNat 64 i)) ∧
  (∀ (s : State) (e : EnvTrap) (rest : List EnvEvent), s.env = .trap e :: rest → e.isInterrupt = true →
    (∀ i ∈ [11, 3, 7, 9, 1, 5, 12, 10, 2, 6], ¬ ((csrRead .mip s).getLsbD i = true ∧ (csrRead .mie s).getLsbD i = true ∧
      (csrRead .mideleg s).getLsbD i = false ∧ (s.priv ≠ .m ∨ s.mstatus.mie = true))) →
    step s = if (csrRead .mip s).getLsbD e.code = true ∧ (csrRead .mie s).getLsbD e.code = true ∧
        (csrRead .mideleg s).getLsbD e.code = true ∧ s.priv ≠ .m
      then .refused .trapBelowM else runInstr { s with env := rest })

/-- 60_exceptions.md R171: an interrupt with code 2, 6 or 10, or 12 when GEILEN ≠ 0, is never taken into M-mode, neither from
the pending bits nor as a trap that the environment supplies, whatever `mip`, `mie` and MIE hold; with GEILEN = 0 interrupt 12
is never pending. -/
def Obligations.DelegatedInterruptsNeverEnterMachineMode : Prop :=
  (∀ (s : State) (c : Nat), (c = 2 ∨ c = 6 ∨ c = 10 ∨ (c = 12 ∧ s.cfg.geilen ≠ 0)) →
    pendingInterrupt s ≠ some c ∧
    ∀ tr : Trap, tr.isInterrupt = true → tr.code = c → trapTarget tr s ≠ .m ∧ ∀ t, takeTrap tr s ≠ .next t) ∧
  (∀ s : State, s.cfg.geilen = 0 → (csrRead .mip s).getLsbD 12 = false ∧ pendingInterrupt s ≠ some 12)

/-! ## Traps -/

/-- 60_exceptions.md R161, R167, R168: what a trap into M-mode saves, in `mcause` the code, with the top bit for an interrupt, and
where it goes; its frame. -/
def Obligations.TrapEntrySavesTheState : Prop :=
  ∀ (s : State) (tr : Trap), trapTarget tr s = .m →
    ∃ t, takeTrap tr s = .next t ∧ EntryEffect tr s t ∧
      t.mstatus.mpv = s.v ∧ privOfBits t.mstatus.mpp = some s.priv ∧
      t.mstatus = { s.mstatus with
        mpv := t.mstatus.mpv, mpp := t.mstatus.mpp, gva := t.mstatus.gva, mpie := t.mstatus.mpie, mie := t.mstatus.mie } ∧
      SameSpecials { s with
        priv := t.priv, v := t.v, mstatus := t.mstatus, mtval := t.mtval, mtval2 := t.mtval2, mtinst := t.mtinst,
        mepc := t.mepc, mcause := t.mcause } t

/-- 60_exceptions.md R167: the handler's address: vectored for an interrupt when `mtvec` MODE is 1, and BASE*4 otherwise. -/
def Obligations.TrapVectorFollowsMtvec : Prop :=
  ∀ (s t : State) (tr : Trap), takeTrap tr s = .next t →
    ((s.mtvec.extractLsb' 0 2 = 1#2 ∧ tr.isInterrupt = true) →
      t.pc = xlenCut s.cfg.mxlen ((s.mtvec >>> 2) * 4#64 + 4#64 * BitVec.ofNat 64 tr.code)) ∧
    (¬ (s.mtvec.extractLsb' 0 2 = 1#2 ∧ tr.isInterrupt = true) → t.pc = xlenCut s.cfg.mxlen ((s.mtvec >>> 2) * 4#64))

/-- 60_exceptions.md R162 (`guest_va`): GVA is 1 exactly when the trap writes a guest virtual address to `mtval`; for what the
environment supplies too, an interrupt or a trap whose `mtval` is no address leaves 0. -/
def Obligations.GvaTellsAGuestVirtualAddress : Prop :=
  ∀ (s t : State), s.cfg.gvaRule = .guestVa →
    (∀ tr : Trap, takeTrap tr s = .next t → t.mstatus.gva = tr.tvalIsGva) ∧
    (∀ (e : EnvTrap), takeTrap (envTrap e s) s = .next t →
      (e.isInterrupt = true ∨ e.code ∈ [2, 8, 9, 10, 11, 22]) → t.mstatus.gva = false)

/-- 60_exceptions.md R163: after a trap into M-mode `mtval2` is 0, unless it is a guest-page fault; then it is 0 or the
faulting guest physical address shifted right by 2, which gives the address back but for its two low bits; and it is
legal. Both happen: where the implementation's draw for this trap is to report the address, and the shifted address is legal, it
is what `mtval2` receives. -/
def Obligations.MtvalTwoIsZeroOrTheGuestAddress : Prop :=
  ∀ (s t : State) (tr : Trap), takeTrap tr s = .next t →
    (t.mtval2 = 0#64 ∨
      (tr.isInterrupt = false ∧ tr.code ∈ [20, 21, 23] ∧
        ∃ g, tr.gpa = some g ∧ t.mtval2 = g >>> 2 ∧ t.mtval2 <<< 2 = g &&& ~~~3#64)) ∧
    (∀ g, tr.isInterrupt = false → tr.code ∈ [20, 21, 23] → tr.gpa = some g →
      Config.mtval2ReportsGpa s.draws = true → legalIn s.cfg.mxlen s.cfg.mtval2Legal (g >>> 2) = true →
      t.mtval2 = g >>> 2) ∧
    legalIn s.cfg.mxlen s.cfg.mtval2Legal t.mtval2 = true

/-- 60_exceptions.md R166 with its default set: `mtinst` is legal after a trap; it is 0 unless the trap is a guest-page fault
of an implicit VS-stage access with a nonzero `mtval2`, and then it is not 0 where the legal set has a nonzero value below
2^MXLEN (log 14). -/
def Obligations.MtinstAfterATrap : Prop :=
  ∀ (s t : State) (tr : Trap), takeTrap tr s = .next t → s.cfg.mtinstPolicy = .zeroUnlessImplicit →
    legalIn s.cfg.mxlen s.cfg.mtinstLegal t.mtinst = true ∧
    ((tr.implicitVsStage = false ∨ t.mtval2 = 0#64) → t.mtinst = 0#64) ∧
    (tr.implicitVsStage = true → t.mtval2 ≠ 0#64 →
      (∃ r ∈ s.cfg.mtinstLegal, ∃ k, r.1 ≤ k ∧ k ≤ r.2 ∧ 0 < k ∧ k < 2 ^ mxlenBits s.cfg.mxlen) → t.mtinst ≠ 0#64)

/-- 60_exceptions.md R160 (`trap_target`), R176: an exception raised in M-mode is taken there whatever the delegation lists
hold; one that the lists send below M has no meaning in this model (log 11). -/
def Obligations.TrapTargetFollowsDelegation : Prop :=
  ∀ (s : State) (tr : Trap), tr.isInterrupt = false →
    (s.priv = .m → takeTrap tr s = .next (enterM tr s)) ∧
    (s.priv ≠ .m → tr.code ∉ s.cfg.medeleg → takeTrap tr s = .next (enterM tr s)) ∧
    (s.priv ≠ .m → tr.code ∈ s.cfg.medeleg → tr.code ≠ 11 → takeTrap tr s = .refused .trapBelowM)

/-! ## MRET -/

/-- 41_mret.md R120: MRET in M-mode: V is MPV except when MPP = 3, where it stays 0; the new level is MPP; MIE, MPIE, MPP,
MPV, MPRV and the pc; and its frame: GVA, `mtval2`, `mtinst`, `mideleg`, `mip`, `mie` and every other register as before.
MPP = 2 is refused, and below M-mode MRET raises IllegalInstruction. -/
def Obligations.MretReturnsToTheSavedMode : Prop :=
  (∀ (s : State) (p : Priv), s.priv = .m → privOfBits s.mstatus.mpp = some p →
    ∃ t, exec .mret s = .next t ∧
      t.priv = p ∧ t.v = (if s.mstatus.mpp = 3#2 then false else s.mstatus.mpv) ∧
      t.mstatus.mie = s.mstatus.mpie ∧ t.mstatus.mpie = true ∧
      privOfBits t.mstatus.mpp = some s.cfg.mretMppAfter ∧ t.mstatus.mpv = s.cfg.mretMpvAfter ∧
      t.mstatus.mprv = (if p = .m then s.mstatus.mprv else false) ∧
      t.pc = xlenCut s.cfg.mxlen (instrAddr s.cfg s.mepc) ∧
      t.mstatus = { s.mstatus with
        mie := t.mstatus.mie, mpie := t.mstatus.mpie, mpp := t.mstatus.mpp, mpv := t.mstatus.mpv,
        mprv := t.mstatus.mprv } ∧
      SameSpecials { s with priv := t.priv, v := t.v, mstatus := t.mstatus } t ∧ SameRegs s t ∧ SameMemory s t) ∧
  (∀ s : State, s.priv = .m → s.mstatus.mpp = 2#2 → exec .mret s = .refused .reservedMpp) ∧
  (∀ s : State, s.priv ≠ .m → exec .mret s = raiseInstr .illegalInstruction 0x30200073#32 s)

/-- 41_mret.md R120, corner case (iii), with 60_exceptions.md R161, R174: a trap into M-mode followed at once by MRET restores
`priv`, V and MIE, and goes back to the saved pc. -/
def Obligations.TrapThenMretRestoresTheMode : Prop :=
  ∀ (s t : State) (tr : Trap), ModeLegal s → takeTrap tr s = .next t →
    ∃ u, exec .mret t = .next u ∧ u.priv = s.priv ∧ u.v = s.v ∧ u.mstatus.mie = s.mstatus.mie ∧
      u.pc = xlenCut s.cfg.mxlen (instrAddr s.cfg tr.epc) ∧ SameRegs s u ∧ SameMemory s u

/-- 60_exceptions.md R175: a trap taken while an M-mode handler runs overwrites what the first one saved: an MRET executed then
stays in M-mode. -/
def Obligations.NestedTrapOverwritesTheFirst : Prop :=
  ∀ (s t u : State) (tr tr' : Trap), takeTrap tr s = .next t → takeTrap tr' t = .next u →
    u.mstatus.mpv = false ∧ privOfBits u.mstatus.mpp = some .m ∧ u.mepc = xlenCut s.cfg.mxlen (instrAddr s.cfg tr'.epc) ∧
    ∃ w, exec .mret u = .next w ∧ w.priv = .m ∧ w.v = false

/-- 41_mret.md R120, corner case (ii): MRET is the only instruction that raises V from 0 to 1, in M-mode, and MPV was 1; and
the mode changes only by entry into M-mode or by MRET. -/
def Obligations.OnlyMretRaisesV : Prop :=
  ∀ (i : Instr) (s t : State), exec i s = .next t →
    (s.v = false → t.v = true → i = .mret ∧ s.priv = .m ∧ s.mstatus.mpv = true) ∧
    (t.mode = s.mode ∨ t.mode = { p := .m, v := false } ∨ (i = .mret ∧ s.priv = .m))

/-- 60_exceptions.md R177, 40_csr_access.md R100: below M-mode no instruction changes the M-level state but by entering
M-mode, except what R116 lets `hie` and `hip` reach: bits 12, 10, 6 and 2 of `mie`, and VSSIP, bit 2 of `mip`. -/
def Obligations.BelowMachineModeMLevelStateIsSafe : Prop :=
  ∀ (i : Instr) (s t : State), s.priv ≠ .m → exec i s = .next t → t.priv ≠ .m →
    t.mideleg = s.mideleg ∧ t.mtval = s.mtval ∧ t.mtval2 = s.mtval2 ∧ t.mtinst = s.mtinst ∧ t.mepc = s.mepc ∧
    t.mcause = s.mcause ∧ t.mtvec = s.mtvec ∧ t.mscratch = s.mscratch ∧ t.mstatus.mie = s.mstatus.mie ∧
    t.mstatus.mpie = s.mstatus.mpie ∧ t.mstatus.mpp = s.mstatus.mpp ∧ t.mstatus.mpv = s.mstatus.mpv ∧
    t.mstatus.gva = s.mstatus.gva ∧ t.mstatus.mprv = s.mstatus.mprv ∧ t.mstatus.tvm = s.mstatus.tvm ∧
    t.mstatus.tw = s.mstatus.tw ∧ t.mstatus.tsr = s.mstatus.tsr ∧ t.pend &&& ~~~0x0004#16 = s.pend &&& ~~~0x0004#16 ∧
    t.enab &&& ~~~0x1444#16 = s.enab &&& ~~~0x1444#16

/-- 60_exceptions.md R178 to R180: SRET in HS-mode under TSR, and SFENCE.VMA and SINVAL.VMA with any operands in HS-mode under TVM,
raise IllegalInstruction; with V = 1 neither field acts, and SRET in VS-mode under `hstatus.VTSR` raises VirtualInstruction; WFI
below M-mode under TW raises IllegalInstruction, also with V = 1, where its bounded time passes. The encodings, and the refusal of
these instructions where nothing guards them, are the model's own (log 25), as is the form of the draw (log 12). -/
def Obligations.TsrAndTvmActInHsModeOnly : Prop :=
  (∀ s : State,
    (s.priv = .s → s.v = false → s.mstatus.tsr = true →
      runWord 0x10200073#32 s = raiseInstr .illegalInstruction 0x10200073#32 s) ∧
    (s.priv = .s → s.v = true → s.hstatus.vtsr = true →
      runWord 0x10200073#32 s = raiseInstr .virtualInstruction 0x10200073#32 s) ∧
    (¬ (s.priv = .s ∧ s.v = false ∧ s.mstatus.tsr = true) → ¬ (s.priv = .s ∧ s.v = true ∧ s.hstatus.vtsr = true) →
      runWord 0x10200073#32 s = .refused .outsideInstruction) ∧
    (s.priv ≠ .m → s.mstatus.tw = true → Config.wfiTimesOut s.draws = true →
      runWord 0x10500073#32 s = raiseInstr .illegalInstruction 0x10500073#32 s) ∧
    ((s.priv = .m ∨ s.mstatus.tw = false ∨ Config.wfiTimesOut s.draws = false) →
      runWord 0x10500073#32 s = .refused .outsideInstruction)) ∧
  (∀ (s : State) (w : InstrWord) (rs1 rs2 : RegIdx),
    w = encSys 0b0001001#7 rs2 rs1 0b000#3 0#5 ∨ w = encSys 0b0001011#7 rs2 rs1 0b000#3 0#5 →
    (s.priv = .s → s.v = false → s.mstatus.tvm = true → runWord w s = raiseInstr .illegalInstruction w s) ∧
    (¬ (s.priv = .s ∧ s.v = false ∧ s.mstatus.tvm = true) → runWord w s = .refused .outsideInstruction))

/-! ## CSR access -/

/-- 40_csr_access.md R101 to R106: where the check gives a register of this spec, each of the six instructions completes: `rd`
receives the old value (x0 still reads 0), the register the new one (CSRRS, CSRRC, CSRRSI, CSRRCI: unless the operand index or
immediate is 0), and nothing else changes. Where the check gives an exception, each raises it. -/
def Obligations.CsrInstructionsReadThenWrite : Prop :=
  ∀ (s : State) (rd rs1 : RegIdx) (u : BitVec 5) (n : CsrNum) (r : Csr), (∀ k, r ≠ .foreign k) →
    (csrCheck n true s = .ok r →
      (∃ t, exec (.csrrw rd n rs1) s = .next t ∧ CsrEffect rd true (s.x rs1) r s t) ∧
      (∃ t, exec (.csrrwi rd n u) s = .next t ∧ CsrEffect rd true (u.setWidth 64) r s t)) ∧
    (csrCheck n (rs1 != 0#5) s = .ok r →
      (∃ t, exec (.csrrs rd n rs1) s = .next t ∧ CsrEffect rd (rs1 != 0#5) (csrRead r s ||| s.x rs1) r s t) ∧
      (∃ t, exec (.csrrc rd n rs1) s = .next t ∧ CsrEffect rd (rs1 != 0#5) (csrRead r s &&& ~~~(s.x rs1)) r s t)) ∧
    (csrCheck n (u != 0#5) s = .ok r →
      (∃ t, exec (.csrrsi rd n u) s = .next t ∧ CsrEffect rd (u != 0#5) (csrRead r s ||| u.setWidth 64) r s t) ∧
      (∃ t, exec (.csrrci rd n u) s = .next t ∧ CsrEffect rd (u != 0#5) (csrRead r s &&& ~~~(u.setWidth 64)) r s t)) ∧
    (∀ (i : Instr) (w : Bool) (e : Exc), csrOf i = some (n, w) → csrCheck n w s = .error e →
      exec i s = raiseInstr e (encode i) s)

/-- 40_csr_access.md R100: the exceptions of the access check, for the six instructions. A register of the larger machine that
`cfg.otherCsrs` lists passes the check and is refused (log 21). -/
def Obligations.CsrCheckRaises : Prop :=
  ∀ (s : State) (i : Instr) (n : CsrNum) (w : Bool), csrOf i = some (n, w) →
    (csrNamed s.cfg n = none → exec i s = raiseInstr .illegalInstruction (encode i) s) ∧
    (w = true → n.extractLsb' 10 2 = 3#2 → exec i s = raiseInstr .illegalInstruction (encode i) s) ∧
    (n.extractLsb' 8 2 = 3#2 → s.priv ≠ .m → exec i s = raiseInstr .illegalInstruction (encode i) s) ∧
    (csrNamed s.cfg n ≠ none → n.extractLsb' 10 2 ≠ 3#2 → n.extractLsb' 8 2 = 2#2 → s.v = true →
      exec i s = raiseInstr .virtualInstruction (encode i) s) ∧
    (n.extractLsb' 8 2 = 2#2 → s.v = false → s.priv = .u → exec i s = raiseInstr .illegalInstruction (encode i) s) ∧
    (csrNamed s.cfg n ≠ none → n.extractLsb' 10 2 ≠ 3#2 → n.extractLsb' 8 2 = 1#2 → s.priv = .u → s.v = true →
      exec i s = raiseInstr .virtualInstruction (encode i) s) ∧
    (n.extractLsb' 8 2 = 1#2 → s.priv = .u → s.v = false → exec i s = raiseInstr .illegalInstruction (encode i) s) ∧
    (n.extractLsb' 8 2 = 3#2 → n.extractLsb' 10 2 ≠ 3#2 → s.priv = .m → csrNamed s.cfg n = some (.foreign n) →
      exec i s = .refused (.foreignCsr n))

/-- 30_encoding.md R86, 10_state.md R16, 40_csr_access.md R100: in M-mode every register of R86 is reached by its number, to read
and to write; `mstatush` exists when MXLEN=32 only (D34). So is `mscratch`, at 0x340, a number that R86 does not give and the model
presumes (log 19). -/
def Obligations.MachineModeReachesEveryCsr : Prop :=
  ∀ (s : State) (w : Bool), s.priv = .m → s.v = false →
    (∀ q ∈ [((0x300#12 : CsrNum), Csr.mstatus), (0x303#12, .mideleg), (0x304#12, .mie), (0x305#12, .mtvec),
        (0x340#12, .mscratch), (0x341#12, .mepc), (0x342#12, .mcause), (0x343#12, .mtval), (0x344#12, .mip),
        (0x34A#12, .mtinst), (0x34B#12, .mtval2), (0x100#12, .sstatus), (0x200#12, .vsstatus), (0x280#12, .vsatp),
        (0x600#12, .hstatus), (0x604#12, .hie), (0x644#12, .hip), (0x680#12, .hgatp)],
      csrCheck q.1 w s = .ok q.2) ∧
    (s.cfg.mxlen = .x32 → csrCheck 0x310#12 w s = .ok .mstatush) ∧
    (s.cfg.mxlen = .x64 → ∀ i, csrOf i = some (0x310#12, w) →
      exec i s = raiseInstr .illegalInstruction (encode i) s)

/-- 40_csr_access.md R115 (with its default TVM_EXCEPTION): TVM blocks an access to `hgatp`, read or write, in HS-mode, and
only there; it does not bear on `vsatp`; with V = 1 both raise VirtualInstruction. -/
def Obligations.TvmBlocksHgatpInHsMode : Prop :=
  ∀ (s : State) (i : Instr) (w : Bool),
    (csrOf i = some (0x680#12, w) →
      (s.priv = .s → s.v = false → s.mstatus.tvm = true → s.cfg.tvmException = .illegalInstruction →
        exec i s = raiseInstr .illegalInstruction (encode i) s) ∧
      (s.v = true → exec i s = raiseInstr .virtualInstruction (encode i) s) ∧
      (s.priv = .m → s.v = false → ∃ t, exec i s = .next t ∧ PcAdvanced s t) ∧
      (s.priv = .s → s.v = false → s.mstatus.tvm = false → ∃ t, exec i s = .next t ∧ PcAdvanced s t)) ∧
    (csrOf i = some (0x280#12, w) →
      (s.v = true → exec i s = raiseInstr .virtualInstruction (encode i) s) ∧
      (s.priv ≠ .u → s.v = false → ∃ t, exec i s = .next t ∧ PcAdvanced s t))

/-- 40_csr_access.md R110, 10_state.md R26, R27: in every state bits 10, 6, 2 of `mideleg` read 1, and bit 12 when GEILEN is not 0,
before a write as after it; what `mideleg` reads after a write, and that nothing else changes. -/
def Obligations.MidelegWriteKeepsItsFixedBits : Prop :=
  ∀ (s t : State) (v : Word), t = csrWrite .mideleg v s →
    (∀ i, (i = 10 ∨ i = 6 ∨ i = 2 ∨ (i = 12 ∧ s.cfg.geilen ≠ 0)) →
      (csrRead .mideleg s).getLsbD i = true ∧ (csrRead .mideleg t).getLsbD i = true) ∧
    (s.cfg.geilen ≠ 0 → csrRead .mideleg t = (v &&& 0x222#64) ||| 0x1444#64) ∧
    (s.cfg.geilen = 0 → s.cfg.midelegBit12NoGei = .zero → csrRead .mideleg t = (v &&& 0x222#64) ||| 0x444#64) ∧
    (s.cfg.geilen = 0 → s.cfg.midelegBit12NoGei = .one → csrRead .mideleg t = (v &&& 0x222#64) ||| 0x1444#64) ∧
    (s.cfg.geilen = 0 → s.cfg.midelegBit12NoGei = .writable → csrRead .mideleg t = (v &&& 0x1222#64) ||| 0x444#64) ∧
    SameSpecials { s with mideleg := t.mideleg } t ∧ SameRegs s t ∧ SameMemory s t ∧ t.pc = s.pc

/-- 40_csr_access.md R111, 10_state.md R31: a write of `mip` changes VSSIP, SSIP, STIP and SEIP, and no other bit; SGEIP reads 0
when GEILEN = 0; `hip` shows the same bits afterwards. -/
def Obligations.MipWriteChangesTheSoftwareBits : Prop :=
  ∀ (s t : State) (v : Word), t = csrWrite .mip v s →
    (∀ i, (csrRead .mip t).getLsbD i = if i ∈ [1, 2, 5, 9] then v.getLsbD i else (csrRead .mip s).getLsbD i) ∧
    (s.cfg.geilen = 0 → (csrRead .mip t).getLsbD 12 = false) ∧
    (∀ i ∈ [12, 10, 6, 2], (csrRead .hip t).getLsbD i = (csrRead .mip t).getLsbD i) ∧
    SameSpecials { s with pend := t.pend } t ∧ SameRegs s t ∧ SameMemory s t ∧ t.pc = s.pc

/-- 40_csr_access.md R112, 10_state.md R32: a write of `mie` changes every enable bit of 10_state.md R30, SGEIE only when
GEILEN is not 0; of bits 15:0 the others read 0; `hie` shows the same bits afterwards. -/
def Obligations.MieWriteChangesTheEnables : Prop :=
  ∀ (s t : State) (v : Word), t = csrWrite .mie v s →
    (∀ i ∈ [1, 2, 3, 5, 6, 7, 9, 10, 11], (csrRead .mie t).getLsbD i = v.getLsbD i) ∧
    (csrRead .mie t).getLsbD 12 = (v.getLsbD 12 && s.cfg.geilen != 0) ∧
    (∀ i < 16, i ∉ [1, 2, 3, 5, 6, 7, 9, 10, 11, 12] → (csrRead .mie t).getLsbD i = false) ∧
    (∀ i ∈ [12, 10, 6, 2], (csrRead .hie t).getLsbD i = (csrRead .mie t).getLsbD i) ∧
    SameSpecials { s with enab := t.enab } t ∧ SameRegs s t ∧ SameMemory s t ∧ t.pc = s.pc

/-- 40_csr_access.md R116, 10_state.md R33: `hip` and `hie` see bits 12, 10, 6, 2 of `mip` and `mie` and no other bit; a write of
`hie` sets those enables and no other, a write of `hip` changes VSSIP only, and neither changes anything else. That their other
bits read 0 and ignore writes is the model's choice (log 28), as is that `mip`, `mie` and `mideleg` read 0 above bit 15
(log 34). -/
def Obligations.HipAndHieAreTheSameStorage : Prop :=
  ∀ (s : State) (v : Word),
    csrRead .hip s = csrRead .mip s &&& 0x1444#64 ∧ csrRead .hie s = csrRead .mie s &&& 0x1444#64 ∧
    (∀ i, 16 ≤ i → ∀ r ∈ [Csr.mip, .mie, .mideleg], (csrRead r s).getLsbD i = false) ∧
    (∀ t, t = csrWrite .hie v s →
      (∀ i, (csrRead .mie t).getLsbD i =
        if i ∈ [10, 6, 2] then v.getLsbD i
        else if i = 12 then v.getLsbD 12 && s.cfg.geilen != 0
        else (csrRead .mie s).getLsbD i) ∧
      SameSpecials { s with enab := t.enab } t ∧ SameRegs s t ∧ SameMemory s t ∧ t.pc = s.pc) ∧
    (∀ t, t = csrWrite .hip v s →
      (∀ i, (csrRead .mip t).getLsbD i = if i = 2 then v.getLsbD 2 else (csrRead .mip s).getLsbD i) ∧
      SameSpecials { s with pend := t.pend } t ∧ SameRegs s t ∧ SameMemory s t ∧ t.pc = s.pc)

/-- 40_csr_access.md R107, 10_state.md R15, R16: where every field stands in `mstatus` and `mstatush`, and which bits read 0. That
SD reads 1 exactly when FS, XS or VS holds 3 is the model's presumption (log 16). -/
def Obligations.StatusFieldsStandAtTheirPositions : Prop :=
  ∀ (s : State) (sd : Bool), sd = decide (s.mstatus.fs = 3#2 ∨ s.mstatus.xs = 3#2 ∨ s.mstatus.vecStatus = 3#2) →
    ((csrRead .mstatus s).getLsbD 1 = s.mstatus.sie ∧ (csrRead .mstatus s).getLsbD 3 = s.mstatus.mie ∧
      (csrRead .mstatus s).getLsbD 5 = s.mstatus.spie ∧ (csrRead .mstatus s).getLsbD 6 = s.mstatus.ube ∧
      (csrRead .mstatus s).getLsbD 7 = s.mstatus.mpie ∧ (csrRead .mstatus s).getLsbD 8 = s.mstatus.spp ∧
      (csrRead .mstatus s).extractLsb' 9 2 = s.mstatus.vecStatus ∧ (csrRead .mstatus s).extractLsb' 11 2 = s.mstatus.mpp ∧
      (csrRead .mstatus s).extractLsb' 13 2 = s.mstatus.fs ∧ (csrRead .mstatus s).extractLsb' 15 2 = s.mstatus.xs ∧
      (csrRead .mstatus s).getLsbD 17 = s.mstatus.mprv ∧ (csrRead .mstatus s).getLsbD 18 = s.mstatus.sum ∧
      (csrRead .mstatus s).getLsbD 19 = s.mstatus.mxr ∧ (csrRead .mstatus s).getLsbD 20 = s.mstatus.tvm ∧
      (csrRead .mstatus s).getLsbD 21 = s.mstatus.tw ∧ (csrRead .mstatus s).getLsbD 22 = s.mstatus.tsr) ∧
    (s.cfg.mxlen = .x64 → (csrRead .mstatus s).extractLsb' 32 2 = s.mstatus.uxl ∧
      (csrRead .mstatus s).extractLsb' 34 2 = s.mstatus.sxl ∧ (csrRead .mstatus s).getLsbD 36 = s.mstatus.sbe ∧
      (csrRead .mstatus s).getLsbD 37 = s.mstatus.mbe ∧ (csrRead .mstatus s).getLsbD 38 = s.mstatus.gva ∧
      (csrRead .mstatus s).getLsbD 39 = s.mstatus.mpv ∧ (csrRead .mstatus s).getLsbD 63 = sd ∧
      csrRead .mstatus s &&& 0x7FFFFF00FF800015#64 = 0#64) ∧
    (s.cfg.mxlen = .x32 → (csrRead .mstatus s).getLsbD 31 = sd ∧ csrRead .mstatus s &&& 0xFFFFFFFF7F800015#64 = 0#64) ∧
    ((csrRead .mstatush s).getLsbD 7 = s.mstatus.mpv ∧ (csrRead .mstatush s).getLsbD 6 = s.mstatus.gva ∧
      (csrRead .mstatush s).getLsbD 5 = s.mstatus.mbe ∧ (csrRead .mstatush s).getLsbD 4 = s.mstatus.sbe ∧
      csrRead .mstatush s &&& ~~~0xF0#64 = 0#64)

/-- 40_csr_access.md R108, R109: what a write of `mstatus` and of `mstatush` leaves in every field, and that neither changes
another register. R108 names MPRV, TSR, TVM, TW, MXR, SUM, MPP, MPV and GVA. That the fields which it does not name are written too
(SIE, MIE, SPIE, MPIE, SPP, FS, VS) is the model's choice (log 41), that XS, SXL and UXL are not is its presumption (log 16), and
that UBE, SBE and MBE are not is 92_eei_decisions.md D6 (log 15). -/
def Obligations.StatusWritesChangeTheirFields : Prop :=
  ∀ (s : State) (v : Word),
    (∀ t, t = csrWrite .mstatus v s →
      t.mstatus = { s.mstatus with
        sie := v.getLsbD 1, mie := v.getLsbD 3, spie := v.getLsbD 5, mpie := v.getLsbD 7, spp := v.getLsbD 8,
        vecStatus := v.extractLsb' 9 2, mpp := t.mstatus.mpp, fs := v.extractLsb' 13 2, mprv := v.getLsbD 17,
        sum := v.getLsbD 18, mxr := v.getLsbD 19, tvm := v.getLsbD 20, tw := v.getLsbD 21, tsr := v.getLsbD 22,
        mpv := (match s.cfg.mxlen with | .x64 => v.getLsbD 39 | .x32 => s.mstatus.mpv),
        gva := (match s.cfg.mxlen with | .x64 => v.getLsbD 38 | .x32 => s.mstatus.gva) } ∧
      (v.extractLsb' 11 2 ≠ 2#2 → t.mstatus.mpp = v.extractLsb' 11 2) ∧ t.mstatus.mpp ≠ 2#2 ∧
      SameSpecials { s with mstatus := t.mstatus } t ∧ SameRegs s t ∧ SameMemory s t ∧ t.pc = s.pc) ∧
    (∀ t, t = csrWrite .mstatush v s →
      t.mstatus = { s.mstatus with mpv := v.getLsbD 7, gva := v.getLsbD 6 } ∧
      SameSpecials { s with mstatus := t.mstatus } t ∧ SameRegs s t ∧ SameMemory s t ∧ t.pc = s.pc)

/-- 40_csr_access.md R113, R114: a write of a legal value to `mtval2` or `mtinst` stores it, any other write stores a legal value,
which is what `warl_resolve` gives where that is legal; writing 0 stores 0. -/
def Obligations.SecondTrapRegistersAreWarl : Prop :=
  ∀ (s : State) (v : Word),
    (∀ t, t = csrWrite .mtval2 v s →
      (legalIn s.cfg.mxlen s.cfg.mtval2Legal v = true → csrRead .mtval2 t = v) ∧
      legalIn s.cfg.mxlen s.cfg.mtval2Legal (csrRead .mtval2 t) = true ∧
      (legalIn s.cfg.mxlen s.cfg.mtval2Legal v = false →
        legalIn s.cfg.mxlen s.cfg.mtval2Legal (Config.warlResolve .mtval2 s.mtval2 v) = true →
        csrRead .mtval2 t = Config.warlResolve .mtval2 s.mtval2 v) ∧
      (v = 0#64 → csrRead .mtval2 t = 0#64) ∧
      SameSpecials { s with mtval2 := t.mtval2 } t ∧ SameRegs s t ∧ SameMemory s t ∧ t.pc = s.pc) ∧
    (∀ t, t = csrWrite .mtinst v s →
      (legalIn s.cfg.mxlen s.cfg.mtinstLegal v = true → csrRead .mtinst t = v) ∧
      legalIn s.cfg.mxlen s.cfg.mtinstLegal (csrRead .mtinst t) = true ∧
      (legalIn s.cfg.mxlen s.cfg.mtinstLegal v = false →
        legalIn s.cfg.mxlen s.cfg.mtinstLegal (Config.warlResolve .mtinst s.mtinst v) = true →
        csrRead .mtinst t = Config.warlResolve .mtinst s.mtinst v) ∧
      (v = 0#64 → csrRead .mtinst t = 0#64) ∧
      SameSpecials { s with mtinst := t.mtinst } t ∧ SameRegs s t ∧ SameMemory s t ∧ t.pc = s.pc)

/-- 10_state.md R24: `sstatus` is a view of `mstatus`, at the same positions, and `vsstatus` is separate storage: what a read of
either shows after a write, and that the write changes nothing else. With V = 1 the number of `sstatus` reaches `vsstatus`. The
fields and their positions are the model's presumption (log 17, 22), and so is which of them a write reaches (log 16, 41). -/
def Obligations.SstatusIsAViewOfMstatus : Prop :=
  ∀ (s : State) (v : Word),
    csrRead .sstatus s = csrRead .mstatus s &&&
      (match s.cfg.mxlen with | .x64 => 0x80000003000DE762#64 | .x32 => 0x800DE762#64) ∧
    (∀ t, t = csrWrite .sstatus v s →
      (∀ i, (csrRead .mstatus t).getLsbD i =
        if i ∈ [1, 5, 8, 9, 10, 13, 14, 18, 19] then v.getLsbD i
        else if i = (match s.cfg.mxlen with | .x64 => 63 | .x32 => 31) then
          decide (v.extractLsb' 13 2 = 3#2 ∨ s.mstatus.xs = 3#2 ∨ v.extractLsb' 9 2 = 3#2)
        else (csrRead .mstatus s).getLsbD i) ∧
      SameSpecials { s with mstatus := t.mstatus } t ∧ SameRegs s t ∧ SameMemory s t ∧ t.pc = s.pc) ∧
    (∀ t, t = csrWrite .vsstatus v s →
      (∀ i, (csrRead .vsstatus t).getLsbD i =
        if i ∈ [1, 5, 8, 9, 10, 13, 14, 18, 19] then v.getLsbD i
        else if i = (match s.cfg.mxlen with | .x64 => 63 | .x32 => 31) then
          decide (v.extractLsb' 13 2 = 3#2 ∨ s.vsstatus.xs = 3#2 ∨ v.extractLsb' 9 2 = 3#2)
        else (csrRead .vsstatus s).getLsbD i) ∧
      SameSpecials { s with vsstatus := t.vsstatus } t ∧ SameRegs s t ∧ SameMemory s t ∧ t.pc = s.pc) ∧
    (csrWrite .mstatus v s).vsstatus = s.vsstatus ∧
    (∀ w, s.priv = .s → s.v = true → csrCheck 0x100#12 w s = .ok .vsstatus) ∧
    (∀ w, s.priv = .s → s.v = false → csrCheck 0x100#12 w s = .ok .sstatus)

/-- The registers that hold what is written to them: `mtvec`, `mcause`, `mscratch`, `vsatp`, `hgatp` (log 19), `mepc` but for its
low bit or bits (41_mret.md R120), `hstatus` in the fields that a write reaches, the others keeping what they held (log 18); a
write of each changes nothing else, and a write of `mtval` changes nothing (10_state.md R38, log 20). -/
def Obligations.OtherCsrsHoldWhatIsWritten : Prop :=
  ∀ (s : State) (v : Word),
    (∀ r ∈ [Csr.mtvec, .mcause, .mscratch, .vsatp, .hgatp], csrRead r (csrWrite r v s) = xlenCut s.cfg.mxlen v) ∧
    csrRead .mepc (csrWrite .mepc v s) =
      xlenCut s.cfg.mxlen (if s.cfg.variableLength then v &&& ~~~1#64 else v &&& ~~~3#64) ∧
    (∀ i, (csrRead .hstatus (csrWrite .hstatus v s)).getLsbD i =
      if i ∈ [6, 7, 8, 9, 12, 13, 14, 15, 16, 17, 20, 21, 22] then v.getLsbD i else (csrRead .hstatus s).getLsbD i) ∧
    SameSpecials { s with mtvec := (csrWrite .mtvec v s).mtvec } (csrWrite .mtvec v s) ∧
    SameSpecials { s with mcause := (csrWrite .mcause v s).mcause } (csrWrite .mcause v s) ∧
    SameSpecials { s with mscratch := (csrWrite .mscratch v s).mscratch } (csrWrite .mscratch v s) ∧
    SameSpecials { s with vsatp := (csrWrite .vsatp v s).vsatp } (csrWrite .vsatp v s) ∧
    SameSpecials { s with hgatp := (csrWrite .hgatp v s).hgatp } (csrWrite .hgatp v s) ∧
    SameSpecials { s with mepc := (csrWrite .mepc v s).mepc } (csrWrite .mepc v s) ∧
    SameSpecials { s with hstatus := (csrWrite .hstatus v s).hstatus } (csrWrite .hstatus v s) ∧
    (∀ r ∈ [Csr.mtvec, .mcause, .mscratch, .vsatp, .hgatp, .mepc, .hstatus],
      SameRegs s (csrWrite r v s) ∧ SameMemory s (csrWrite r v s) ∧ (csrWrite r v s).pc = s.pc) ∧
    csrWrite .mtval v s = s

/-! ## Fences -/

/-- 42_hfence.md R125, R126, 10_state.md R21: where it may execute, a fence only advances the pc (that nothing of the ordering is
to be seen follows from a `Translate` that never caches, log 26). TVM blocks HFENCE.GVMA in HS-mode, and nothing else. -/
def Obligations.TvmBlocksGvmaAndNotVvma : Prop :=
  ∀ (s : State) (rs1 rs2 : RegIdx),
    (s.v = false → s.priv ≠ .u →
      exec (.hfenceVvma rs1 rs2) s = .next { s with pc := xlenCut s.cfg.mxlen (s.pc + 4#64) }) ∧
    (s.v = false → (s.priv = .m ∨ (s.priv = .s ∧ s.mstatus.tvm = false)) →
      exec (.hfenceGvma rs1 rs2) s = .next { s with pc := xlenCut s.cfg.mxlen (s.pc + 4#64) }) ∧
    (s.v = false → s.priv = .s → s.mstatus.tvm = true → s.cfg.tvmException = .illegalInstruction →
      exec (.hfenceGvma rs1 rs2) s = raiseInstr .illegalInstruction (encode (.hfenceGvma rs1 rs2)) s) ∧
    (∀ i ∈ [Instr.hfenceVvma rs1 rs2, .hfenceGvma rs1 rs2],
      (s.v = true → exec i s = raiseInstr .virtualInstruction (encode i) s) ∧
      (s.v = false → s.priv = .u → exec i s = raiseInstr .illegalInstruction (encode i) s))

/-- 60_exceptions.md R160 to R169: what an instruction that raises an exception leaves when the trap goes to M-mode: its own pc in
`mepc`, the exception's code of R169's table in `mcause`, the mode before it, no general register and no memory changed. -/
def Obligations.RaisingSavesTheInstructionAndChangesNoRegister : Prop :=
  ∀ (s : State) (w : InstrWord) (e : Exc), excCode e ∉ s.cfg.medeleg ∨ s.priv = .m →
    ∃ t tr, raiseInstr e w s = .next t ∧ RaiseEffect tr s t ∧ tr.isInterrupt = false ∧ tr.code = excCode e ∧ tr.epc = s.pc ∧
      (t.mtval = xlenCut s.cfg.mxlen (w.setWidth 64) ∨ t.mtval = 0#64) ∧
      (isGuestPageFault (excCode e) = false → t.mtval2 = 0#64) ∧ (s.cfg.gvaRule = .guestVa → t.mstatus.gva = false) ∧
      (∀ q ∈ [(Exc.instrAddressMisaligned, 0#64), (.instrAccessFault, 1#64), (.illegalInstruction, 2#64), (.breakpoint, 3#64),
          (.loadAddressMisaligned, 4#64), (.loadAccessFault, 5#64), (.storeAddressMisaligned, 6#64),
          (.storeAccessFault, 7#64), (.ecallFromU, 8#64), (.ecallFromHs, 9#64), (.ecallFromVs, 10#64), (.ecallFromM, 11#64),
          (.instrPageFault, 12#64), (.loadPageFault, 13#64), (.storePageFault, 15#64), (.instrGuestPageFault, 20#64),
          (.loadGuestPageFault, 21#64), (.virtualInstruction, 22#64), (.storeGuestPageFault, 23#64)],
        e = q.1 → t.mcause = q.2)

/-! ## HLV, HLVX, HSV -/

/-- 43_hlv_hsv.md R135: with V = 1 they raise VirtualInstruction, and in U-mode without `hstatus.HU` IllegalInstruction. -/
def Obligations.HypervisorAccessesAreChecked : Prop :=
  ∀ (s : State) (i : Instr) (q : RegIdx × Width × AccessKind), hypOf i = some q → i.wellFormed s.cfg.mxlen = true →
    (s.v = true → exec i s = raiseInstr .virtualInstruction (encode i) s) ∧
    (s.v = false → s.priv = .u → s.hstatus.hu = false → exec i s = raiseInstr .illegalInstruction (encode i) s)

/-- 30_encoding.md R87: HLV.WU, HLV.D and HSV.D are reserved when MXLEN=32 and raise IllegalInstruction. -/
def Obligations.DoublewordAccessesAreReservedAtThirtyTwoBits : Prop :=
  ∀ (s : State) (a b : RegIdx), s.cfg.mxlen = .x32 →
    exec (.hlvWu a b) s = raiseInstr .illegalInstruction (encode (.hlvWu a b)) s ∧
    exec (.hlvD a b) s = raiseInstr .illegalInstruction (encode (.hlvD a b)) s ∧
    exec (.hsvD a b) s = raiseInstr .illegalInstruction (encode (.hsvD a b)) s

/-- 43_hlv_hsv.md R136, R137: the byte loads; x0 still reads 0 (10_state.md R40). -/
def Obligations.ByteLoadsExtendTheByte : Prop :=
  ∀ (s : State) (rd rs1 : RegIdx) (f : Nat → Nat), HypAllowed s → LittleEndian s →
    BytesAt s (s.x rs1) .b .read (hypMode s) f →
    (∃ t, exec (.hlvB rd rs1) s = .next t ∧ LoadEffect rd ((s.byteAt (f 0)).signExtend 64) s t) ∧
    (∃ t, exec (.hlvBu rd rs1) s = .next t ∧ LoadEffect rd ((s.byteAt (f 0)).setWidth 64) s t)

/-- 43_hlv_hsv.md R138 to R140, 20_memory.md R64, R65: the halfword loads, aligned or split in any order (past
the end of the address space: log 45); x0 still reads 0 (10_state.md R40). -/
def Obligations.HalfwordLoadsAssembleTwoBytes : Prop :=
  ∀ (s : State) (rd rs1 : RegIdx) (f : Nat → Nat), HypAllowed s → LittleEndian s →
    (BytesAt s (s.x rs1) .h .read (hypMode s) f →
      (∃ t, exec (.hlvH rd rs1) s = .next t ∧
        LoadEffect rd ((s.byteAt (f 1) ++ s.byteAt (f 0)).signExtend 64) s t) ∧
      (∃ t, exec (.hlvHu rd rs1) s = .next t ∧
        LoadEffect rd ((s.byteAt (f 1) ++ s.byteAt (f 0)).setWidth 64) s t)) ∧
    (BytesAt s (s.x rs1) .h .executeAsRead (hypMode s) f →
      ∃ t, exec (.hlvxHu rd rs1) s = .next t ∧
        LoadEffect rd ((s.byteAt (f 1) ++ s.byteAt (f 0)).setWidth 64) s t)

/-- 43_hlv_hsv.md R141 to R144, 20_memory.md R64, R65: the word and doubleword loads, aligned or split in any order (past the
end of the address space: log 45); HLV.WU and HLV.D when MXLEN=64; x0 still reads 0 (10_state.md R40). -/
def Obligations.WordLoadsAssembleTheirBytes : Prop :=
  ∀ (s : State) (rd rs1 : RegIdx) (f : Nat → Nat) (word : BitVec 32), HypAllowed s → LittleEndian s →
    word = s.byteAt (f 3) ++ s.byteAt (f 2) ++ s.byteAt (f 1) ++ s.byteAt (f 0) →
    (BytesAt s (s.x rs1) .w .read (hypMode s) f →
      ∃ t, exec (.hlvW rd rs1) s = .next t ∧ LoadEffect rd (word.signExtend 64) s t) ∧
    (BytesAt s (s.x rs1) .w .executeAsRead (hypMode s) f →
      ∃ t, exec (.hlvxWu rd rs1) s = .next t ∧ LoadEffect rd (word.setWidth 64) s t) ∧
    (BytesAt s (s.x rs1) .w .read (hypMode s) f → s.cfg.mxlen = .x64 →
      ∃ t, exec (.hlvWu rd rs1) s = .next t ∧ LoadEffect rd (word.setWidth 64) s t) ∧
    (BytesAt s (s.x rs1) .d .read (hypMode s) f → s.cfg.mxlen = .x64 →
      ∃ t, exec (.hlvD rd rs1) s = .next t ∧
        LoadEffect rd (s.byteAt (f 7) ++ s.byteAt (f 6) ++ s.byteAt (f 5) ++ s.byteAt (f 4) ++ word) s t)

/-- 43_hlv_hsv.md R145 to R148, 20_memory.md R64, R65: the stores, aligned or split in any order (past the end of the
address space: log 45), where no two bytes of the access
lie at one physical address and a split access writes none of the page-table bytes that its own translation reads; HSV.D when
MXLEN=64. The addresses written are recorded, which is what FetchOfAStoredByteStops looks at (log 24). -/
def Obligations.StoresWriteTheirBytes : Prop :=
  ∀ (s : State) (rs2 rs1 : RegIdx) (f : Nat → Nat), HypAllowed s → LittleEndian s → MemCanonical s →
    (Distinct f 1 → BytesAt s (s.x rs1) .b .write (hypMode s) f →
      ∃ t, exec (.hsvB rs2 rs1) s = .next t ∧ StoreEffect f 1 (s.x rs2) s t) ∧
    (Distinct f 2 → TablesApart s (s.x rs1) .h f → BytesAt s (s.x rs1) .h .write (hypMode s) f →
      ∃ t, exec (.hsvH rs2 rs1) s = .next t ∧ StoreEffect f 2 (s.x rs2) s t) ∧
    (Distinct f 4 → TablesApart s (s.x rs1) .w f → BytesAt s (s.x rs1) .w .write (hypMode s) f →
      ∃ t, exec (.hsvW rs2 rs1) s = .next t ∧ StoreEffect f 4 (s.x rs2) s t) ∧
    (Distinct f 8 → TablesApart s (s.x rs1) .d f → BytesAt s (s.x rs1) .d .write (hypMode s) f → s.cfg.mxlen = .x64 →
      ∃ t, exec (.hsvD rs2 rs1) s = .next t ∧ StoreEffect f 8 (s.x rs2) s t)

/-- 20_memory.md R65, R74: the frame of a store whatever it ends in, a trap in the middle of a split access included: every byte
outside the addresses that `Translate` gives for its portions, in turn, is unchanged, and no general register changes. -/
def Obligations.StoresChangeOnlyTheirTargets : Prop :=
  ∀ (s t : State) (rs2 rs1 : RegIdx),
    (exec (.hsvB rs2 rs1) s = .next t →
      SameRegs s t ∧ ∀ a, a ∉ storeTargets s (s.x rs1) .b (s.x rs2) (hypMode s) → t.byteAt a = s.byteAt a) ∧
    (exec (.hsvH rs2 rs1) s = .next t →
      SameRegs s t ∧ ∀ a, a ∉ storeTargets s (s.x rs1) .h (s.x rs2) (hypMode s) → t.byteAt a = s.byteAt a) ∧
    (exec (.hsvW rs2 rs1) s = .next t →
      SameRegs s t ∧ ∀ a, a ∉ storeTargets s (s.x rs1) .w (s.x rs2) (hypMode s) → t.byteAt a = s.byteAt a) ∧
    (exec (.hsvD rs2 rs1) s = .next t →
      SameRegs s t ∧ ∀ a, a ∉ storeTargets s (s.x rs1) .d (s.x rs2) (hypMode s) → t.byteAt a = s.byteAt a)

/-- No other instruction changes memory, completed or trapped; and one that traps changes no general register
(43_hlv_hsv.md R135, 20_memory.md R66). -/
def Obligations.OnlyHsvChangesMemory : Prop :=
  ∀ (i : Instr) (s t : State), exec i s = .next t →
    ((∀ rs2 rs1, i ≠ .hsvB rs2 rs1 ∧ i ≠ .hsvH rs2 rs1 ∧ i ≠ .hsvW rs2 rs1 ∧ i ≠ .hsvD rs2 rs1) → SameMemory s t) ∧
    (i ≠ .mret → t.mode ≠ s.mode → SameRegs s t)

/-- 20_memory.md R69(i), R64: a store followed by a load of the same bytes returns them, where translation after the store, with
memory as it then is, still gives those bytes; a byte load at the address of a wider store returns its low byte. -/
def Obligations.StoreThenLoadReturnsTheBytes : Prop :=
  ∀ (s t : State) (rs2 rs1 rd : RegIdx) (f : Nat → Nat), HypAllowed s → LittleEndian s → MemCanonical s → rd ≠ 0#5 →
    Distinct f 4 → TablesApart s (s.x rs1) .w f → BytesAt s (s.x rs1) .w .write (hypMode s) f →
    exec (.hsvW rs2 rs1) s = .next t →
    (BytesAt t (s.x rs1) .w .read (hypMode s) f →
      ∃ u, exec (.hlvW rd rs1) t = .next u ∧
        u.x rd = xlenCut s.cfg.mxlen (((s.x rs2).setWidth 32).signExtend 64)) ∧
    (BytesAt t (s.x rs1) .b .read (hypMode s) f →
      ∃ u, exec (.hlvBu rd rs1) t = .next u ∧ u.x rd = ((s.x rs2).setWidth 8).setWidth 64)

/-- 20_memory.md R65: with `misaligned_policy = trap` a misaligned HLV or HLVX raises LoadAddressMisaligned and a misaligned HSV
StoreAddressMisaligned, with the address in `mtval`. -/
def Obligations.MisalignedAccessesTrapUnderTheTrapPolicy : Prop :=
  ∀ (s : State) (i : Instr) (rs1 : RegIdx) (n : Width) (kind : AccessKind), hypOf i = some (rs1, n, kind) →
    i.wellFormed s.cfg.mxlen = true → HypAllowed s → s.cfg.misaligned = .trap → (s.x rs1).toNat % widthBytes n ≠ 0 →
    (kind = .write → 6 ∉ s.cfg.medeleg ∨ s.priv = .m) → (kind ≠ .write → 4 ∉ s.cfg.medeleg ∨ s.priv = .m) →
    ∃ t tr, exec i s = .next t ∧ FaultEffect tr (if kind = .write then 6 else 4) (s.x rs1) true none s t

/-- 43_hlv_hsv.md R135, 60_exceptions.md R160 to R165, 20_memory.md R65: an aligned HLV, HLVX or HSV that `Translate` stops with a
fault takes that trap: the guest virtual address in `mtval` with GVA = 1 although V was 0, its guest physical address in `mtval2`
or 0, the mode before it in MPV and MPP, nothing read or stored. A misaligned one under `split` of which some bytes fault takes the
fault of one of them, about that byte; nothing is read, and of a store some other bytes are written and stay written (as long as
these are no page-table bytes of the access's own translation). A step whose fetch `Translate` stops takes that trap: `mepc` is the
pc, and `mtval`, GVA and `mtval2` are about the portion that failed, which is the second one only where the first is let through
and announces a 32-bit instruction; GVA is V (the portions are log 30, that no store has written the first is log 24, and
addresses modulo 2^XLEN are log 44 and 45). -/
def Obligations.FaultingAccessesTrapWithTheGuestAddress : Prop :=
  (∀ (s : State) (i : Instr) (rs1 : RegIdx) (n : Width) (kind : AccessKind) (e : MemFault),
    hypOf i = some (rs1, n, kind) → i.wellFormed s.cfg.mxlen = true → HypAllowed s →
    (s.x rs1).toNat % widthBytes n = 0 →
    translate s (s.x rs1) (widthBytes n) kind (hypMode s) = .error (.fault e) →
    excCode e.exc ∉ s.cfg.medeleg ∨ s.priv = .m →
    ∃ t tr, exec i s = .next t ∧ FaultEffect tr (excCode e.exc) (s.x rs1) true e.gpa s t) ∧
  (∀ (s : State) (i : Instr) (rs1 : RegIdx) (n : Width) (kind : AccessKind) (f : Nat → Nat),
    hypOf i = some (rs1, n, kind) → i.wellFormed s.cfg.mxlen = true → HypAllowed s → LittleEndian s → MemCanonical s →
    BytesFault s (s.x rs1) n kind (hypMode s) f →
    ∃ t, exec i s = .next t ∧ SplitFaultEffect (s.x rs1) n kind (hypMode s) f
      (match storeSource i with | some rs2 => s.x rs2 | none => 0#64) s t) ∧
  (∀ (s : State) (k len : Nat) (at' : Word) (e : MemFault), s.env = [] → pendingInterrupt s = none →
    at' = xlenCut s.cfg.mxlen (s.pc + BitVec.ofNat 64 k) →
    ((s.cfg.variableLength = false ∧ k = 0 ∧ len = 4) ∨ (s.cfg.variableLength = true ∧ k = 0 ∧ len = 2) ∨
      (s.cfg.variableLength = true ∧ k = 2 ∧ len = 2 ∧
        ∃ pa, translate s (xlenCut s.cfg.mxlen (s.pc + 0#64)) 2 .execute s.mode = .ok pa ∧
          (∀ j < 2, physByte pa j ∉ s.stored) ∧ (s.byteAt (physByte pa 0)).extractLsb' 0 2 = 3#2 ∧
          (s.byteAt (physByte pa 0)).extractLsb' 2 3 ≠ 7#3)) →
    translate s at' len .execute s.mode = .error (.fault e) → excCode e.exc ∉ s.cfg.medeleg ∨ s.priv = .m →
    ∃ t tr, step s = .next t ∧ FaultEffect tr (excCode e.exc) at' s.v e.gpa s t ∧ (PcAligned s → t.mepc = s.pc))

/-! ## The effective mode and translation -/

/-- 20_memory.md R52 to R60: the effective mode of an explicit access: the six rows of Table 5.4, MPP = 2 without a meaning, and
HLV, HLVX, HSV by `hstatus.SPVP`. -/
def Obligations.EffectiveModeFollowsTheTable : Prop :=
  ∀ s : State,
    (s.mstatus.mprv = false → effMode .ordinary s = some { p := s.priv, v := s.v }) ∧
    (s.mstatus.mprv = true → s.mstatus.mpv = false → s.mstatus.mpp = 0#2 →
      effMode .ordinary s = some { p := .u, v := false }) ∧
    (s.mstatus.mprv = true → s.mstatus.mpv = false → s.mstatus.mpp = 1#2 →
      effMode .ordinary s = some { p := .s, v := false }) ∧
    (s.mstatus.mprv = true → s.mstatus.mpp = 3#2 → effMode .ordinary s = some { p := .m, v := false }) ∧
    (s.mstatus.mprv = true → s.mstatus.mpv = true → s.mstatus.mpp = 0#2 →
      effMode .ordinary s = some { p := .u, v := true }) ∧
    (s.mstatus.mprv = true → s.mstatus.mpv = true → s.mstatus.mpp = 1#2 →
      effMode .ordinary s = some { p := .s, v := true }) ∧
    (s.mstatus.mprv = true → s.mstatus.mpp = 2#2 →
      effMode .ordinary s = none ∧ ∀ a, ordinaryAccess a s = .refused .reservedMpp) ∧
    effMode .hyp s = some { p := if s.hstatus.spvp then .s else .u, v := true }

/-- 20_memory.md R60: MPRV, MPP and MPV do not bear on what an HLV, HLVX or HSV reads, stores or raises. -/
def Obligations.HypervisorAccessesIgnoreMprv : Prop :=
  ∀ (i : Instr) (q : RegIdx × Width × AccessKind) (s s' t : State) (mprv mpv : Bool) (mpp : BitVec 2), hypOf i = some q →
    s' = { s with mstatus := { s.mstatus with mprv := mprv, mpv := mpv, mpp := mpp } } → exec i s = .next t →
    ∃ t', exec i s' = .next t' ∧ SameRegs t t' ∧ SameMemory t t' ∧ t'.pc = t.pc ∧ t'.mode = t.mode ∧
      t'.mcause = t.mcause ∧ t'.mepc = t.mepc ∧ t'.mtval = t.mtval ∧ t'.mtval2 = t.mtval2 ∧ t'.mtinst = t.mtinst

/-- 20_memory.md R62, 43_hlv_hsv.md R135: through two stages, when the walks succeed, the level may touch the page and the
physical access is let through: a load needs both pages readable, `vsstatus.MXR` making an executable page readable at the VS stage only
and `mstatus.MXR` at both; HLVX needs both executable. Through one stage only `mstatus.MXR` acts. That a store needs both pages
writable and a fetch both executable is the model's presumption (log 7), and so is the form of a stage's answer (log 6). -/
def Obligations.MxrActsAsTheTableSays : Prop :=
  ∀ (s : State) (va : Word) (n : Nat) (p : Priv) (e : StageEntry), p ≠ .m →
    (∀ (g : StageEntry) (kind : AccessKind), s.vsEntry va n = some e →
      vsWalk s va kind { p := p, v := true } e.walk = none → userAllows kind p s.vsstatus.sum e.perm = true →
      s.gEntry (e.out + (va - e.base)) n = some g →
      physWalk s va kind { p := p, v := true } g.walk = none →
      (∃ pa, physical s (g.out + (e.out + (va - e.base) - g.base)) va n kind { p := p, v := true } = .ok pa) →
      ((∃ pa, translate s va n kind { p := p, v := true } = .ok pa) ↔
        match kind with
        | .read => (e.perm.r = true ∨ ((s.mstatus.mxr = true ∨ s.vsstatus.mxr = true) ∧ e.perm.x = true)) ∧
            (g.perm.r = true ∨ (s.mstatus.mxr = true ∧ g.perm.x = true))
        | .write => e.perm.w = true ∧ g.perm.w = true
        | .execute => e.perm.x = true ∧ g.perm.x = true
        | .executeAsRead => e.perm.x = true ∧ g.perm.x = true)) ∧
    (s.hsEntry va n = some e →
      physWalk s va .read { p := p, v := false } e.walk = none → userAllows .read p s.mstatus.sum e.perm = true →
      (∃ pa, physical s (e.out + (va - e.base)) va n .read { p := p, v := false } = .ok pa) →
      ((∃ pa, translate s va n .read { p := p, v := false } = .ok pa) ↔
        (e.perm.r = true ∨ (s.mstatus.mxr = true ∧ e.perm.x = true))))

/-- 20_memory.md R63: `mstatus.SUM` has no part in an access with V = 1, nor `vsstatus.SUM` in one with V = 0, nor either in a
U-level or VU-level access. A VS-level access to a user page is a page fault with `vsstatus.SUM` = 0, and with `vsstatus.SUM` = 1
goes on to the guest-physical stage where the page's permissions allow it; an HS-level one by `mstatus.SUM` likewise. That a fetch
from a user page faults whatever SUM is, which the words leave out here, is the model's presumption (log 7). -/
def Obligations.SumActsAtItsLevelOnly : Prop :=
  ∀ (s : State) (va : Word) (n : Nat) (kind : AccessKind) (p : Priv) (b : Bool), p ≠ .m →
    translate { s with mstatus := { s.mstatus with sum := b } } va n kind { p := p, v := true } =
      translate s va n kind { p := p, v := true } ∧
    translate { s with vsstatus := { s.vsstatus with sum := b } } va n kind { p := p, v := false } =
      translate s va n kind { p := p, v := false } ∧
    (∀ v, translate { s with mstatus := { s.mstatus with sum := b }, vsstatus := { s.vsstatus with sum := b } } va n kind
      { p := .u, v := v } = translate s va n kind { p := .u, v := v }) ∧
    (∀ e, s.vsEntry va n = some e →
      vsWalk s va kind { p := .s, v := true } e.walk = none → e.perm.u = true →
      (s.vsstatus.sum = false → translate s va n kind { p := .s, v := true } =
        .error (.fault (addrFault (pageFaultOf kind) va { p := .s, v := true }))) ∧
      (s.vsstatus.sum = true → kind ≠ .execute →
        permAllows kind (s.mstatus.mxr || s.vsstatus.mxr) e.perm = true →
        translate s va n kind { p := .s, v := true } =
          guestStage s (e.out + (va - e.base)) va n kind { p := .s, v := true })) ∧
    (∀ e, s.hsEntry va n = some e →
      physWalk s va kind { p := .s, v := false } e.walk = none → e.perm.u = true →
      (s.mstatus.sum = false → translate s va n kind { p := .s, v := false } =
        .error (.fault (addrFault (pageFaultOf kind) va { p := .s, v := false }))) ∧
      (s.mstatus.sum = true → kind ≠ .execute → permAllows kind s.mstatus.mxr e.perm = true →
        translate s va n kind { p := .s, v := false } =
          physical s (e.out + (va - e.base)) va n kind { p := .s, v := false }))

/-- 20_memory.md R68, 60_exceptions.md R162 to R165: every fault of `Translate` reports the address, and that it is a guest's exactly
when V = 1; HLVX reports load faults. A guest-page fault, and no other, carries a guest physical address, and comes only with
V = 1: that of the page-table entry whose reading failed, if it is an implicit VS-stage fault, and otherwise the one that the VS
stage gave for the address, which the guest-physical stage does not map or does not allow. That an implicit read needs the R bit
is the model's presumption (log 7). -/
def Obligations.TranslationFaultsReportTheirAddresses : Prop :=
  ∀ (s : State) (va : Word) (n : Nat) (kind : AccessKind) (md : Mode) (e : MemFault),
    translate s va n kind md = .error (.fault e) →
    e.tval = va ∧ e.tvalIsGva = md.v ∧
    excCode e.exc ∈ (match kind with
      | .read | .executeAsRead => [5, 13, 21]
      | .write => [7, 15, 23]
      | .execute => [1, 12, 20]) ∧
    (excCode e.exc ∉ [20, 21, 23] → e.gpa = none ∧ e.implicitVsStage = false) ∧
    (excCode e.exc ∈ [20, 21, 23] → md.v = true ∧
      ∃ ve gpa, s.vsEntry va n = some ve ∧ e.gpa = some gpa ∧
        if e.implicitVsStage = true then gpa ∈ ve.walk ∧
          ∀ g, s.gEntry gpa 1 = some g → g.perm.r = false
        else gpa = ve.out + (va - ve.base) ∧
          ∀ g, s.gEntry gpa n = some g → permAllows kind s.mstatus.mxr g.perm = false)

/-- 20_memory.md R52, R53 to R58, R64, R65; 60_exceptions.md R162: an ordinary load or store of any width that the environment
announces is performed in the effective mode that MPRV selects: a load extends its bytes, a store writes them. One that `Translate`
stops, and a misaligned one under the trap policy, takes its trap about its address, and one that is split the trap of a byte that
faults; GVA is 1 exactly when the effective V is 1. That such an access is an environment event for which nothing is fetched, that
it writes `rd` and moves the pc by 4, is the model's choice (log 9, 43), and so are an access of 8 bytes at MXLEN=32 (log 46) and
one past the end of the address space (log 45). -/
def Obligations.OrdinaryAccessesUseTheEffectiveMode : Prop :=
  ∀ (s : State) (rest : List EnvEvent) (a : OrdinaryAccess) (md : Mode) (f : Nat → Nat) (s₁ : State) (va : Word)
    (kind : AccessKind),
    s.env = .access a :: rest → pendingInterrupt s = none → effMode .ordinary s = some md → LittleEndian s →
    s₁ = { s with env := rest } → va = xlenCut s.cfg.mxlen a.addr → kind = (if a.isStore then .write else .read) →
    (a.isStore = false → BytesAt s va a.width kind md f →
      (a.width = .b → ∃ t, step s = .next t ∧
        LoadEffect a.rd (if a.signed then (s.byteAt (f 0)).signExtend 64 else (s.byteAt (f 0)).setWidth 64) s₁ t) ∧
      (∀ half : BitVec 16, half = s.byteAt (f 1) ++ s.byteAt (f 0) → a.width = .h →
        ∃ t, step s = .next t ∧ LoadEffect a.rd (if a.signed then half.signExtend 64 else half.setWidth 64) s₁ t) ∧
      (∀ word : BitVec 32, word = s.byteAt (f 3) ++ s.byteAt (f 2) ++ s.byteAt (f 1) ++ s.byteAt (f 0) →
        (a.width = .w → ∃ t, step s = .next t ∧
          LoadEffect a.rd (if a.signed then word.signExtend 64 else word.setWidth 64) s₁ t) ∧
        (a.width = .d → ∃ t, step s = .next t ∧
          LoadEffect a.rd (s.byteAt (f 7) ++ s.byteAt (f 6) ++ s.byteAt (f 5) ++ s.byteAt (f 4) ++ word) s₁ t))) ∧
    (a.isStore = true → MemCanonical s → Distinct f (widthBytes a.width) → TablesApart s va a.width f →
      BytesAt s va a.width kind md f →
      ∃ t, step s = .next t ∧ StoreEffect f (widthBytes a.width) a.value s₁ t) ∧
    (∀ e, va.toNat % widthBytes a.width = 0 → translate s va (widthBytes a.width) kind md = .error (.fault e) →
      excCode e.exc ∉ s.cfg.medeleg ∨ s.priv = .m →
      ∃ t tr, step s = .next t ∧ FaultEffect tr (excCode e.exc) va md.v e.gpa s₁ t) ∧
    (∀ code, code = (if a.isStore then 6 else 4) → va.toNat % widthBytes a.width ≠ 0 → s.cfg.misaligned = .trap →
      code ∉ s.cfg.medeleg ∨ s.priv = .m →
      ∃ t tr, step s = .next t ∧ FaultEffect tr code va md.v none s₁ t) ∧
    (MemCanonical s → BytesFault s va a.width kind md f →
      ∃ t, step s = .next t ∧ SplitFaultEffect va a.width kind md f a.value s₁ t)
end

