-- ==== Sys2Proof/Laws/State.lean ====
section
/-! SUPPORT. What each named update of the state does to each of its fields, so that no proof unfolds a record update. -/

namespace Sys2Proof.Machine

/-! ## advance -/

@[simp] theorem advance_cfg (s : State) : s.advance.cfg = s.cfg := rfl
@[simp] theorem advance_priv (s : State) : s.advance.priv = s.priv := rfl
@[simp] theorem advance_v (s : State) : s.advance.v = s.v := rfl
@[simp] theorem advance_pc (s : State) : s.advance.pc = xlenCut s.cfg.mxlen (s.pc + 4#64) := rfl
@[simp] theorem advance_regs (s : State) : s.advance.regs = s.regs := rfl
@[simp] theorem advance_mstatus (s : State) : s.advance.mstatus = s.mstatus := rfl
@[simp] theorem advance_mideleg (s : State) : s.advance.mideleg = s.mideleg := rfl
@[simp] theorem advance_pend (s : State) : s.advance.pend = s.pend := rfl
@[simp] theorem advance_enab (s : State) : s.advance.enab = s.enab := rfl
@[simp] theorem advance_mtval (s : State) : s.advance.mtval = s.mtval := rfl
@[simp] theorem advance_mtval2 (s : State) : s.advance.mtval2 = s.mtval2 := rfl
@[simp] theorem advance_mtinst (s : State) : s.advance.mtinst = s.mtinst := rfl
@[simp] theorem advance_mepc (s : State) : s.advance.mepc = s.mepc := rfl
@[simp] theorem advance_mcause (s : State) : s.advance.mcause = s.mcause := rfl
@[simp] theorem advance_mtvec (s : State) : s.advance.mtvec = s.mtvec := rfl
@[simp] theorem advance_mscratch (s : State) : s.advance.mscratch = s.mscratch := rfl
@[simp] theorem advance_hstatus (s : State) : s.advance.hstatus = s.hstatus := rfl
@[simp] theorem advance_vsstatus (s : State) : s.advance.vsstatus = s.vsstatus := rfl
@[simp] theorem advance_hgatp (s : State) : s.advance.hgatp = s.hgatp := rfl
@[simp] theorem advance_vsatp (s : State) : s.advance.vsatp = s.vsatp := rfl
@[simp] theorem advance_trans (s : State) : s.advance.trans = s.trans := rfl
@[simp] theorem advance_mem (s : State) : s.advance.mem = s.mem := rfl
@[simp] theorem advance_stored (s : State) : s.advance.stored = s.stored := rfl
@[simp] theorem advance_env (s : State) : s.advance.env = s.env := rfl
@[simp] theorem advance_draws (s : State) : s.advance.draws = s.draws := rfl

/-! ## bumpDraws -/

@[simp] theorem bumpDraws_cfg (s : State) : s.bumpDraws.cfg = s.cfg := rfl
@[simp] theorem bumpDraws_priv (s : State) : s.bumpDraws.priv = s.priv := rfl
@[simp] theorem bumpDraws_v (s : State) : s.bumpDraws.v = s.v := rfl
@[simp] theorem bumpDraws_pc (s : State) : s.bumpDraws.pc = s.pc := rfl
@[simp] theorem bumpDraws_regs (s : State) : s.bumpDraws.regs = s.regs := rfl
@[simp] theorem bumpDraws_mstatus (s : State) : s.bumpDraws.mstatus = s.mstatus := rfl
@[simp] theorem bumpDraws_mideleg (s : State) : s.bumpDraws.mideleg = s.mideleg := rfl
@[simp] theorem bumpDraws_pend (s : State) : s.bumpDraws.pend = s.pend := rfl
@[simp] theorem bumpDraws_enab (s : State) : s.bumpDraws.enab = s.enab := rfl
@[simp] theorem bumpDraws_mtval (s : State) : s.bumpDraws.mtval = s.mtval := rfl
@[simp] theorem bumpDraws_mtval2 (s : State) : s.bumpDraws.mtval2 = s.mtval2 := rfl
@[simp] theorem bumpDraws_mtinst (s : State) : s.bumpDraws.mtinst = s.mtinst := rfl
@[simp] theorem bumpDraws_mepc (s : State) : s.bumpDraws.mepc = s.mepc := rfl
@[simp] theorem bumpDraws_mcause (s : State) : s.bumpDraws.mcause = s.mcause := rfl
@[simp] theorem bumpDraws_mtvec (s : State) : s.bumpDraws.mtvec = s.mtvec := rfl
@[simp] theorem bumpDraws_mscratch (s : State) : s.bumpDraws.mscratch = s.mscratch := rfl
@[simp] theorem bumpDraws_hstatus (s : State) : s.bumpDraws.hstatus = s.hstatus := rfl
@[simp] theorem bumpDraws_vsstatus (s : State) : s.bumpDraws.vsstatus = s.vsstatus := rfl
@[simp] theorem bumpDraws_hgatp (s : State) : s.bumpDraws.hgatp = s.hgatp := rfl
@[simp] theorem bumpDraws_vsatp (s : State) : s.bumpDraws.vsatp = s.vsatp := rfl
@[simp] theorem bumpDraws_trans (s : State) : s.bumpDraws.trans = s.trans := rfl
@[simp] theorem bumpDraws_mem (s : State) : s.bumpDraws.mem = s.mem := rfl
@[simp] theorem bumpDraws_stored (s : State) : s.bumpDraws.stored = s.stored := rfl
@[simp] theorem bumpDraws_env (s : State) : s.bumpDraws.env = s.env := rfl
@[simp] theorem bumpDraws_draws (s : State) : s.bumpDraws.draws = s.draws + 1 := rfl

/-! ## storeByte -/

@[simp] theorem storeByte_cfg (s : State) (a : Nat) (y : Byte) : (s.storeByte a y).cfg = s.cfg := rfl
@[simp] theorem storeByte_priv (s : State) (a : Nat) (y : Byte) : (s.storeByte a y).priv = s.priv := rfl
@[simp] theorem storeByte_v (s : State) (a : Nat) (y : Byte) : (s.storeByte a y).v = s.v := rfl
@[simp] theorem storeByte_pc (s : State) (a : Nat) (y : Byte) : (s.storeByte a y).pc = s.pc := rfl
@[simp] theorem storeByte_regs (s : State) (a : Nat) (y : Byte) : (s.storeByte a y).regs = s.regs := rfl
@[simp] theorem storeByte_mstatus (s : State) (a : Nat) (y : Byte) : (s.storeByte a y).mstatus = s.mstatus := rfl
@[simp] theorem storeByte_mideleg (s : State) (a : Nat) (y : Byte) : (s.storeByte a y).mideleg = s.mideleg := rfl
@[simp] theorem storeByte_pend (s : State) (a : Nat) (y : Byte) : (s.storeByte a y).pend = s.pend := rfl
@[simp] theorem storeByte_enab (s : State) (a : Nat) (y : Byte) : (s.storeByte a y).enab = s.enab := rfl
@[simp] theorem storeByte_mtval (s : State) (a : Nat) (y : Byte) : (s.storeByte a y).mtval = s.mtval := rfl
@[simp] theorem storeByte_mtval2 (s : State) (a : Nat) (y : Byte) : (s.storeByte a y).mtval2 = s.mtval2 := rfl
@[simp] theorem storeByte_mtinst (s : State) (a : Nat) (y : Byte) : (s.storeByte a y).mtinst = s.mtinst := rfl
@[simp] theorem storeByte_mepc (s : State) (a : Nat) (y : Byte) : (s.storeByte a y).mepc = s.mepc := rfl
@[simp] theorem storeByte_mcause (s : State) (a : Nat) (y : Byte) : (s.storeByte a y).mcause = s.mcause := rfl
@[simp] theorem storeByte_mtvec (s : State) (a : Nat) (y : Byte) : (s.storeByte a y).mtvec = s.mtvec := rfl
@[simp] theorem storeByte_mscratch (s : State) (a : Nat) (y : Byte) : (s.storeByte a y).mscratch = s.mscratch := rfl
@[simp] theorem storeByte_hstatus (s : State) (a : Nat) (y : Byte) : (s.storeByte a y).hstatus = s.hstatus := rfl
@[simp] theorem storeByte_vsstatus (s : State) (a : Nat) (y : Byte) : (s.storeByte a y).vsstatus = s.vsstatus := rfl
@[simp] theorem storeByte_hgatp (s : State) (a : Nat) (y : Byte) : (s.storeByte a y).hgatp = s.hgatp := rfl
@[simp] theorem storeByte_vsatp (s : State) (a : Nat) (y : Byte) : (s.storeByte a y).vsatp = s.vsatp := rfl
@[simp] theorem storeByte_trans (s : State) (a : Nat) (y : Byte) : (s.storeByte a y).trans = s.trans := rfl
@[simp] theorem storeByte_mem (s : State) (a : Nat) (y : Byte) : (s.storeByte a y).mem = s.mem.write a y := rfl
@[simp] theorem storeByte_stored (s : State) (a : Nat) (y : Byte) : (s.storeByte a y).stored = insertAddr a s.stored := rfl
@[simp] theorem storeByte_env (s : State) (a : Nat) (y : Byte) : (s.storeByte a y).env = s.env := rfl
@[simp] theorem storeByte_draws (s : State) (a : Nat) (y : Byte) : (s.storeByte a y).draws = s.draws := rfl

/-! ## placeByte -/

@[simp] theorem placeByte_cfg (s : State) (a : Nat) (y : Byte) : (placeByte a y s).cfg = s.cfg := rfl
@[simp] theorem placeByte_priv (s : State) (a : Nat) (y : Byte) : (placeByte a y s).priv = s.priv := rfl
@[simp] theorem placeByte_v (s : State) (a : Nat) (y : Byte) : (placeByte a y s).v = s.v := rfl
@[simp] theorem placeByte_pc (s : State) (a : Nat) (y : Byte) : (placeByte a y s).pc = s.pc := rfl
@[simp] theorem placeByte_regs (s : State) (a : Nat) (y : Byte) : (placeByte a y s).regs = s.regs := rfl
@[simp] theorem placeByte_mstatus (s : State) (a : Nat) (y : Byte) : (placeByte a y s).mstatus = s.mstatus := rfl
@[simp] theorem placeByte_mideleg (s : State) (a : Nat) (y : Byte) : (placeByte a y s).mideleg = s.mideleg := rfl
@[simp] theorem placeByte_pend (s : State) (a : Nat) (y : Byte) : (placeByte a y s).pend = s.pend := rfl
@[simp] theorem placeByte_enab (s : State) (a : Nat) (y : Byte) : (placeByte a y s).enab = s.enab := rfl
@[simp] theorem placeByte_mtval (s : State) (a : Nat) (y : Byte) : (placeByte a y s).mtval = s.mtval := rfl
@[simp] theorem placeByte_mtval2 (s : State) (a : Nat) (y : Byte) : (placeByte a y s).mtval2 = s.mtval2 := rfl
@[simp] theorem placeByte_mtinst (s : State) (a : Nat) (y : Byte) : (placeByte a y s).mtinst = s.mtinst := rfl
@[simp] theorem placeByte_mepc (s : State) (a : Nat) (y : Byte) : (placeByte a y s).mepc = s.mepc := rfl
@[simp] theorem placeByte_mcause (s : State) (a : Nat) (y : Byte) : (placeByte a y s).mcause = s.mcause := rfl
@[simp] theorem placeByte_mtvec (s : State) (a : Nat) (y : Byte) : (placeByte a y s).mtvec = s.mtvec := rfl
@[simp] theorem placeByte_mscratch (s : State) (a : Nat) (y : Byte) : (placeByte a y s).mscratch = s.mscratch := rfl
@[simp] theorem placeByte_hstatus (s : State) (a : Nat) (y : Byte) : (placeByte a y s).hstatus = s.hstatus := rfl
@[simp] theorem placeByte_vsstatus (s : State) (a : Nat) (y : Byte) : (placeByte a y s).vsstatus = s.vsstatus := rfl
@[simp] theorem placeByte_hgatp (s : State) (a : Nat) (y : Byte) : (placeByte a y s).hgatp = s.hgatp := rfl
@[simp] theorem placeByte_vsatp (s : State) (a : Nat) (y : Byte) : (placeByte a y s).vsatp = s.vsatp := rfl
@[simp] theorem placeByte_trans (s : State) (a : Nat) (y : Byte) : (placeByte a y s).trans = s.trans := rfl
@[simp] theorem placeByte_mem (s : State) (a : Nat) (y : Byte) : (placeByte a y s).mem = s.mem.write a y := rfl
@[simp] theorem placeByte_stored (s : State) (a : Nat) (y : Byte) : (placeByte a y s).stored = s.stored.filter fun b => b != a := rfl
@[simp] theorem placeByte_env (s : State) (a : Nat) (y : Byte) : (placeByte a y s).env = s.env := rfl
@[simp] theorem placeByte_draws (s : State) (a : Nat) (y : Byte) : (placeByte a y s).draws = s.draws := rfl

/-! ## setPending -/

@[simp] theorem setPending_cfg (s : State) (bits : BitVec 16) : (setPending bits s).cfg = s.cfg := rfl
@[simp] theorem setPending_priv (s : State) (bits : BitVec 16) : (setPending bits s).priv = s.priv := rfl
@[simp] theorem setPending_v (s : State) (bits : BitVec 16) : (setPending bits s).v = s.v := rfl
@[simp] theorem setPending_pc (s : State) (bits : BitVec 16) : (setPending bits s).pc = s.pc := rfl
@[simp] theorem setPending_regs (s : State) (bits : BitVec 16) : (setPending bits s).regs = s.regs := rfl
@[simp] theorem setPending_mstatus (s : State) (bits : BitVec 16) : (setPending bits s).mstatus = s.mstatus := rfl
@[simp] theorem setPending_mideleg (s : State) (bits : BitVec 16) : (setPending bits s).mideleg = s.mideleg := rfl
@[simp] theorem setPending_pend (s : State) (bits : BitVec 16) : (setPending bits s).pend = bits := rfl
@[simp] theorem setPending_enab (s : State) (bits : BitVec 16) : (setPending bits s).enab = s.enab := rfl
@[simp] theorem setPending_mtval (s : State) (bits : BitVec 16) : (setPending bits s).mtval = s.mtval := rfl
@[simp] theorem setPending_mtval2 (s : State) (bits : BitVec 16) : (setPending bits s).mtval2 = s.mtval2 := rfl
@[simp] theorem setPending_mtinst (s : State) (bits : BitVec 16) : (setPending bits s).mtinst = s.mtinst := rfl
@[simp] theorem setPending_mepc (s : State) (bits : BitVec 16) : (setPending bits s).mepc = s.mepc := rfl
@[simp] theorem setPending_mcause (s : State) (bits : BitVec 16) : (setPending bits s).mcause = s.mcause := rfl
@[simp] theorem setPending_mtvec (s : State) (bits : BitVec 16) : (setPending bits s).mtvec = s.mtvec := rfl
@[simp] theorem setPending_mscratch (s : State) (bits : BitVec 16) : (setPending bits s).mscratch = s.mscratch := rfl
@[simp] theorem setPending_hstatus (s : State) (bits : BitVec 16) : (setPending bits s).hstatus = s.hstatus := rfl
@[simp] theorem setPending_vsstatus (s : State) (bits : BitVec 16) : (setPending bits s).vsstatus = s.vsstatus := rfl
@[simp] theorem setPending_hgatp (s : State) (bits : BitVec 16) : (setPending bits s).hgatp = s.hgatp := rfl
@[simp] theorem setPending_vsatp (s : State) (bits : BitVec 16) : (setPending bits s).vsatp = s.vsatp := rfl
@[simp] theorem setPending_trans (s : State) (bits : BitVec 16) : (setPending bits s).trans = s.trans := rfl
@[simp] theorem setPending_mem (s : State) (bits : BitVec 16) : (setPending bits s).mem = s.mem := rfl
@[simp] theorem setPending_stored (s : State) (bits : BitVec 16) : (setPending bits s).stored = s.stored := rfl
@[simp] theorem setPending_env (s : State) (bits : BitVec 16) : (setPending bits s).env = s.env := rfl
@[simp] theorem setPending_draws (s : State) (bits : BitVec 16) : (setPending bits s).draws = s.draws := rfl

/-! ## setTranslation -/

@[simp] theorem setTranslation_cfg (s : State) (tr : Translation) : (setTranslation tr s).cfg = s.cfg := rfl
@[simp] theorem setTranslation_priv (s : State) (tr : Translation) : (setTranslation tr s).priv = s.priv := rfl
@[simp] theorem setTranslation_v (s : State) (tr : Translation) : (setTranslation tr s).v = s.v := rfl
@[simp] theorem setTranslation_pc (s : State) (tr : Translation) : (setTranslation tr s).pc = s.pc := rfl
@[simp] theorem setTranslation_regs (s : State) (tr : Translation) : (setTranslation tr s).regs = s.regs := rfl
@[simp] theorem setTranslation_mstatus (s : State) (tr : Translation) : (setTranslation tr s).mstatus = s.mstatus := rfl
@[simp] theorem setTranslation_mideleg (s : State) (tr : Translation) : (setTranslation tr s).mideleg = s.mideleg := rfl
@[simp] theorem setTranslation_pend (s : State) (tr : Translation) : (setTranslation tr s).pend = s.pend := rfl
@[simp] theorem setTranslation_enab (s : State) (tr : Translation) : (setTranslation tr s).enab = s.enab := rfl
@[simp] theorem setTranslation_mtval (s : State) (tr : Translation) : (setTranslation tr s).mtval = s.mtval := rfl
@[simp] theorem setTranslation_mtval2 (s : State) (tr : Translation) : (setTranslation tr s).mtval2 = s.mtval2 := rfl
@[simp] theorem setTranslation_mtinst (s : State) (tr : Translation) : (setTranslation tr s).mtinst = s.mtinst := rfl
@[simp] theorem setTranslation_mepc (s : State) (tr : Translation) : (setTranslation tr s).mepc = s.mepc := rfl
@[simp] theorem setTranslation_mcause (s : State) (tr : Translation) : (setTranslation tr s).mcause = s.mcause := rfl
@[simp] theorem setTranslation_mtvec (s : State) (tr : Translation) : (setTranslation tr s).mtvec = s.mtvec := rfl
@[simp] theorem setTranslation_mscratch (s : State) (tr : Translation) : (setTranslation tr s).mscratch = s.mscratch := rfl
@[simp] theorem setTranslation_hstatus (s : State) (tr : Translation) : (setTranslation tr s).hstatus = s.hstatus := rfl
@[simp] theorem setTranslation_vsstatus (s : State) (tr : Translation) : (setTranslation tr s).vsstatus = s.vsstatus := rfl
@[simp] theorem setTranslation_hgatp (s : State) (tr : Translation) : (setTranslation tr s).hgatp = s.hgatp := rfl
@[simp] theorem setTranslation_vsatp (s : State) (tr : Translation) : (setTranslation tr s).vsatp = s.vsatp := rfl
@[simp] theorem setTranslation_trans (s : State) (tr : Translation) : (setTranslation tr s).trans = tr := rfl
@[simp] theorem setTranslation_mem (s : State) (tr : Translation) : (setTranslation tr s).mem = s.mem := rfl
@[simp] theorem setTranslation_stored (s : State) (tr : Translation) : (setTranslation tr s).stored = s.stored := rfl
@[simp] theorem setTranslation_env (s : State) (tr : Translation) : (setTranslation tr s).env = s.env := rfl
@[simp] theorem setTranslation_draws (s : State) (tr : Translation) : (setTranslation tr s).draws = s.draws := rfl

/-! ## enterM -/

@[simp] theorem enterM_cfg (s : State) (t : Trap) : (enterM t s).cfg = s.cfg := rfl
@[simp] theorem enterM_priv (s : State) (t : Trap) : (enterM t s).priv = .m := rfl
@[simp] theorem enterM_v (s : State) (t : Trap) : (enterM t s).v = false := rfl
@[simp] theorem enterM_pc (s : State) (t : Trap) : (enterM t s).pc = trapPc s.cfg.mxlen s.mtvec t := rfl
@[simp] theorem enterM_regs (s : State) (t : Trap) : (enterM t s).regs = s.regs := rfl
@[simp] theorem enterM_mstatus (s : State) (t : Trap) : (enterM t s).mstatus = mstatusTrap s t := rfl
@[simp] theorem enterM_mideleg (s : State) (t : Trap) : (enterM t s).mideleg = s.mideleg := rfl
@[simp] theorem enterM_pend (s : State) (t : Trap) : (enterM t s).pend = s.pend := rfl
@[simp] theorem enterM_enab (s : State) (t : Trap) : (enterM t s).enab = s.enab := rfl
@[simp] theorem enterM_mtval (s : State) (t : Trap) : (enterM t s).mtval = xlenCut s.cfg.mxlen t.tval := rfl
@[simp] theorem enterM_mtval2 (s : State) (t : Trap) : (enterM t s).mtval2 = mtval2Of s.cfg t s.draws := rfl
@[simp] theorem enterM_mtinst (s : State) (t : Trap) : (enterM t s).mtinst = mtinstOf s.cfg t s.draws := rfl
@[simp] theorem enterM_mepc (s : State) (t : Trap) : (enterM t s).mepc = xlenCut s.cfg.mxlen (instrAddr s.cfg t.epc) := rfl
@[simp] theorem enterM_mcause (s : State) (t : Trap) : (enterM t s).mcause = mcauseOf s.cfg.mxlen t := rfl
@[simp] theorem enterM_mtvec (s : State) (t : Trap) : (enterM t s).mtvec = s.mtvec := rfl
@[simp] theorem enterM_mscratch (s : State) (t : Trap) : (enterM t s).mscratch = s.mscratch := rfl
@[simp] theorem enterM_hstatus (s : State) (t : Trap) : (enterM t s).hstatus = s.hstatus := rfl
@[simp] theorem enterM_vsstatus (s : State) (t : Trap) : (enterM t s).vsstatus = s.vsstatus := rfl
@[simp] theorem enterM_hgatp (s : State) (t : Trap) : (enterM t s).hgatp = s.hgatp := rfl
@[simp] theorem enterM_vsatp (s : State) (t : Trap) : (enterM t s).vsatp = s.vsatp := rfl
@[simp] theorem enterM_trans (s : State) (t : Trap) : (enterM t s).trans = s.trans := rfl
@[simp] theorem enterM_mem (s : State) (t : Trap) : (enterM t s).mem = s.mem := rfl
@[simp] theorem enterM_stored (s : State) (t : Trap) : (enterM t s).stored = s.stored := rfl
@[simp] theorem enterM_env (s : State) (t : Trap) : (enterM t s).env = s.env := rfl
@[simp] theorem enterM_draws (s : State) (t : Trap) : (enterM t s).draws = s.draws + 1 := rfl

/-! ## returnTo -/

@[simp] theorem returnTo_cfg (s : State) (p : Priv) : (returnTo p s).cfg = s.cfg := rfl
@[simp] theorem returnTo_priv (s : State) (p : Priv) : (returnTo p s).priv = p := rfl
@[simp] theorem returnTo_v (s : State) (p : Priv) : (returnTo p s).v = (if p = .m then false else s.mstatus.mpv) := rfl
@[simp] theorem returnTo_pc (s : State) (p : Priv) : (returnTo p s).pc = s.mepcRead := rfl
@[simp] theorem returnTo_regs (s : State) (p : Priv) : (returnTo p s).regs = s.regs := rfl
@[simp] theorem returnTo_mstatus (s : State) (p : Priv) : (returnTo p s).mstatus = mstatusReturn s.cfg p s.mstatus := rfl
@[simp] theorem returnTo_mideleg (s : State) (p : Priv) : (returnTo p s).mideleg = s.mideleg := rfl
@[simp] theorem returnTo_pend (s : State) (p : Priv) : (returnTo p s).pend = s.pend := rfl
@[simp] theorem returnTo_enab (s : State) (p : Priv) : (returnTo p s).enab = s.enab := rfl
@[simp] theorem returnTo_mtval (s : State) (p : Priv) : (returnTo p s).mtval = s.mtval := rfl
@[simp] theorem returnTo_mtval2 (s : State) (p : Priv) : (returnTo p s).mtval2 = s.mtval2 := rfl
@[simp] theorem returnTo_mtinst (s : State) (p : Priv) : (returnTo p s).mtinst = s.mtinst := rfl
@[simp] theorem returnTo_mepc (s : State) (p : Priv) : (returnTo p s).mepc = s.mepc := rfl
@[simp] theorem returnTo_mcause (s : State) (p : Priv) : (returnTo p s).mcause = s.mcause := rfl
@[simp] theorem returnTo_mtvec (s : State) (p : Priv) : (returnTo p s).mtvec = s.mtvec := rfl
@[simp] theorem returnTo_mscratch (s : State) (p : Priv) : (returnTo p s).mscratch = s.mscratch := rfl
@[simp] theorem returnTo_hstatus (s : State) (p : Priv) : (returnTo p s).hstatus = s.hstatus := rfl
@[simp] theorem returnTo_vsstatus (s : State) (p : Priv) : (returnTo p s).vsstatus = s.vsstatus := rfl
@[simp] theorem returnTo_hgatp (s : State) (p : Priv) : (returnTo p s).hgatp = s.hgatp := rfl
@[simp] theorem returnTo_vsatp (s : State) (p : Priv) : (returnTo p s).vsatp = s.vsatp := rfl
@[simp] theorem returnTo_trans (s : State) (p : Priv) : (returnTo p s).trans = s.trans := rfl
@[simp] theorem returnTo_mem (s : State) (p : Priv) : (returnTo p s).mem = s.mem := rfl
@[simp] theorem returnTo_stored (s : State) (p : Priv) : (returnTo p s).stored = s.stored := rfl
@[simp] theorem returnTo_env (s : State) (p : Priv) : (returnTo p s).env = s.env := rfl
@[simp] theorem returnTo_draws (s : State) (p : Priv) : (returnTo p s).draws = s.draws := rfl

/-! ## setX -/

@[simp] theorem setX_cfg (s : State) (i : RegIdx) (a : Word) : (s.setX i a).cfg = s.cfg := by
  unfold State.setX; split <;> rfl
@[simp] theorem setX_priv (s : State) (i : RegIdx) (a : Word) : (s.setX i a).priv = s.priv := by
  unfold State.setX; split <;> rfl
@[simp] theorem setX_v (s : State) (i : RegIdx) (a : Word) : (s.setX i a).v = s.v := by
  unfold State.setX; split <;> rfl
@[simp] theorem setX_pc (s : State) (i : RegIdx) (a : Word) : (s.setX i a).pc = s.pc := by
  unfold State.setX; split <;> rfl
@[simp] theorem setX_mstatus (s : State) (i : RegIdx) (a : Word) : (s.setX i a).mstatus = s.mstatus := by
  unfold State.setX; split <;> rfl
@[simp] theorem setX_mideleg (s : State) (i : RegIdx) (a : Word) : (s.setX i a).mideleg = s.mideleg := by
  unfold State.setX; split <;> rfl
@[simp] theorem setX_pend (s : State) (i : RegIdx) (a : Word) : (s.setX i a).pend = s.pend := by
  unfold State.setX; split <;> rfl
@[simp] theorem setX_enab (s : State) (i : RegIdx) (a : Word) : (s.setX i a).enab = s.enab := by
  unfold State.setX; split <;> rfl
@[simp] theorem setX_mtval (s : State) (i : RegIdx) (a : Word) : (s.setX i a).mtval = s.mtval := by
  unfold State.setX; split <;> rfl
@[simp] theorem setX_mtval2 (s : State) (i : RegIdx) (a : Word) : (s.setX i a).mtval2 = s.mtval2 := by
  unfold State.setX; split <;> rfl
@[simp] theorem setX_mtinst (s : State) (i : RegIdx) (a : Word) : (s.setX i a).mtinst = s.mtinst := by
  unfold State.setX; split <;> rfl
@[simp] theorem setX_mepc (s : State) (i : RegIdx) (a : Word) : (s.setX i a).mepc = s.mepc := by
  unfold State.setX; split <;> rfl
@[simp] theorem setX_mcause (s : State) (i : RegIdx) (a : Word) : (s.setX i a).mcause = s.mcause := by
  unfold State.setX; split <;> rfl
@[simp] theorem setX_mtvec (s : State) (i : RegIdx) (a : Word) : (s.setX i a).mtvec = s.mtvec := by
  unfold State.setX; split <;> rfl
@[simp] theorem setX_mscratch (s : State) (i : RegIdx) (a : Word) : (s.setX i a).mscratch = s.mscratch := by
  unfold State.setX; split <;> rfl
@[simp] theorem setX_hstatus (s : State) (i : RegIdx) (a : Word) : (s.setX i a).hstatus = s.hstatus := by
  unfold State.setX; split <;> rfl
@[simp] theorem setX_vsstatus (s : State) (i : RegIdx) (a : Word) : (s.setX i a).vsstatus = s.vsstatus := by
  unfold State.setX; split <;> rfl
@[simp] theorem setX_hgatp (s : State) (i : RegIdx) (a : Word) : (s.setX i a).hgatp = s.hgatp := by
  unfold State.setX; split <;> rfl
@[simp] theorem setX_vsatp (s : State) (i : RegIdx) (a : Word) : (s.setX i a).vsatp = s.vsatp := by
  unfold State.setX; split <;> rfl
@[simp] theorem setX_trans (s : State) (i : RegIdx) (a : Word) : (s.setX i a).trans = s.trans := by
  unfold State.setX; split <;> rfl
@[simp] theorem setX_mem (s : State) (i : RegIdx) (a : Word) : (s.setX i a).mem = s.mem := by
  unfold State.setX; split <;> rfl
@[simp] theorem setX_stored (s : State) (i : RegIdx) (a : Word) : (s.setX i a).stored = s.stored := by
  unfold State.setX; split <;> rfl
@[simp] theorem setX_env (s : State) (i : RegIdx) (a : Word) : (s.setX i a).env = s.env := by
  unfold State.setX; split <;> rfl
@[simp] theorem setX_draws (s : State) (i : RegIdx) (a : Word) : (s.setX i a).draws = s.draws := by
  unfold State.setX; split <;> rfl

/-! ## drawOrder -/

@[simp] theorem drawOrder_cfg (s : State) (va : Word) (n : Width) : (drawOrder va n s).cfg = s.cfg := by
  unfold drawOrder; split <;> rfl
@[simp] theorem drawOrder_priv (s : State) (va : Word) (n : Width) : (drawOrder va n s).priv = s.priv := by
  unfold drawOrder; split <;> rfl
@[simp] theorem drawOrder_v (s : State) (va : Word) (n : Width) : (drawOrder va n s).v = s.v := by
  unfold drawOrder; split <;> rfl
@[simp] theorem drawOrder_pc (s : State) (va : Word) (n : Width) : (drawOrder va n s).pc = s.pc := by
  unfold drawOrder; split <;> rfl
@[simp] theorem drawOrder_regs (s : State) (va : Word) (n : Width) : (drawOrder va n s).regs = s.regs := by
  unfold drawOrder; split <;> rfl
@[simp] theorem drawOrder_mstatus (s : State) (va : Word) (n : Width) : (drawOrder va n s).mstatus = s.mstatus := by
  unfold drawOrder; split <;> rfl
@[simp] theorem drawOrder_mideleg (s : State) (va : Word) (n : Width) : (drawOrder va n s).mideleg = s.mideleg := by
  unfold drawOrder; split <;> rfl
@[simp] theorem drawOrder_pend (s : State) (va : Word) (n : Width) : (drawOrder va n s).pend = s.pend := by
  unfold drawOrder; split <;> rfl
@[simp] theorem drawOrder_enab (s : State) (va : Word) (n : Width) : (drawOrder va n s).enab = s.enab := by
  unfold drawOrder; split <;> rfl
@[simp] theorem drawOrder_mtval (s : State) (va : Word) (n : Width) : (drawOrder va n s).mtval = s.mtval := by
  unfold drawOrder; split <;> rfl
@[simp] theorem drawOrder_mtval2 (s : State) (va : Word) (n : Width) : (drawOrder va n s).mtval2 = s.mtval2 := by
  unfold drawOrder; split <;> rfl
@[simp] theorem drawOrder_mtinst (s : State) (va : Word) (n : Width) : (drawOrder va n s).mtinst = s.mtinst := by
  unfold drawOrder; split <;> rfl
@[simp] theorem drawOrder_mepc (s : State) (va : Word) (n : Width) : (drawOrder va n s).mepc = s.mepc := by
  unfold drawOrder; split <;> rfl
@[simp] theorem drawOrder_mcause (s : State) (va : Word) (n : Width) : (drawOrder va n s).mcause = s.mcause := by
  unfold drawOrder; split <;> rfl
@[simp] theorem drawOrder_mtvec (s : State) (va : Word) (n : Width) : (drawOrder va n s).mtvec = s.mtvec := by
  unfold drawOrder; split <;> rfl
@[simp] theorem drawOrder_mscratch (s : State) (va : Word) (n : Width) : (drawOrder va n s).mscratch = s.mscratch := by
  unfold drawOrder; split <;> rfl
@[simp] theorem drawOrder_hstatus (s : State) (va : Word) (n : Width) : (drawOrder va n s).hstatus = s.hstatus := by
  unfold drawOrder; split <;> rfl
@[simp] theorem drawOrder_vsstatus (s : State) (va : Word) (n : Width) : (drawOrder va n s).vsstatus = s.vsstatus := by
  unfold drawOrder; split <;> rfl
@[simp] theorem drawOrder_hgatp (s : State) (va : Word) (n : Width) : (drawOrder va n s).hgatp = s.hgatp := by
  unfold drawOrder; split <;> rfl
@[simp] theorem drawOrder_vsatp (s : State) (va : Word) (n : Width) : (drawOrder va n s).vsatp = s.vsatp := by
  unfold drawOrder; split <;> rfl
@[simp] theorem drawOrder_trans (s : State) (va : Word) (n : Width) : (drawOrder va n s).trans = s.trans := by
  unfold drawOrder; split <;> rfl
@[simp] theorem drawOrder_mem (s : State) (va : Word) (n : Width) : (drawOrder va n s).mem = s.mem := by
  unfold drawOrder; split <;> rfl
@[simp] theorem drawOrder_stored (s : State) (va : Word) (n : Width) : (drawOrder va n s).stored = s.stored := by
  unfold drawOrder; split <;> rfl
@[simp] theorem drawOrder_env (s : State) (va : Word) (n : Width) : (drawOrder va n s).env = s.env := by
  unfold drawOrder; split <;> rfl

/-! ## The fields of `mstatus` after a trap and after a return -/

@[simp] theorem mstatusTrap_sie (s : State) (t : Trap) : (mstatusTrap s t).sie = s.mstatus.sie := rfl
@[simp] theorem mstatusTrap_mie (s : State) (t : Trap) : (mstatusTrap s t).mie = false := rfl
@[simp] theorem mstatusTrap_spie (s : State) (t : Trap) : (mstatusTrap s t).spie = s.mstatus.spie := rfl
@[simp] theorem mstatusTrap_ube (s : State) (t : Trap) : (mstatusTrap s t).ube = s.mstatus.ube := rfl
@[simp] theorem mstatusTrap_mpie (s : State) (t : Trap) : (mstatusTrap s t).mpie = s.mstatus.mie := rfl
@[simp] theorem mstatusTrap_spp (s : State) (t : Trap) : (mstatusTrap s t).spp = s.mstatus.spp := rfl
@[simp] theorem mstatusTrap_vecStatus (s : State) (t : Trap) : (mstatusTrap s t).vecStatus = s.mstatus.vecStatus := rfl
@[simp] theorem mstatusTrap_mpp (s : State) (t : Trap) : (mstatusTrap s t).mpp = privBits s.priv := rfl
@[simp] theorem mstatusTrap_fs (s : State) (t : Trap) : (mstatusTrap s t).fs = s.mstatus.fs := rfl
@[simp] theorem mstatusTrap_xs (s : State) (t : Trap) : (mstatusTrap s t).xs = s.mstatus.xs := rfl
@[simp] theorem mstatusTrap_mprv (s : State) (t : Trap) : (mstatusTrap s t).mprv = s.mstatus.mprv := rfl
@[simp] theorem mstatusTrap_sum (s : State) (t : Trap) : (mstatusTrap s t).sum = s.mstatus.sum := rfl
@[simp] theorem mstatusTrap_mxr (s : State) (t : Trap) : (mstatusTrap s t).mxr = s.mstatus.mxr := rfl
@[simp] theorem mstatusTrap_tvm (s : State) (t : Trap) : (mstatusTrap s t).tvm = s.mstatus.tvm := rfl
@[simp] theorem mstatusTrap_tw (s : State) (t : Trap) : (mstatusTrap s t).tw = s.mstatus.tw := rfl
@[simp] theorem mstatusTrap_tsr (s : State) (t : Trap) : (mstatusTrap s t).tsr = s.mstatus.tsr := rfl
@[simp] theorem mstatusTrap_uxl (s : State) (t : Trap) : (mstatusTrap s t).uxl = s.mstatus.uxl := rfl
@[simp] theorem mstatusTrap_sxl (s : State) (t : Trap) : (mstatusTrap s t).sxl = s.mstatus.sxl := rfl
@[simp] theorem mstatusTrap_sbe (s : State) (t : Trap) : (mstatusTrap s t).sbe = s.mstatus.sbe := rfl
@[simp] theorem mstatusTrap_mbe (s : State) (t : Trap) : (mstatusTrap s t).mbe = s.mstatus.mbe := rfl
@[simp] theorem mstatusTrap_gva (s : State) (t : Trap) : (mstatusTrap s t).gva = gvaOf s.cfg t := rfl
@[simp] theorem mstatusTrap_mpv (s : State) (t : Trap) : (mstatusTrap s t).mpv = s.v := rfl
@[simp] theorem mstatusReturn_sie (c : Config) (p : Priv) (f : Mstatus) : (mstatusReturn c p f).sie = f.sie := rfl
@[simp] theorem mstatusReturn_mie (c : Config) (p : Priv) (f : Mstatus) : (mstatusReturn c p f).mie = f.mpie := rfl
@[simp] theorem mstatusReturn_spie (c : Config) (p : Priv) (f : Mstatus) : (mstatusReturn c p f).spie = f.spie := rfl
@[simp] theorem mstatusReturn_ube (c : Config) (p : Priv) (f : Mstatus) : (mstatusReturn c p f).ube = f.ube := rfl
@[simp] theorem mstatusReturn_mpie (c : Config) (p : Priv) (f : Mstatus) : (mstatusReturn c p f).mpie = true := rfl
@[simp] theorem mstatusReturn_spp (c : Config) (p : Priv) (f : Mstatus) : (mstatusReturn c p f).spp = f.spp := rfl
@[simp] theorem mstatusReturn_vecStatus (c : Config) (p : Priv) (f : Mstatus) : (mstatusReturn c p f).vecStatus = f.vecStatus := rfl
@[simp] theorem mstatusReturn_mpp (c : Config) (p : Priv) (f : Mstatus) : (mstatusReturn c p f).mpp = privBits c.mretMppAfter := rfl
@[simp] theorem mstatusReturn_fs (c : Config) (p : Priv) (f : Mstatus) : (mstatusReturn c p f).fs = f.fs := rfl
@[simp] theorem mstatusReturn_xs (c : Config) (p : Priv) (f : Mstatus) : (mstatusReturn c p f).xs = f.xs := rfl
@[simp] theorem mstatusReturn_mprv (c : Config) (p : Priv) (f : Mstatus) : (mstatusReturn c p f).mprv = (if p = .m then f.mprv else false) := rfl
@[simp] theorem mstatusReturn_sum (c : Config) (p : Priv) (f : Mstatus) : (mstatusReturn c p f).sum = f.sum := rfl
@[simp] theorem mstatusReturn_mxr (c : Config) (p : Priv) (f : Mstatus) : (mstatusReturn c p f).mxr = f.mxr := rfl
@[simp] theorem mstatusReturn_tvm (c : Config) (p : Priv) (f : Mstatus) : (mstatusReturn c p f).tvm = f.tvm := rfl
@[simp] theorem mstatusReturn_tw (c : Config) (p : Priv) (f : Mstatus) : (mstatusReturn c p f).tw = f.tw := rfl
@[simp] theorem mstatusReturn_tsr (c : Config) (p : Priv) (f : Mstatus) : (mstatusReturn c p f).tsr = f.tsr := rfl
@[simp] theorem mstatusReturn_uxl (c : Config) (p : Priv) (f : Mstatus) : (mstatusReturn c p f).uxl = f.uxl := rfl
@[simp] theorem mstatusReturn_sxl (c : Config) (p : Priv) (f : Mstatus) : (mstatusReturn c p f).sxl = f.sxl := rfl
@[simp] theorem mstatusReturn_sbe (c : Config) (p : Priv) (f : Mstatus) : (mstatusReturn c p f).sbe = f.sbe := rfl
@[simp] theorem mstatusReturn_mbe (c : Config) (p : Priv) (f : Mstatus) : (mstatusReturn c p f).mbe = f.mbe := rfl
@[simp] theorem mstatusReturn_gva (c : Config) (p : Priv) (f : Mstatus) : (mstatusReturn c p f).gva = f.gva := rfl
@[simp] theorem mstatusReturn_mpv (c : Config) (p : Priv) (f : Mstatus) : (mstatusReturn c p f).mpv = c.mretMpvAfter := rfl

end Sys2Proof.Machine
end

