-- ==== Sys2Proof/Laws/Memory.lean ====
section
/-! SUPPORT. The laws of memory: what a read after a write gives, and that every operation keeps the canonical form. -/

namespace Sys2Proof.Machine

theorem Memory.wf_cons {a : Nat} {y : Byte} {m : Memory} (h : Memory.wf ((a, y) :: m) = true) :
    y ≠ unlistedByte ∧ (∀ b z rest, m = (b, z) :: rest → a < b) ∧ Memory.wf m = true := by
  cases m with
  | nil => simpa [Memory.wf] using h
  | cons c rest =>
    obtain ⟨b, z⟩ := c
    simp only [Memory.wf, Bool.and_eq_true, decide_eq_true_eq] at h
    refine ⟨h.1.1, ?_, by simpa [Memory.wf] using h.2⟩
    intro b' z' rest' e
    cases e
    exact h.1.2

theorem Memory.wf_cons_intro {a : Nat} {y : Byte} {m : Memory} (hy : y ≠ unlistedByte)
    (hlt : ∀ b z rest, m = (b, z) :: rest → a < b) (hm : Memory.wf m = true) : Memory.wf ((a, y) :: m) = true := by
  cases m with
  | nil => simpa [Memory.wf] using hy
  | cons c rest =>
    obtain ⟨b, z⟩ := c
    have := hlt b z rest rfl
    simp only [Memory.wf, Bool.and_eq_true, decide_eq_true_eq]
    exact ⟨⟨hy, this⟩, by simpa [Memory.wf] using hm⟩

/-- An address below the first listed one is not listed. -/
theorem Memory.read_below {m : Memory} {a : Nat} (hm : Memory.wf m = true)
    (hlt : ∀ b z rest, m = (b, z) :: rest → a < b) : Memory.read m a = unlistedByte := by
  induction m with
  | nil => rfl
  | cons c rest ih =>
    obtain ⟨b, z⟩ := c
    have hab : a < b := hlt b z rest rfl
    obtain ⟨-, h2, h3⟩ := Memory.wf_cons hm
    rw [Memory.read, if_neg (by omega)]
    refine ih h3 fun b' z' rest' e => ?_
    exact Nat.lt_trans hab (h2 b' z' rest' e)

/-- The head of the memory after a write: nothing lower than the written address or the old head appears. -/
theorem Memory.write_head {m : Memory} {a c : Nat} {y : Byte} (hm : Memory.wf m = true) (hca : c < a)
    (hcm : ∀ b z rest, m = (b, z) :: rest → c < b) :
    ∀ b z rest, Memory.write m a y = (b, z) :: rest → c < b := by
  intro b z rest e
  cases m with
  | nil =>
    simp only [Memory.write] at e
    split at e
    · cases e
    · cases e; exact hca
  | cons d tl =>
    obtain ⟨b0, z0⟩ := d
    have h0 : c < b0 := hcm b0 z0 tl rfl
    simp only [Memory.write] at e
    split at e
    · split at e <;> cases e
      · exact h0
      · exact hca
    · split at e
      · split at e
        · subst e
          exact Nat.lt_trans h0 ((Memory.wf_cons hm).2.1 b z rest rfl)
        · cases e; exact hca
      · cases e; exact h0

/-- A write keeps the canonical form. -/
theorem Memory.write_wf {m : Memory} (hm : Memory.wf m = true) (a : Nat) (y : Byte) :
    Memory.wf (Memory.write m a y) = true := by
  induction m with
  | nil =>
    simp only [Memory.write]
    split
    · rfl
    · next h => exact Memory.wf_cons_intro h (fun _ _ _ e => by cases e) rfl
  | cons d tl ih =>
    obtain ⟨b, z⟩ := d
    obtain ⟨h1, h2, h3⟩ := Memory.wf_cons hm
    simp only [Memory.write]
    split
    · next hab =>
      split
      · exact hm
      · next hy => exact Memory.wf_cons_intro hy (fun _ _ _ e => by cases e; exact hab) hm
    · split
      · next hab =>
        subst hab
        split
        · exact h3
        · next hy => exact Memory.wf_cons_intro hy h2 h3
      · exact Memory.wf_cons_intro h1 (Memory.write_head h3 (by omega) h2) (ih h3)

/-- A read of the written address gives the byte written. -/
theorem Memory.read_write_same {m : Memory} (hm : Memory.wf m = true) (a : Nat) (y : Byte) :
    Memory.read (Memory.write m a y) a = y := by
  induction m with
  | nil =>
    simp only [Memory.write]
    split
    · next h => rw [h]; rfl
    · simp [Memory.read]
  | cons d tl ih =>
    obtain ⟨b, z⟩ := d
    obtain ⟨-, h2, h3⟩ := Memory.wf_cons hm
    simp only [Memory.write]
    split
    · next hab =>
      split
      · next h =>
        rw [h]
        exact Memory.read_below hm fun _ _ _ e => by cases e; exact hab
      · simp [Memory.read]
    · split
      · next hab =>
        subst hab
        split
        · next h =>
          rw [h]
          exact Memory.read_below h3 h2
        · simp [Memory.read]
      · next hab =>
        rw [Memory.read, if_neg hab, ih h3]

/-- A read of another address gives what it gave, in every memory. -/
theorem Memory.read_write_other (m : Memory) {a b : Nat} (y : Byte) (hab : b ≠ a) :
    Memory.read (Memory.write m a y) b = Memory.read m b := by
  induction m with
  | nil =>
    simp only [Memory.write]
    split
    · rfl
    · simp [Memory.read, hab]
  | cons d tl ih =>
    obtain ⟨c, z⟩ := d
    simp only [Memory.write]
    split
    · split
      · rfl
      · rw [Memory.read, if_neg hab]
    · split
      · next hac =>
        subst hac
        split
        · rw [Memory.read, if_neg hab]
        · simp [Memory.read, hab]
      · simp only [Memory.read]
        split
        · rfl
        · exact ih

theorem storeByte_mem_wf {s : State} (h : s.mem.wf = true) (a : Nat) (y : Byte) : (s.storeByte a y).mem.wf = true :=
  Memory.write_wf h a y

theorem byteAt_storeByte_same {s : State} (h : s.mem.wf = true) (a : Nat) (y : Byte) : (s.storeByte a y).byteAt a = y :=
  Memory.read_write_same h a y

theorem byteAt_storeByte_other (s : State) {a b : Nat} (y : Byte) (hab : b ≠ a) :
    (s.storeByte a y).byteAt b = s.byteAt b :=
  Memory.read_write_other s.mem y hab

/-- The addresses of a list with one put in. -/
theorem mem_insertAddr (a b : Nat) (l : List Nat) : b ∈ insertAddr a l ↔ b = a ∨ b ∈ l := by
  induction l with
  | nil => simp [insertAddr]
  | cons c rest ih =>
    rw [insertAddr]
    split
    · simp
    · split
      · next h =>
        subst h
        simp
      · simp only [List.mem_cons, ih]
        exact or_left_comm

theorem mem_storeByte_stored (s : State) (a b : Nat) (y : Byte) :
    b ∈ (s.storeByte a y).stored ↔ b = a ∨ b ∈ s.stored := mem_insertAddr a b s.stored

/-- Every byte stored by one portion keeps the canonical form. -/
theorem storePortion_mem_wf (big : Bool) (n : Nat) (value pa : Word) (k len : Nat) (s : State) (h : s.mem.wf = true) :
    (storePortion big n value pa k len s).mem.wf = true := by
  induction len with
  | zero => exact h
  | succ j ih => exact storeByte_mem_wf ih _ _

end Sys2Proof.Machine
end

