-- ==== Sys2Proof/Laws/Ops.lean ====
section
/-! SUPPORT. The laws of the shared operations: registers, XLEN values, traps. -/

namespace Sys2Proof.Machine

/-! ## XLEN values -/

@[simp] theorem xlenCut_idem (m : Mxlen) (a : Word) : xlenCut m (xlenCut m a) = xlenCut m a := by
  cases m <;> simp [xlenCut]

@[simp] theorem xlenCut_zero (m : Mxlen) : xlenCut m 0#64 = 0#64 := by
  cases m <;> rfl

/-! ## General registers -/

@[simp] theorem x_zero (s : State) : s.x 0#5 = 0#64 := rfl

theorem x_setX_same (s : State) {i : RegIdx} (a : Word) (h : i ≠ 0#5) : (s.setX i a).x i = xlenCut s.cfg.mxlen a := by
  simp [State.x, State.setX, h]

theorem x_setX_other (s : State) {i j : RegIdx} (a : Word) (h : j ≠ i) : (s.setX i a).x j = s.x j := by
  unfold State.setX
  split
  · rfl
  · have hij : i.toNat ≠ j.toNat := fun e => h (BitVec.eq_of_toNat_eq e.symm)
    simp [State.x, Vector.getElem_set_ne, hij]

@[simp] theorem setX_x0 (s : State) (a : Word) : s.setX 0#5 a = s := rfl

/-- A register reads the same in two states with the same registers and the same MXLEN. -/
theorem x_congr {s t : State} (hr : t.regs = s.regs) (hc : t.cfg = s.cfg) (i : RegIdx) : t.x i = s.x i := by
  simp [State.x, hr, hc]

/-- Memory reads the same in two states with the same memory. -/
theorem byteAt_congr {s t : State} (h : t.mem = s.mem) (a : Nat) : t.byteAt a = s.byteAt a := by
  simp [State.byteAt, h]

@[simp] theorem x_advance (s : State) (i : RegIdx) : s.advance.x i = s.x i := rfl
@[simp] theorem x_enterM (s : State) (t : Trap) (i : RegIdx) : (enterM t s).x i = s.x i := rfl
@[simp] theorem x_returnTo (s : State) (p : Priv) (i : RegIdx) : (returnTo p s).x i = s.x i := rfl
@[simp] theorem x_drawOrder (s : State) (va : Word) (n : Width) (i : RegIdx) : (drawOrder va n s).x i = s.x i :=
  x_congr (drawOrder_regs s va n) (drawOrder_cfg s va n) i
@[simp] theorem byteAt_advance (s : State) (a : Nat) : s.advance.byteAt a = s.byteAt a := rfl
@[simp] theorem byteAt_enterM (s : State) (t : Trap) (a : Nat) : (enterM t s).byteAt a = s.byteAt a := rfl
@[simp] theorem byteAt_returnTo (s : State) (p : Priv) (a : Nat) : (returnTo p s).byteAt a = s.byteAt a := rfl
@[simp] theorem byteAt_drawOrder (s : State) (va : Word) (n : Width) (a : Nat) :
    (drawOrder va n s).byteAt a = s.byteAt a := byteAt_congr (drawOrder_mem s va n) a
@[simp] theorem byteAt_setX (s : State) (i : RegIdx) (b : Word) (a : Nat) : (s.setX i b).byteAt a = s.byteAt a :=
  byteAt_congr (setX_mem s i b) a

/-! ## Traps -/

/-- A trap that answers a next state is taken into M-mode. -/
theorem takeTrap_next {t : Trap} {s u : State} (h : takeTrap t s = .next u) : trapTarget t s = .m ∧ u = enterM t s := by
  unfold takeTrap at h
  split at h
  · next e => exact ⟨e, by cases h; rfl⟩
  · cases h
  · cases h

/-- A trap whose target is M-mode is taken. -/
theorem takeTrap_of_target {t : Trap} {s : State} (h : trapTarget t s = .m) : takeTrap t s = .next (enterM t s) := by
  simp [takeTrap, h]

/-- An instruction that raises and answers a next state has entered M-mode. -/
theorem raiseInstr_next {e : Exc} {ir : InstrWord} {s u : State} (h : raiseInstr e ir s = .next u) :
    trapTarget (instrTrap e ir s) s = .m ∧ u = enterM (instrTrap e ir s) s := takeTrap_next h

/-- An access that stops and answers a next state has raised a fault. -/
theorem stopResult_next {e : AccessStop} {s u : State} (h : stopResult e s = .next u) :
    ∃ f, e = .fault f ∧ trapTarget (faultTrap f s) s = .m ∧ u = enterM (faultTrap f s) s := by
  cases e with
  | fault f => exact ⟨f, rfl, takeTrap_next h⟩
  | device => cases h

/-- An exception raised in M-mode goes to M-mode. -/
theorem trapTarget_of_m {t : Trap} {s : State} (hp : s.priv = .m) (hi : t.isInterrupt = false) : trapTarget t s = .m := by
  simp [trapTarget, hp, hi]

/-- The fixed bits of `mideleg` in every state (R26). -/
theorem midelegBits_fixed (s : State) {i : Nat} (h : i = 10 ∨ i = 6 ∨ i = 2) : s.midelegBits.getLsbD i = true := by
  unfold State.midelegBits
  rcases h with rfl | rfl | rfl <;> simp

/-- Bit 12 too when GEILEN is not 0 (R27). -/
theorem midelegBits_gei (s : State) (h : s.cfg.geilen ≠ 0) : s.midelegBits.getLsbD 12 = true := by
  simp only [State.midelegBits, midelegBit12, h, ne_eq, not_false_eq_true, if_true, BitVec.getLsbD_or]
  rw [show (0x1000#16).getLsbD 12 = true from by decide]
  simp

/-! ## Legal values -/

@[simp] theorem legalIn_zero (m : Mxlen) (set : LegalRanges) : legalIn m set 0#64 = true := by
  simp [legalIn]

/-- A software write leaves a legal value (R5). -/
theorem warlWrite_legal (m : Mxlen) (reg : WarlReg) (set : LegalRanges) (old a : Word) :
    legalIn m set (warlWrite m reg set old a) = true := by
  unfold warlWrite
  split
  · assumption
  · split
    · assumption
    · simp

/-- MPP never takes the value 2 (R17). -/
theorem mppWrite_legal (old a : BitVec 2) : mppWrite old a ≠ 2#2 := by
  unfold mppWrite
  simp only
  split
  · split
    · decide
    · assumption
  · assumption

theorem privBits_legal (p : Priv) : privBits p ≠ 2#2 := by
  cases p <;> decide

@[simp] theorem privOfBits_privBits (p : Priv) : privOfBits (privBits p) = some p := by
  cases p <;> rfl

/-- The fallback of R166 is legal. -/
theorem firstNonzeroLegal_legal (m : Mxlen) (set : LegalRanges) : legalIn m set (firstNonzeroLegal m set) = true := by
  induction set with
  | nil => rfl
  | cons r rest ih =>
    rw [firstNonzeroLegal]
    split
    · next h =>
      have hlt : max r.1 1 < 2 ^ 64 := Nat.lt_of_lt_of_le h.2 (by cases m <;> decide)
      have hto : (BitVec.ofNat 64 (max r.1 1)).toNat = max r.1 1 := by
        rw [BitVec.toNat_ofNat, Nat.mod_eq_of_lt hlt]
      simp only [legalIn, hto, List.any_cons, Bool.or_eq_true, Bool.and_eq_true, decide_eq_true_eq]
      exact Or.inr ⟨h.2, Or.inl ⟨Nat.le_max_left _ _, h.1⟩⟩
    · simp only [legalIn, List.any_cons, Bool.or_eq_true, Bool.and_eq_true, decide_eq_true_eq] at ih ⊢
      exact ih.imp id fun h => ⟨h.1, Or.inr h.2⟩

theorem mtval2Of_legal (c : Config) (t : Trap) (d : Nat) : legalIn c.mxlen c.mtval2Legal (mtval2Of c t d) = true := by
  unfold mtval2Of
  split
  · split
    · split
      · next h => simp only [Bool.and_eq_true] at h; exact h.2
      · simp
    · simp
  · simp

theorem mtinstOf_legal (c : Config) (t : Trap) (d : Nat) : legalIn c.mxlen c.mtinstLegal (mtinstOf c t d) = true := by
  unfold mtinstOf
  simp only
  split
  · split
    · next h => exact h.2
    · exact firstNonzeroLegal_legal _ _
  · split
    · simp
    · split
      · assumption
      · simp

/-! ## Instruction addresses -/

/-- Clearing bit 0 changes nothing where it is clear. -/
theorem and_not_one {a : Word} (h : a.getLsbD 0 = false) : a &&& ~~~1#64 = a := by
  ext i hi
  rcases i with _ | i
  · simpa using h
  · have : (1#64)[i + 1] = false := by simp [BitVec.getElem_one]
    simp only [BitVec.getElem_and, BitVec.getElem_not, this, Bool.not_false, Bool.and_true]

/-- Clearing bits 1:0 changes nothing where they are clear. -/
theorem and_not_three {a : Word} (h0 : a.getLsbD 0 = false) (h1 : a.getLsbD 1 = false) : a &&& ~~~3#64 = a := by
  ext i hi
  rcases i with _ | _ | i
  · simpa using h0
  · simpa using h1
  · have : (3#64)[i + 2] = false := by
      simp [BitVec.getElem_eq_testBit_toNat, Nat.testBit_succ]
    simp only [BitVec.getElem_and, BitVec.getElem_not, this, Bool.not_false, Bool.and_true]

/-- A multiple of four is an instruction address at every configuration. -/
theorem instrAddr_of_mod4 (c : Config) {a : Word} (h0 : a.getLsbD 0 = false) (h1 : a.getLsbD 1 = false) :
    instrAddr c a = a := by
  unfold instrAddr
  split
  · exact and_not_one h0
  · exact and_not_three h0 h1

/-- An XLEN-bit instruction address stays one. -/
theorem instrAddr_idem (c : Config) (a : Word) :
    xlenCut c.mxlen (instrAddr c (xlenCut c.mxlen (instrAddr c a))) = xlenCut c.mxlen (instrAddr c a) := by
  cases hm : c.mxlen <;> cases hv : c.variableLength <;> simp only [xlenCut, instrAddr, hv] <;> ext i hi <;> simp

end Sys2Proof.Machine
end

