-- ==== Sys2Proof/Laws/Access.lean ====
section
/-! SUPPORT. The laws of memory accesses: what translation depends on, what a load and a store can do, and which bytes a
store can change. -/

namespace Sys2Proof.Machine

/-! ## What translation depends on (20_memory.md R68) -/

/-- The part of a state that the stages' answers, their walks and the guest-physical stage read: of memory, the page-table
bytes. -/
structure SameWalks (s t : State) : Prop where
  phys   : t.cfg.phys = s.cfg.phys
  mxr    : t.mstatus.mxr = s.mstatus.mxr
  hgatp  : t.hgatp = s.hgatp
  vsatp  : t.vsatp = s.vsatp
  trans  : t.trans = s.trans
  tables : ∀ a ∈ s.trans.tableBytes, t.byteAt a = s.byteAt a

/-- The part of a state that `Translate` reads. -/
structure SameTranslation (s t : State) : Prop extends SameWalks s t where
  sum  : t.mstatus.sum = s.mstatus.sum
  vmxr : t.vsstatus.mxr = s.vsstatus.mxr
  vsum : t.vsstatus.sum = s.vsstatus.sum

/-- An entry's page-table bytes are among those of its translation. -/
theorem mem_tableBytes {t : Translation} {e : StageEntry} (he : e ∈ t.hs ++ t.vs ++ t.g) {c : Host.Cell}
    (hc : c ∈ e.found) : c.1 ∈ t.tableBytes :=
  List.mem_flatMap.mpr ⟨e, he, List.mem_map_of_mem hc⟩

/-- A lookup finds the same entry in two memories that agree on the page-table bytes of the list. -/
theorem find?_entryHolds_congr {m m' : Memory} (key : List Word) (a : Word) (n : Nat) (l : List StageEntry)
    (h : ∀ e ∈ l, ∀ c ∈ e.found, m'.read c.1 = m.read c.1) :
    l.find? (entryHolds m' key a n) = l.find? (entryHolds m key a n) := by
  refine List.find?_congr fun e he => ?_
  have : tablesHold m' e = tablesHold m e := by
    unfold tablesHold
    rw [Bool.eq_iff_iff, List.all_eq_true, List.all_eq_true]
    exact forall₂_congr fun c hc => by rw [h e he c hc]
  simp only [entryHolds, this]

section
variable {s t : State} (h : SameWalks s t)
include h

theorem physical_congr (pa va : Word) (n : Nat) (kind : AccessKind) (md : Mode) :
    physical t pa va n kind md = physical s pa va n kind md := by
  unfold physical
  rw [h.phys]

theorem hsEntry_congr (va : Word) (n : Nat) : t.hsEntry va n = s.hsEntry va n := by
  unfold State.hsEntry
  rw [h.trans]
  exact find?_entryHolds_congr _ _ _ _ fun e he c hc => h.tables _ (mem_tableBytes (by simp [he]) hc)

theorem vsEntry_congr (va : Word) (n : Nat) : t.vsEntry va n = s.vsEntry va n := by
  unfold State.vsEntry
  rw [h.trans, h.vsatp, h.hgatp]
  exact find?_entryHolds_congr _ _ _ _ fun e he c hc => h.tables _ (mem_tableBytes (by simp [he]) hc)

theorem gEntry_congr (gpa : Word) (n : Nat) : t.gEntry gpa n = s.gEntry gpa n := by
  unfold State.gEntry
  rw [h.trans, h.hgatp]
  exact find?_entryHolds_congr _ _ _ _ fun e he c hc => h.tables _ (mem_tableBytes (by simp [he]) hc)

theorem physWalk_congr (va : Word) (kind : AccessKind) (md : Mode) (l : List Word) :
    physWalk t va kind md l = physWalk s va kind md l := by
  induction l with
  | nil => rfl
  | cons a rest ih => rw [physWalk, physWalk, ih, physical_congr h]

theorem implicitRead_congr (gpa va : Word) (kind : AccessKind) (md : Mode) :
    implicitRead t gpa va kind md = implicitRead s gpa va kind md := by
  unfold implicitRead
  simp only [gEntry_congr h, physWalk_congr h, physical_congr h]

theorem vsWalk_congr (va : Word) (kind : AccessKind) (md : Mode) (l : List Word) :
    vsWalk t va kind md l = vsWalk s va kind md l := by
  induction l with
  | nil => rfl
  | cons a rest ih => rw [vsWalk, vsWalk, ih, implicitRead_congr h]

theorem guestStage_congr (gpa va : Word) (n : Nat) (kind : AccessKind) (md : Mode) :
    guestStage t gpa va n kind md = guestStage s gpa va n kind md := by
  unfold guestStage
  simp only [gEntry_congr h, mxrHs, h.mxr, physWalk_congr h, physical_congr h]
  rfl

/-- The single stage asks SUM of an S-level access only. -/
theorem oneStage_congr (va : Word) (n : Nat) (kind : AccessKind) {md : Mode}
    (hsum : md.p = .s → t.mstatus.sum = s.mstatus.sum) : oneStage t va n kind md = oneStage s va n kind md := by
  have hu : ∀ q, userAllows kind md.p t.mstatus.sum q = userAllows kind md.p s.mstatus.sum q := fun q => by
    cases hp : md.p with
    | s => rw [hsum hp]
    | u => rfl
    | m => rfl
  unfold oneStage
  simp only [hsEntry_congr h, mxrHs, h.mxr, sumHs, hu, physWalk_congr h, physical_congr h]
  rfl

/-- The two stages ask `vsstatus.SUM` of a VS-level access only, and `mstatus.SUM` never. -/
theorem twoStage_congr (va : Word) (n : Nat) (kind : AccessKind) {md : Mode} (hmxr : t.vsstatus.mxr = s.vsstatus.mxr)
    (hsum : md.p = .s → t.vsstatus.sum = s.vsstatus.sum) : twoStage t va n kind md = twoStage s va n kind md := by
  have hu : ∀ q, userAllows kind md.p t.vsstatus.sum q = userAllows kind md.p s.vsstatus.sum q := fun q => by
    cases hp : md.p with
    | s => rw [hsum hp]
    | u => rfl
    | m => rfl
  unfold twoStage
  simp only [vsEntry_congr h, mxrVs, h.mxr, hmxr, sumVs, hu, vsWalk_congr h, guestStage_congr h]
  rfl

end

/-- `Translate` answers the same in two states that agree on what it reads. -/
theorem translate_congr {s t : State} (h : SameTranslation s t) (va : Word) (n : Nat) (kind : AccessKind) (md : Mode) :
    translate t va n kind md = translate s va n kind md := by
  unfold translate
  rw [physical_congr h.toSameWalks, oneStage_congr h.toSameWalks va n kind fun _ => h.sum,
    twoStage_congr h.toSameWalks va n kind h.vmxr fun _ => h.vsum]

/-! ## Memory and translation -/

/-- `s` with its memory and its record of stores replaced. -/
def withMem (s : State) (m : Memory) (st : List Nat) : State := { s with mem := m, stored := st }

section
variable (s : State) (m : Memory) (st : List Nat)
@[simp] theorem withMem_cfg : (withMem s m st).cfg = s.cfg := rfl
@[simp] theorem withMem_priv : (withMem s m st).priv = s.priv := rfl
@[simp] theorem withMem_v : (withMem s m st).v = s.v := rfl
@[simp] theorem withMem_pc : (withMem s m st).pc = s.pc := rfl
@[simp] theorem withMem_regs : (withMem s m st).regs = s.regs := rfl
@[simp] theorem withMem_mstatus : (withMem s m st).mstatus = s.mstatus := rfl
@[simp] theorem withMem_mideleg : (withMem s m st).mideleg = s.mideleg := rfl
@[simp] theorem withMem_pend : (withMem s m st).pend = s.pend := rfl
@[simp] theorem withMem_enab : (withMem s m st).enab = s.enab := rfl
@[simp] theorem withMem_mtval : (withMem s m st).mtval = s.mtval := rfl
@[simp] theorem withMem_mtval2 : (withMem s m st).mtval2 = s.mtval2 := rfl
@[simp] theorem withMem_mtinst : (withMem s m st).mtinst = s.mtinst := rfl
@[simp] theorem withMem_mepc : (withMem s m st).mepc = s.mepc := rfl
@[simp] theorem withMem_mcause : (withMem s m st).mcause = s.mcause := rfl
@[simp] theorem withMem_mtvec : (withMem s m st).mtvec = s.mtvec := rfl
@[simp] theorem withMem_mscratch : (withMem s m st).mscratch = s.mscratch := rfl
@[simp] theorem withMem_hstatus : (withMem s m st).hstatus = s.hstatus := rfl
@[simp] theorem withMem_vsstatus : (withMem s m st).vsstatus = s.vsstatus := rfl
@[simp] theorem withMem_hgatp : (withMem s m st).hgatp = s.hgatp := rfl
@[simp] theorem withMem_vsatp : (withMem s m st).vsatp = s.vsatp := rfl
@[simp] theorem withMem_trans : (withMem s m st).trans = s.trans := rfl
@[simp] theorem withMem_env : (withMem s m st).env = s.env := rfl
@[simp] theorem withMem_draws : (withMem s m st).draws = s.draws := rfl
@[simp] theorem withMem_mem : (withMem s m st).mem = m := rfl
@[simp] theorem withMem_stored : (withMem s m st).stored = st := rfl
@[simp] theorem x_withMem (i : RegIdx) : (withMem s m st).x i = s.x i := rfl
end

/-- Memory that agrees on the page-table bytes translates the same. -/
theorem translate_withMem {s : State} {m : Memory} (st : List Nat)
    (h : ∀ a ∈ s.trans.tableBytes, (withMem s m st).byteAt a = s.byteAt a) (va : Word) (n : Nat) (kind : AccessKind)
    (md : Mode) : translate (withMem s m st) va n kind md = translate s va n kind md :=
  translate_congr (s := s) (t := withMem s m st) ⟨⟨rfl, rfl, rfl, rfl, rfl, h⟩, rfl, rfl, rfl⟩ va n kind md

/-! ## What a store changes -/

/-- The bytes of a portion change memory and the record of stores, nothing else. -/
theorem storePortion_shape (big : Bool) (n : Nat) (value pa : Word) (k len : Nat) (s : State) :
    ∃ m st, storePortion big n value pa k len s = withMem s m st := by
  induction len with
  | zero => exact ⟨s.mem, s.stored, rfl⟩
  | succ j ih =>
    obtain ⟨m, st, e⟩ := ih
    exact ⟨_, _, by rw [storePortion, e]; rfl⟩

/-- A byte outside a portion is unchanged. -/
theorem byteAt_storePortion (big : Bool) (n : Nat) (value pa : Word) (k len : Nat) (s : State) (a : Nat)
    (h : ∀ j < len, a ≠ physByte pa j) : (storePortion big n value pa k len s).byteAt a = s.byteAt a := by
  induction len with
  | zero => rfl
  | succ j ih =>
    rw [storePortion, byteAt_storeByte_other _ _ (h j (Nat.lt_succ_self j))]
    exact ih fun i hi => h i (Nat.lt_succ_of_lt hi)

/-- The portions of a store change memory and the record of stores, nothing else, whether or not they complete. -/
theorem writePortions_shape (va : Word) (n : Width) (value : Word) (md : Mode) (l : List (Nat × Nat)) (s : State) :
    ∃ m st, (writePortions va n value md l s).1 = withMem s m st := by
  induction l generalizing s with
  | nil => exact ⟨s.mem, s.stored, rfl⟩
  | cons q rest ih =>
    obtain ⟨k, len⟩ := q
    rw [writePortions]
    split
    · exact ⟨s.mem, s.stored, rfl⟩
    · next pa _ =>
      obtain ⟨m, st, e⟩ := storePortion_shape (bigEndian md s) (widthBytes n) value pa k len s
      obtain ⟨m', st', e'⟩ := ih (storePortion (bigEndian md s) (widthBytes n) value pa k len s)
      exact ⟨m', st', by rw [e', e]; rfl⟩

/-- The portions of a store keep memory canonical. -/
theorem writePortions_mem_wf (va : Word) (n : Width) (value : Word) (md : Mode) (l : List (Nat × Nat)) (s : State)
    (h : s.mem.wf = true) : (writePortions va n value md l s).1.mem.wf = true := by
  induction l generalizing s with
  | nil => exact h
  | cons q rest ih =>
    obtain ⟨k, len⟩ := q
    rw [writePortions]
    split
    · exact h
    · exact ih _ (storePortion_mem_wf _ _ _ _ _ _ _ h)

/-- A byte that no portion's target names is unchanged. -/
theorem byteAt_writePortions (va : Word) (n : Width) (value : Word) (md : Mode) (l : List (Nat × Nat)) (s : State) (a : Nat)
    (h : a ∉ portionTargets va n value md l s) : (writePortions va n value md l s).1.byteAt a = s.byteAt a := by
  induction l generalizing s with
  | nil => rfl
  | cons q rest ih =>
    obtain ⟨k, len⟩ := q
    rw [portionTargets] at h
    rw [writePortions]
    split
    · rfl
    · next pa hpa =>
      rw [hpa] at h
      simp only [List.mem_append, not_or] at h
      rw [ih _ h.2]
      refine byteAt_storePortion _ _ _ _ _ _ _ _ fun j hj e' => h.1 ?_
      simp only [List.mem_map, List.mem_range]
      exact ⟨j, hj, e'.symm⟩

theorem memWrite_shape (s : State) (va : Word) (n : Width) (value : Word) (md : Mode) :
    ∃ m st, (memWrite s va n value md).1 = withMem s m st := by
  unfold memWrite
  split
  · exact ⟨s.mem, s.stored, rfl⟩
  · exact writePortions_shape _ _ _ _ _ _

theorem memWrite_mem_wf (s : State) (va : Word) (n : Width) (value : Word) (md : Mode) (h : s.mem.wf = true) :
    (memWrite s va n value md).1.mem.wf = true := by
  unfold memWrite
  split
  · exact h
  · exact writePortions_mem_wf _ _ _ _ _ _ h

theorem byteAt_memWrite (s : State) (va : Word) (n : Width) (value : Word) (md : Mode) (a : Nat)
    (h : a ∉ storeTargets s va n value md) : (memWrite s va n value md).1.byteAt a = s.byteAt a := by
  unfold memWrite
  split
  · rfl
  · exact byteAt_writePortions _ _ _ _ _ _ _ h

/-! ## What a load and a store can do -/

/-- A load that answers a next state has completed, or has raised a fault into M-mode. -/
theorem load_next {rd : RegIdx} {va : Word} {n : Width} {signed : Bool} {md : Mode} {kind : AccessKind} {s t : State}
    (h : load rd va n signed md kind s = .next t) :
    (∃ value, memRead s va n md kind = .ok value ∧
      t = ((drawOrder va n s).setX rd (extendLoad s.cfg.mxlen signed n value)).advance) ∨
    (∃ f, memRead s va n md kind = .error (.fault f) ∧ t = enterM (faultTrap f s) s) := by
  unfold load at h
  split at h
  · next value hv => exact .inl ⟨value, hv, by cases h; rfl⟩
  · next e he =>
    obtain ⟨f, rfl, -, ht⟩ := stopResult_next h
    exact .inr ⟨f, he, ht⟩

/-- A store that answers a next state has completed, or has raised a fault into M-mode after the portions before it. -/
theorem store_next {va : Word} {n : Width} {value : Word} {md : Mode} {s t : State}
    (h : store va n value md s = .next t) :
    ((memWrite s va n value md).2 = none ∧ t = (drawOrder va n (memWrite s va n value md).1).advance) ∨
    (∃ f, (memWrite s va n value md).2 = some (.fault f) ∧
      t = enterM (faultTrap f (memWrite s va n value md).1) (memWrite s va n value md).1) := by
  unfold store at h
  split at h
  · next u hu =>
    rw [hu]
    exact .inl ⟨rfl, by cases h; rfl⟩
  · next u e hu =>
    rw [hu]
    obtain ⟨f, rfl, -, ht⟩ := stopResult_next h
    exact .inr ⟨f, rfl, ht⟩

end Sys2Proof.Machine
end

