-- ==== Sys2Proof/Laws/Bytes.lean ====
section
/-! SUPPORT. The laws of the bytes of an access: the value that bytes make, and that a split access does not depend on the
order in which its bytes are performed (20_memory.md R64, R65). -/

namespace Sys2Proof.Machine

/-! ## The value that bytes make -/

theorem byte_high (b : Byte) (i : Nat) (h : ¬ i < 8) : b.getLsbD i = false := BitVec.getLsbD_of_ge _ _ (by omega)

theorem getLsbD_append_byte {w : Nat} (h : BitVec w) (l : Byte) (i : Nat) :
    (h ++ l).getLsbD i = if i < 8 then l.getLsbD i else h.getLsbD (i - 8) := by
  rw [BitVec.getLsbD_append]

theorem getLsbD_two (b0 b1 : Byte) (i : Nat) :
    (b1 ++ b0 : BitVec 16).getLsbD i = if i < 8 then b0.getLsbD i else b1.getLsbD (i - 8) :=
  getLsbD_append_byte b1 b0 i

theorem getLsbD_three (b0 b1 b2 : Byte) (i : Nat) : (b2 ++ b1 ++ b0 : BitVec 24).getLsbD i =
    if i < 8 then b0.getLsbD i else if i - 8 < 8 then b1.getLsbD (i - 8) else b2.getLsbD (i - 8 - 8) := by
  rw [← getLsbD_two]
  exact getLsbD_append_byte (b2 ++ b1) b0 i

theorem getLsbD_four (b0 b1 b2 b3 : Byte) (i : Nat) : (b3 ++ b2 ++ b1 ++ b0 : BitVec 32).getLsbD i =
    if i < 8 then b0.getLsbD i else if i - 8 < 8 then b1.getLsbD (i - 8)
    else if i - 8 - 8 < 8 then b2.getLsbD (i - 8 - 8) else b3.getLsbD (i - 8 - 8 - 8) := by
  rw [← getLsbD_three]
  exact getLsbD_append_byte (b3 ++ b2 ++ b1) b0 i

theorem valueOfBytes_cons (n k : Nat) (b : Byte) (l : List (Nat × Byte)) :
    valueOfBytes false n ((k, b) :: l) = (b.setWidth 64 <<< (8 * k)) ||| valueOfBytes false n l := rfl

theorem getLsbD_shl_byte (b : Byte) (k i : Nat) (hi : i < 64) :
    ((b.setWidth 64) <<< k).getLsbD i = if i < k then false else b.getLsbD (i - k) := by
  by_cases h : i < k
  · simp [h]
  · have h3 : i - k < 64 := by omega
    rw [BitVec.getLsbD_shiftLeft, BitVec.getLsbD_setWidth]
    simp [hi, h, h3]

/-- Two bytes, the low one first. -/
theorem valueOfBytes_two (b0 b1 : Byte) : valueOfBytes false 2 [(0, b0), (1, b1)] = (b1 ++ b0 : BitVec 16).setWidth 64 := by
  apply BitVec.eq_of_getLsbD_eq
  intro i hi
  rw [BitVec.getLsbD_setWidth, getLsbD_two, valueOfBytes_cons, valueOfBytes_cons, BitVec.getLsbD_or, BitVec.getLsbD_or,
    getLsbD_shl_byte _ _ _ hi, getLsbD_shl_byte _ _ _ hi]
  have : (valueOfBytes false 2 []).getLsbD i = false := by simp [valueOfBytes]
  rw [this]
  simp only [hi, decide_true, Bool.true_and, Nat.reduceMul, Nat.not_lt_zero, if_false, Nat.sub_zero, Bool.or_false]
  split_ifs with h
  · simp
  · simp [byte_high b0 i h]

/-- Four bytes, the low one first. -/
theorem valueOfBytes_four (b0 b1 b2 b3 : Byte) :
    valueOfBytes false 4 [(0, b0), (1, b1), (2, b2), (3, b3)] = (b3 ++ b2 ++ b1 ++ b0 : BitVec 32).setWidth 64 := by
  apply BitVec.eq_of_getLsbD_eq
  intro i hi
  rw [BitVec.getLsbD_setWidth, getLsbD_four, valueOfBytes_cons, valueOfBytes_cons, valueOfBytes_cons, valueOfBytes_cons,
    BitVec.getLsbD_or, BitVec.getLsbD_or, BitVec.getLsbD_or, BitVec.getLsbD_or,
    getLsbD_shl_byte _ _ _ hi, getLsbD_shl_byte _ _ _ hi, getLsbD_shl_byte _ _ _ hi, getLsbD_shl_byte _ _ _ hi]
  have : (valueOfBytes false 4 []).getLsbD i = false := by simp [valueOfBytes]
  rw [this]
  simp only [hi, decide_true, Bool.true_and, Nat.sub_sub, Nat.reduceAdd, Nat.reduceMul, Nat.not_lt_zero, if_false,
    Nat.sub_zero, Bool.or_false]
  split_ifs <;> first
    | omega
    | simp only [byte_high b0 i, byte_high b1 (i - 8), byte_high b2 (i - 16), Bool.false_or, Bool.or_false, *,
        not_false_eq_true]

/-- Eight bytes are two times four. -/
theorem valueOfBytes_eight (b0 b1 b2 b3 b4 b5 b6 b7 : Byte) :
    valueOfBytes false 8 [(0, b0), (1, b1), (2, b2), (3, b3), (4, b4), (5, b5), (6, b6), (7, b7)] =
      valueOfBytes false 4 [(0, b0), (1, b1), (2, b2), (3, b3)] |||
        (valueOfBytes false 4 [(0, b4), (1, b5), (2, b6), (3, b7)] <<< 32) := by
  simp only [valueOfBytes_cons, BitVec.shiftLeft_or_distrib, ← BitVec.shiftLeft_add, BitVec.or_assoc]
  simp only [valueOfBytes, Nat.reduceMul, Nat.reduceAdd, BitVec.zero_shiftLeft, BitVec.or_zero]
  simp only [BitVec.zero_or]

/-- The value does not depend on the order of the list. -/
theorem valueOfBytes_perm (big : Bool) (n : Nat) {l l' : List (Nat × Byte)} (h : l.Perm l') :
    valueOfBytes big n l = valueOfBytes big n l' := by
  induction h with
  | nil => rfl
  | cons x _ ih => simp [valueOfBytes, ih]
  | swap x y l =>
    simp only [valueOfBytes, ← BitVec.or_assoc]
    congr 1
    exact BitVec.or_comm _ _
  | trans _ _ h1 h2 => rw [h1, h2]

/-! ## The order of a split access -/

/-- The order of a split access is one of its portions. -/
theorem reorder_perm {α : Type} (fuel k : Nat) (l : List α) (h : l.length = fuel) : (reorder fuel k l).Perm l := by
  induction fuel generalizing k l with
  | zero => simp [reorder, List.length_eq_zero_iff.mp h]
  | succ n ih =>
    cases l with
    | nil => simp at h
    | cons a rest =>
      rw [reorder]
      have hi : k % (rest.length + 1) < (a :: rest).length := by simpa using Nat.mod_lt _ (Nat.succ_pos _)
      rw [List.getElem?_eq_getElem hi]
      simp only
      refine List.Perm.trans (List.Perm.cons _ (ih _ _ ?_)) ?_
      · rw [List.length_eraseIdx_of_lt hi, h]
        rfl
      · exact List.getElem_cons_eraseIdx_perm hi

/-- A register's value is an XLEN value. -/
theorem xlenCut_x (s : State) (i : RegIdx) : xlenCut s.cfg.mxlen (s.x i) = s.x i := by
  simp only [State.x]
  split <;> simp

theorem portionAddr_zero (s : State) {va : Word} (h : xlenCut s.cfg.mxlen va = va) : portionAddr s va 0 = va := by
  simp [portionAddr, h]

/-- Portions of one byte each, all let through, give their bytes. -/
theorem readPortions_singles (s : State) (va : Word) (kind : AccessKind) (md : Mode) (f : Nat → Nat) (l : List (Nat × Nat))
    (h : ∀ q ∈ l, q.2 = 1 ∧ ∃ pa, translate s (portionAddr s va q.1) 1 kind md = .ok pa ∧ f q.1 = pa.toNat) :
    readPortions s va kind md l = .ok (l.map fun q => (q.1, s.byteAt (f q.1))) := by
  induction l with
  | nil => rfl
  | cons q rest ih =>
    obtain ⟨k, len⟩ := q
    obtain ⟨rfl, pa, h1, h2⟩ := h (k, len) (by simp)
    rw [readPortions]
    simp only at h1 h2
    rw [h1, ih (fun q hq => h q (by simp [hq]))]
    simp [portionBytes, physByte, h2, List.range_one, Nat.mod_eq_of_lt pa.isLt]

/-- A load that stops has stopped at one of its portions. -/
theorem readPortions_error {s : State} {va : Word} {kind : AccessKind} {md : Mode} {l : List (Nat × Nat)} {e : AccessStop}
    (h : readPortions s va kind md l = .error e) :
    ∃ q ∈ l, translate s (portionAddr s va q.1) q.2 kind md = .error e := by
  induction l with
  | nil => cases h
  | cons q rest ih =>
    obtain ⟨k, len⟩ := q
    rw [readPortions] at h
    split at h
    · next e' he =>
      cases h
      exact ⟨(k, len), by simp, he⟩
    · split at h
      · next e' he =>
        cases h
        obtain ⟨q, hq, hqe⟩ := ih he
        exact ⟨q, by simp [hq], hqe⟩
      · cases h

/-- A load that completes has been let through at every portion. -/
theorem readPortions_ok {s : State} {va : Word} {kind : AccessKind} {md : Mode} {l : List (Nat × Nat)}
    {bs : List (Nat × Byte)} (h : readPortions s va kind md l = .ok bs) :
    ∀ q ∈ l, ∃ pa, translate s (portionAddr s va q.1) q.2 kind md = .ok pa := by
  induction l generalizing bs with
  | nil => simp
  | cons q rest ih =>
    obtain ⟨k, len⟩ := q
    rw [readPortions] at h
    split at h
    · cases h
    · next pa hpa =>
      split at h
      · cases h
      · next bs' hbs =>
        intro q hq
        rcases List.mem_cons.mp hq with rfl | hq
        · exact ⟨pa, hpa⟩
        · exact ih hbs q hq

/-- A load whose bytes lie at `f 0`, `f 1`, … gives their value, whatever the order of a split access. -/
theorem memRead_bytesAt (s : State) {va : Word} (n : Width) (kind : AccessKind) (md : Mode) (f : Nat → Nat)
    (hva : xlenCut s.cfg.mxlen va = va) (h : BytesAt s va n kind md f) :
    memRead s va n md kind = .ok (valueOfBytes (bigEndian md s) (widthBytes n)
      ((List.range (widthBytes n)).map fun k => (k, s.byteAt (f k)))) := by
  unfold memRead
  obtain ⟨ha, pa, hp, hf⟩ | ⟨ha, hs, hp⟩ := h
  · have hal : aligned va n = true := by simp [aligned, ha]
    rw [if_neg (by simp [misalignedTraps, hal])]
    simp only [portions, hal, if_true, readPortions, portionAddr_zero s hva, hp]
    congr 1
    simp only [portionBytes, List.append_nil]
    congr 1
    apply List.map_congr_left
    intro k hk
    simp only [List.mem_range] at hk
    simp [hf k hk]
  · have hal : aligned va n = false := by simp [aligned, ha]
    rw [if_neg (by simp [misalignedTraps, hal, hs])]
    simp only [portions, hal]
    have hperm := reorder_perm (widthBytes n) (Config.splitOrder s.draws)
      ((List.range (widthBytes n)).map fun k => (k, 1)) (by simp)
    simp only [Bool.false_eq_true, if_false]
    rw [readPortions_singles s _ kind md f]
    · simp only
      congr 1
      refine (valueOfBytes_perm _ _ (hperm.map _)).trans ?_
      simp [Function.comp_def]
    · intro q hq
      have := hperm.mem_iff.mp hq
      simp only [List.mem_map, List.mem_range] at this
      obtain ⟨k, hk, rfl⟩ := this
      exact ⟨rfl, hp k hk⟩

/-! ## Stores -/

/-- The bytes of a portion that starts at offset 0, in canonical memory: every one is there afterwards. -/
theorem byteAt_storePortion_same (n : Nat) (value pa : Word) (len : Nat) (s : State) (hw : s.mem.wf = true)
    (hd : ∀ j k, j < len → k < len → physByte pa j = physByte pa k → j = k) (k : Nat) (hk : k < len) :
    (storePortion false n value pa 0 len s).byteAt (physByte pa k) = byteOfValue false n value k := by
  induction len with
  | zero => omega
  | succ j ih =>
    rw [storePortion, Nat.zero_add]
    by_cases h : k = j
    · subst h
      exact byteAt_storeByte_same (storePortion_mem_wf _ _ _ _ _ _ _ hw) _ _
    · rw [byteAt_storeByte_other _ _ fun e => h (hd k j hk (Nat.lt_succ_self j) e)]
      exact ih (fun a b ha hb => hd a b (Nat.lt_succ_of_lt ha) (Nat.lt_succ_of_lt hb)) (by omega)

/-- The addresses that a portion records. -/
theorem mem_storePortion_stored (big : Bool) (n : Nat) (value pa : Word) (k len : Nat) (s : State) (a : Nat) :
    a ∈ (storePortion big n value pa k len s).stored ↔ a ∈ s.stored ∨ ∃ j < len, a = physByte pa j := by
  induction len with
  | zero => simp [storePortion]
  | succ j ih =>
    rw [storePortion, mem_storeByte_stored, ih]
    constructor
    · rintro (rfl | h | ⟨i, hi, rfl⟩)
      · exact .inr ⟨j, Nat.lt_succ_self j, rfl⟩
      · exact .inl h
      · exact .inr ⟨i, Nat.lt_succ_of_lt hi, rfl⟩
    · rintro (h | ⟨i, hi, rfl⟩)
      · exact .inr (.inl h)
      · rcases Nat.lt_succ_iff_lt_or_eq.mp hi with hi | rfl
        · exact .inr (.inr ⟨i, hi, rfl⟩)
        · exact .inl rfl

/-- What the portions of a store leave: every one of `done` is at its place, these addresses are recorded, nothing else has
changed. -/
structure PortionsDone (value : Word) (n : Width) (f : Nat → Nat) (done : List (Nat × Nat)) (s u : State) : Prop where
  bytes  : ∀ q ∈ done, u.byteAt (f q.1) = byteOfValue false (widthBytes n) value q.1
  others : ∀ a, (∀ q ∈ done, a ≠ f q.1) → u.byteAt a = s.byteAt a
  stored : ∀ a, a ∈ u.stored ↔ a ∈ s.stored ∨ ∃ q ∈ done, a = f q.1

/-- Portions of one byte each, at different physical addresses that are no page-table bytes: those before the first that
`Translate` stops are stored, and nothing else. -/
theorem writePortions_singles (va : Word) (n : Width) (value : Word) (md : Mode) (f : Nat → Nat) (l : List (Nat × Nat))
    (s : State) (hw : s.mem.wf = true) (hl : bigEndian md s = false)
    (h : ∀ q ∈ l, q.2 = 1 ∧ f q.1 ∉ s.trans.tableBytes ∧
      ∀ pa, translate s (portionAddr s va q.1) 1 .write md = .ok pa → f q.1 = pa.toNat)
    (hd : (l.map fun q => f q.1).Nodup) :
    ∃ done rest, l = done ++ rest ∧ PortionsDone value n f done s (writePortions va n value md l s).1 ∧
      (∀ q ∈ done, ∃ pa, translate s (portionAddr s va q.1) 1 .write md = .ok pa) ∧
      ((rest = [] ∧ (writePortions va n value md l s).2 = none) ∨
        ∃ q rest' e, rest = q :: rest' ∧ translate s (portionAddr s va q.1) 1 .write md = .error e ∧
          (writePortions va n value md l s).2 = some e) := by
  induction l generalizing s with
  | nil => exact ⟨[], [], rfl, ⟨by simp, fun _ _ => rfl, by simp [writePortions]⟩, by simp, .inl ⟨rfl, rfl⟩⟩
  | cons q rest ih =>
    obtain ⟨k, len⟩ := q
    obtain ⟨rfl, hk, hpa⟩ := h (k, len) (by simp)
    simp only at hpa hk
    rw [writePortions]
    cases htr : translate s (portionAddr s va k) 1 .write md with
    | error e =>
      exact ⟨[], (k, 1) :: rest, rfl, ⟨by simp, fun _ _ => rfl, by simp⟩, by simp, .inr ⟨(k, 1), rest, e, rfl, htr, rfl⟩⟩
    | ok pa =>
      have hf : physByte pa 0 = f k := by simp [physByte, hpa pa htr]
      obtain ⟨m, st, e⟩ := storePortion_shape false (widthBytes n) value pa k 1 s
      have hother : ∀ a, a ≠ f k → (withMem s m st).byteAt a = s.byteAt a := fun a ha => by
        rw [← e]
        exact byteAt_storePortion _ _ _ _ _ _ _ _ fun j hj => by
          rw [Nat.lt_one_iff.mp hj, hf]
          exact ha
      have hsame : ∀ a ∈ s.trans.tableBytes, (withMem s m st).byteAt a = s.byteAt a :=
        fun a ha => hother a fun e => hk (e ▸ ha)
      have hwf : (withMem s m st).mem.wf = true := e ▸ storePortion_mem_wf false (widthBytes n) value pa k 1 s hw
      have hnd := List.nodup_cons.mp hd
      obtain ⟨done, rest', hsplit, hdone, hok, hend⟩ := ih (withMem s m st) hwf hl
        (fun q hq => ⟨(h q (by simp [hq])).1, (h q (by simp [hq])).2.1, fun pb hb =>
          (h q (by simp [hq])).2.2 pb (by rw [← hb]; exact (translate_withMem st hsame _ _ _ _).symm)⟩) hnd.2
      have hk' : ∀ q ∈ done, f k ≠ f q.1 := fun q hq e =>
        hnd.1 (List.mem_map.mpr ⟨q, hsplit ▸ List.mem_append_left _ hq, e.symm⟩)
      simp only [hl, e]
      refine ⟨(k, 1) :: done, rest', by rw [hsplit]; rfl, ⟨?_, ?_, ?_⟩, ?_, ?_⟩
      · intro q hq
        rcases List.mem_cons.mp hq with rfl | hq
        · rw [hdone.others _ hk', ← e, storePortion, storePortion, hf]
          exact byteAt_storeByte_same hw _ _
        · exact hdone.bytes q hq
      · intro a ha
        rw [hdone.others a fun q hq => ha q (List.mem_cons_of_mem _ hq), hother a (ha (k, 1) (by simp))]
      · intro a
        rw [hdone.stored, ← e, mem_storePortion_stored]
        simp only [Nat.lt_one_iff, exists_eq_left, hf, List.mem_cons, exists_eq_or_imp, or_assoc]
      · intro q hq
        rcases List.mem_cons.mp hq with rfl | hq
        · exact ⟨pa, htr⟩
        · obtain ⟨pb, hb⟩ := hok q hq
          exact ⟨pb, by rw [← hb]; exact (translate_withMem st hsame _ _ _ _).symm⟩
      · obtain hend | ⟨q, r, e', h1, h2, h3⟩ := hend
        · exact .inl hend
        · exact .inr ⟨q, r, e', h1, by rw [← h2]; exact (translate_withMem st hsame _ _ _ _).symm, h3⟩

/-- The portions of a split access. -/
theorem mem_portions_split {va : Word} {n : Width} (h : aligned va n = false) (order : Nat) (q : Nat × Nat) :
    q ∈ portions va n order ↔ ∃ k < widthBytes n, (k, 1) = q := by
  simp only [portions, h, Bool.false_eq_true, if_false]
  rw [(reorder_perm _ _ _ (by simp)).mem_iff]
  simp

/-- The portions of a split access lie at different addresses where its bytes do. -/
theorem portions_split_nodup {va : Word} {n : Width} (h : aligned va n = false) (order : Nat) {f : Nat → Nat}
    (hd : Distinct f (widthBytes n)) : ((portions va n order).map fun q => f q.1).Nodup := by
  simp only [portions, h, Bool.false_eq_true, if_false]
  refine ((reorder_perm (widthBytes n) order _ (by simp)).map fun q : Nat × Nat => f q.1).nodup_iff.mpr ?_
  rw [List.map_map]
  refine List.Nodup.map_on ?_ List.nodup_range
  intro a h1 b h2 e
  exact hd a b (List.mem_range.mp h1) (List.mem_range.mp h2) e

/-- What a split store does: the portions before the first that stops, if any, are stored. -/
theorem memWrite_split (s : State) {va : Word} (n : Width) (value : Word) (md : Mode) (f : Nat → Nat)
    (hal : aligned va n = false) (hs : s.cfg.misaligned = .split) (hw : s.mem.wf = true) (hl : bigEndian md s = false)
    (hd : Distinct f (widthBytes n)) (ht : ∀ k < widthBytes n, f k ∉ s.trans.tableBytes)
    (h : ∀ k < widthBytes n, ∀ pa, translate s (portionAddr s va k) 1 .write md = .ok pa → f k = pa.toNat) :
    ∃ done rest, portions va n (Config.splitOrder s.draws) = done ++ rest ∧
      PortionsDone value n f done s (memWrite s va n value md).1 ∧
      (∀ q ∈ done, ∃ pa, translate s (portionAddr s va q.1) 1 .write md = .ok pa) ∧
      ((rest = [] ∧ (memWrite s va n value md).2 = none) ∨
        ∃ q rest' e, rest = q :: rest' ∧ translate s (portionAddr s va q.1) 1 .write md = .error e ∧
          (memWrite s va n value md).2 = some e) := by
  unfold memWrite
  rw [if_neg (by simp [misalignedTraps, hal, hs])]
  refine writePortions_singles va n value md f _ s hw hl (fun q hq => ?_) (portions_split_nodup hal _ hd)
  obtain ⟨k, hk, rfl⟩ := (mem_portions_split hal _ q).mp hq
  exact ⟨rfl, ht k hk, h k hk⟩

/-- A store whose bytes lie at `f 0`, `f 1`, …, all different, completes: each byte is there, these addresses are recorded, and
nothing else has changed, whatever the order of a split access. -/
theorem memWrite_bytesAt (s : State) {va : Word} (n : Width) (value : Word) (md : Mode) (f : Nat → Nat)
    (hva : xlenCut s.cfg.mxlen va = va) (hw : s.mem.wf = true) (hl : bigEndian md s = false)
    (hd : Distinct f (widthBytes n)) (ht : TablesApart s va n f) (h : BytesAt s va n .write md f) :
    (memWrite s va n value md).2 = none ∧
    (∀ k < widthBytes n, (memWrite s va n value md).1.byteAt (f k) = byteOfValue false (widthBytes n) value k) ∧
    (∀ a, (∀ k < widthBytes n, a ≠ f k) → (memWrite s va n value md).1.byteAt a = s.byteAt a) ∧
    (∀ a, a ∈ (memWrite s va n value md).1.stored ↔ a ∈ s.stored ∨ ∃ k < widthBytes n, a = f k) := by
  obtain ⟨ha, pa, hp, hf⟩ | ⟨ha, hs, hp⟩ := h
  · have hal : aligned va n = true := by simp [aligned, ha]
    unfold memWrite
    rw [if_neg (by simp [misalignedTraps, hal])]
    simp only [portions, hal, if_true, writePortions, portionAddr_zero s hva, hp, hl]
    refine ⟨trivial, fun k hk => ?_, fun a hk => ?_, fun a => ?_⟩
    · rw [hf k hk]
      exact byteAt_storePortion_same _ _ _ _ _ hw
        (fun a b h1 h2 e => hd a b h1 h2 (by rw [hf a h1, hf b h2, e])) k hk
    · exact byteAt_storePortion _ _ _ _ _ _ _ _ fun j hj e => hk j hj (by rw [hf j hj, e])
    · rw [mem_storePortion_stored]
      exact or_congr_right (exists_congr fun k => and_congr_right fun hk => by rw [hf k hk])
  · have hal : aligned va n = false := by simp [aligned, ha]
    obtain ⟨done, rest, hsplit, hdone, -, hend⟩ := memWrite_split s n value md f hal hs hw hl hd
      (ht.resolve_left ha) fun k hk pa hpa => by
        obtain ⟨pb, h1, h2⟩ := hp k hk
        rw [portionAddr, h1] at hpa
        cases hpa
        exact h2
    obtain ⟨rfl, hnone⟩ | ⟨q, r, e, rfl, he, -⟩ := hend
    · rw [List.append_nil] at hsplit
      have hmem : ∀ q, q ∈ done ↔ ∃ k < widthBytes n, (k, 1) = q := fun q => hsplit ▸ mem_portions_split hal _ q
      refine ⟨hnone, fun k hk => hdone.bytes (k, 1) ((hmem _).mpr ⟨k, hk, rfl⟩), fun a ha => hdone.others a fun q hq => ?_,
        fun a => ?_⟩
      · obtain ⟨k, hk, rfl⟩ := (hmem q).mp hq
        exact ha k hk
      · rw [hdone.stored]
        refine or_congr_right ⟨?_, fun ⟨k, hk, e⟩ => ⟨(k, 1), (hmem _).mpr ⟨k, hk, rfl⟩, e⟩⟩
        rintro ⟨q, hq, e⟩
        obtain ⟨k, hk, rfl⟩ := (hmem q).mp hq
        exact ⟨k, hk, e⟩
    · have hq : q ∈ portions va n (Config.splitOrder s.draws) := by simp [hsplit]
      obtain ⟨k, hk, rfl⟩ := (mem_portions_split hal _ q).mp hq
      obtain ⟨pb, h1, -⟩ := hp k hk
      rw [portionAddr, h1] at he
      cases he

/-- The byte at offset `k` of a little-endian store. -/
theorem byteOfValue_little (n : Nat) (value : Word) (k : Nat) :
    byteOfValue false n value k = value.extractLsb' (8 * k) 8 := by
  simp [byteOfValue, bytePlace, BitVec.extractLsb']
  rfl

end Sys2Proof.Machine
end

