-- ==== Sys2Proof/Laws/Csr.lean ====
section
/-! SUPPORT. The laws of the CSR operations: what a write leaves alone, and what a CSR instruction can do. -/

namespace Sys2Proof.Machine

/-! ## What a CSR write leaves alone -/

@[simp] theorem csrWrite_cfg (r : Csr) (a : Word) (s : State) : (csrWrite r a s).cfg = s.cfg := by
  cases r <;> rfl
@[simp] theorem csrWrite_priv (r : Csr) (a : Word) (s : State) : (csrWrite r a s).priv = s.priv := by
  cases r <;> rfl
@[simp] theorem csrWrite_v (r : Csr) (a : Word) (s : State) : (csrWrite r a s).v = s.v := by
  cases r <;> rfl
@[simp] theorem csrWrite_pc (r : Csr) (a : Word) (s : State) : (csrWrite r a s).pc = s.pc := by
  cases r <;> rfl
@[simp] theorem csrWrite_regs (r : Csr) (a : Word) (s : State) : (csrWrite r a s).regs = s.regs := by
  cases r <;> rfl
@[simp] theorem csrWrite_mtval (r : Csr) (a : Word) (s : State) : (csrWrite r a s).mtval = s.mtval := by
  cases r <;> rfl
@[simp] theorem csrWrite_trans (r : Csr) (a : Word) (s : State) : (csrWrite r a s).trans = s.trans := by
  cases r <;> rfl
@[simp] theorem csrWrite_mem (r : Csr) (a : Word) (s : State) : (csrWrite r a s).mem = s.mem := by
  cases r <;> rfl
@[simp] theorem csrWrite_stored (r : Csr) (a : Word) (s : State) : (csrWrite r a s).stored = s.stored := by
  cases r <;> rfl
@[simp] theorem csrWrite_env (r : Csr) (a : Word) (s : State) : (csrWrite r a s).env = s.env := by
  cases r <;> rfl
@[simp] theorem csrWrite_draws (r : Csr) (a : Word) (s : State) : (csrWrite r a s).draws = s.draws := by
  cases r <;> rfl

@[simp] theorem x_csrWrite (r : Csr) (a : Word) (s : State) (i : RegIdx) : (csrWrite r a s).x i = s.x i :=
  x_congr (csrWrite_regs r a s) (csrWrite_cfg r a s) i

@[simp] theorem byteAt_csrWrite (r : Csr) (a : Word) (s : State) (b : Nat) : (csrWrite r a s).byteAt b = s.byteAt b :=
  byteAt_congr (csrWrite_mem r a s) b

/-! ## Byte order (D6): no CSR write changes a byte-order field -/

/-- The five byte-order fields of a state. -/
def orderBits (s : State) : Bool × Bool × Bool × Bool × Bool :=
  (s.mstatus.mbe, s.mstatus.sbe, s.mstatus.ube, s.hstatus.vsbe, s.vsstatus.ube)

theorem bigEndian_congr {s t : State} (h : orderBits t = orderBits s) (md : Mode) : bigEndian md t = bigEndian md s := by
  simp only [orderBits, Prod.mk.injEq] at h
  obtain ⟨h1, h2, h3, h4, h5⟩ := h
  obtain ⟨p, v⟩ := md
  cases p <;> cases v <;> simp [bigEndian, h1, h2, h3, h4, h5]

@[simp] theorem orderBits_csrWrite (r : Csr) (a : Word) (s : State) : orderBits (csrWrite r a s) = orderBits s := by
  cases hm : s.cfg.mxlen <;> cases r <;> simp only [csrWrite, hm] <;> rfl

/-! ## Widths (D4): no CSR write changes SXL, UXL or VSXL -/

/-- The four width fields of a state. -/
def xlenBits (s : State) : BitVec 2 × BitVec 2 × BitVec 2 × BitVec 2 :=
  (s.mstatus.sxl, s.mstatus.uxl, s.vsstatus.uxl, s.hstatus.vsxl)

@[simp] theorem xlenBits_csrWrite (r : Csr) (a : Word) (s : State) : xlenBits (csrWrite r a s) = xlenBits s := by
  cases hm : s.cfg.mxlen <;> cases r <;> simp only [csrWrite, hm] <;> rfl

/-! ## Legal values -/

/-- No CSR write leaves 2 in MPP (R17). -/
theorem csrWrite_mpp_legal (r : Csr) (a : Word) {s : State} (h : s.mstatus.mpp ≠ 2#2) :
    (csrWrite r a s).mstatus.mpp ≠ 2#2 := by
  cases r <;> try exact h
  cases hm : s.cfg.mxlen <;> simp only [csrWrite, hm] <;> exact mppWrite_legal _ _

/-- A CSR write keeps `mtval2` legal (R35). -/
theorem csrWrite_mtval2_legal (r : Csr) (a : Word) {s : State}
    (h : legalIn s.cfg.mxlen s.cfg.mtval2Legal s.mtval2 = true) :
    legalIn s.cfg.mxlen s.cfg.mtval2Legal (csrWrite r a s).mtval2 = true := by
  cases r <;> try exact h
  exact warlWrite_legal _ _ _ _ _

/-- A CSR write keeps `mtinst` legal (R37). -/
theorem csrWrite_mtinst_legal (r : Csr) (a : Word) {s : State}
    (h : legalIn s.cfg.mxlen s.cfg.mtinstLegal s.mtinst = true) :
    legalIn s.cfg.mxlen s.cfg.mtinstLegal (csrWrite r a s).mtinst = true := by
  cases r <;> try exact h
  exact warlWrite_legal _ _ _ _ _

/-! ## What a CSR instruction can do -/

/-- The state that a CSR access leaves which passes its check. -/
def csrDone (rd : RegIdx) (writes : Bool) (new : Word → Word) (r : Csr) (s : State) : State :=
  ((if writes then csrWrite r (new (csrRead r s)) s else s).setX rd (csrRead r s)).advance

/-- A CSR instruction that answers a next state has raised into M-mode, or has passed its check and done its access. -/
theorem csrAccess_next {i : Instr} {n : CsrNum} {rd : RegIdx} {writes : Bool} {new : Word → Word} {s t : State}
    (h : csrAccess i n rd writes new s = .next t) :
    (∃ e, csrCheck n writes s = .error e ∧ t = enterM (instrTrap e (encode i) s) s) ∨
    (∃ r, csrCheck n writes s = .ok r ∧ t = csrDone rd writes new r s) := by
  unfold csrAccess at h
  split at h
  · next e he => exact .inl ⟨e, he, (raiseInstr_next h).2⟩
  · cases h
  · next r _ hr => exact .inr ⟨r, hr, by cases h; rfl⟩

/-- A CSR access that passes its check for a register of this spec completes. -/
theorem csrAccess_of_ok {i : Instr} {n : CsrNum} {rd : RegIdx} {writes : Bool} {new : Word → Word} {s : State} {r : Csr}
    (h : csrCheck n writes s = .ok r) (hf : ∀ k, r ≠ .foreign k) :
    csrAccess i n rd writes new s = .next (csrDone rd writes new r s) := by
  unfold csrAccess
  rw [h]
  cases r <;> first | rfl | exact absurd rfl (hf _)

/-- A CSR access whose check fails raises. -/
theorem csrAccess_of_error {i : Instr} {n : CsrNum} {rd : RegIdx} {writes : Bool} {new : Word → Word} {s : State} {e : Exc}
    (h : csrCheck n writes s = .error e) : csrAccess i n rd writes new s = raiseInstr e (encode i) s := by
  unfold csrAccess
  rw [h]

end Sys2Proof.Machine
end

