-- ==== Sys2Proof/Laws/Decode.lean ====
section
/-! SUPPORT. The fields of the words that the two formats build (30_encoding.md R81, R82). -/

namespace Sys2Proof

section csr
variable (csr : CsrNum) (rs1 : RegIdx) (funct3 : BitVec 3) (rd : RegIdx)

/-- A bit of a word of format I-CSR. -/
theorem getLsbD_encCsr (k : Nat) : (encCsr csr rs1 funct3 rd).getLsbD k =
    if k < 7 then opSystem.getLsbD k else if k < 12 then rd.getLsbD (k - 7) else if k < 15 then funct3.getLsbD (k - 12)
    else if k < 20 then rs1.getLsbD (k - 15) else csr.getLsbD (k - 20) := by
  unfold encCsr
  erw [BitVec.getLsbD_append, BitVec.getLsbD_append, BitVec.getLsbD_append, BitVec.getLsbD_append]
  simp only [Nat.sub_sub, Nat.reduceAdd]
  split_ifs <;> first | rfl | omega

@[simp] theorem fOpcode_encCsr : fOpcode (encCsr csr rs1 funct3 rd) = opSystem := by
  ext i hi
  rw [fOpcode, BitVec.getElem_extractLsb', getLsbD_encCsr, if_pos (by omega), Nat.zero_add, BitVec.getLsbD_eq_getElem hi]

@[simp] theorem fRd_encCsr : fRd (encCsr csr rs1 funct3 rd) = rd := by
  ext i hi
  rw [fRd, BitVec.getElem_extractLsb', getLsbD_encCsr, if_neg (by omega), if_pos (by omega), Nat.add_sub_cancel_left,
    BitVec.getLsbD_eq_getElem hi]

@[simp] theorem fFunct3_encCsr : fFunct3 (encCsr csr rs1 funct3 rd) = funct3 := by
  ext i hi
  rw [fFunct3, BitVec.getElem_extractLsb', getLsbD_encCsr, if_neg (by omega), if_neg (by omega), if_pos (by omega),
    Nat.add_sub_cancel_left, BitVec.getLsbD_eq_getElem hi]

@[simp] theorem fRs1_encCsr : fRs1 (encCsr csr rs1 funct3 rd) = rs1 := by
  ext i hi
  rw [fRs1, BitVec.getElem_extractLsb', getLsbD_encCsr, if_neg (by omega), if_neg (by omega), if_neg (by omega),
    if_pos (by omega), Nat.add_sub_cancel_left, BitVec.getLsbD_eq_getElem hi]

@[simp] theorem fCsr_encCsr : fCsr (encCsr csr rs1 funct3 rd) = csr := by
  ext i hi
  rw [fCsr, BitVec.getElem_extractLsb', getLsbD_encCsr, if_neg (by omega), if_neg (by omega), if_neg (by omega),
    if_neg (by omega), Nat.add_sub_cancel_left, BitVec.getLsbD_eq_getElem hi]

end csr

section sys
variable (funct7 : BitVec 7) (rs2 rs1 : RegIdx) (funct3 : BitVec 3) (rd : RegIdx)

/-- A bit of a word of format R-SYS. -/
theorem getLsbD_encSys (k : Nat) : (encSys funct7 rs2 rs1 funct3 rd).getLsbD k =
    if k < 7 then opSystem.getLsbD k else if k < 12 then rd.getLsbD (k - 7) else if k < 15 then funct3.getLsbD (k - 12)
    else if k < 20 then rs1.getLsbD (k - 15) else if k < 25 then rs2.getLsbD (k - 20) else funct7.getLsbD (k - 25) := by
  unfold encSys
  erw [BitVec.getLsbD_append, BitVec.getLsbD_append, BitVec.getLsbD_append, BitVec.getLsbD_append, BitVec.getLsbD_append]
  simp only [Nat.sub_sub, Nat.reduceAdd]
  split_ifs <;> first | rfl | omega

@[simp] theorem fOpcode_encSys : fOpcode (encSys funct7 rs2 rs1 funct3 rd) = opSystem := by
  ext i hi
  rw [fOpcode, BitVec.getElem_extractLsb', getLsbD_encSys, if_pos (by omega), Nat.zero_add, BitVec.getLsbD_eq_getElem hi]

@[simp] theorem fRd_encSys : fRd (encSys funct7 rs2 rs1 funct3 rd) = rd := by
  ext i hi
  rw [fRd, BitVec.getElem_extractLsb', getLsbD_encSys, if_neg (by omega), if_pos (by omega), Nat.add_sub_cancel_left,
    BitVec.getLsbD_eq_getElem hi]

@[simp] theorem fFunct3_encSys : fFunct3 (encSys funct7 rs2 rs1 funct3 rd) = funct3 := by
  ext i hi
  rw [fFunct3, BitVec.getElem_extractLsb', getLsbD_encSys, if_neg (by omega), if_neg (by omega), if_pos (by omega),
    Nat.add_sub_cancel_left, BitVec.getLsbD_eq_getElem hi]

@[simp] theorem fRs1_encSys : fRs1 (encSys funct7 rs2 rs1 funct3 rd) = rs1 := by
  ext i hi
  rw [fRs1, BitVec.getElem_extractLsb', getLsbD_encSys, if_neg (by omega), if_neg (by omega), if_neg (by omega),
    if_pos (by omega), Nat.add_sub_cancel_left, BitVec.getLsbD_eq_getElem hi]

@[simp] theorem fRs2_encSys : fRs2 (encSys funct7 rs2 rs1 funct3 rd) = rs2 := by
  ext i hi
  rw [fRs2, BitVec.getElem_extractLsb', getLsbD_encSys, if_neg (by omega), if_neg (by omega), if_neg (by omega),
    if_neg (by omega), if_pos (by omega), Nat.add_sub_cancel_left, BitVec.getLsbD_eq_getElem hi]

@[simp] theorem fFunct7_encSys : fFunct7 (encSys funct7 rs2 rs1 funct3 rd) = funct7 := by
  ext i hi
  rw [fFunct7, BitVec.getElem_extractLsb', getLsbD_encSys, if_neg (by omega), if_neg (by omega), if_neg (by omega),
    if_neg (by omega), if_neg (by omega), Nat.add_sub_cancel_left, BitVec.getLsbD_eq_getElem hi]

end sys

end Sys2Proof
end

