-- ==== Sys2Proof/Laws/Exec.lean ====
section
/-! SUPPORT. One equation per instruction: the shared operation that its meaning is. -/

namespace Sys2Proof.Machine

section csr
variable (rd rs1 : RegIdx) (n : CsrNum) (u : BitVec 5) (s : State)

theorem exec_csrrw : exec (.csrrw rd n rs1) s = csrAccess (.csrrw rd n rs1) n rd true (fun _ => s.x rs1) s := by
  simp only [exec, execCsrrw]

theorem exec_csrrs : exec (.csrrs rd n rs1) s =
    csrAccess (.csrrs rd n rs1) n rd (rs1 != 0#5) (fun old => old ||| s.x rs1) s := by
  simp only [exec, execCsrrs]

theorem exec_csrrc : exec (.csrrc rd n rs1) s =
    csrAccess (.csrrc rd n rs1) n rd (rs1 != 0#5) (fun old => old &&& ~~~(s.x rs1)) s := by
  simp only [exec, execCsrrc]

theorem exec_csrrwi : exec (.csrrwi rd n u) s = csrAccess (.csrrwi rd n u) n rd true (fun _ => zextUimm u) s := by
  simp only [exec, execCsrrwi]

theorem exec_csrrsi : exec (.csrrsi rd n u) s =
    csrAccess (.csrrsi rd n u) n rd (u != 0#5) (fun old => old ||| zextUimm u) s := by
  simp only [exec, execCsrrsi]

theorem exec_csrrci : exec (.csrrci rd n u) s =
    csrAccess (.csrrci rd n u) n rd (u != 0#5) (fun old => old &&& ~~~(zextUimm u)) s := by
  simp only [exec, execCsrrci]

end csr

/-- A CSR instruction is one access to the CSR that it names. -/
theorem exec_of_csrOf {i : Instr} {n : CsrNum} {w : Bool} (h : csrOf i = some (n, w)) :
    ∃ (rd : RegIdx) (new : State → Word → Word), ∀ s, exec i s = csrAccess i n rd w (new s) s := by
  cases i <;> simp [csrOf] at h <;> obtain ⟨rfl, rfl⟩ := h
  · exact ⟨_, _, fun s => exec_csrrw _ _ _ s⟩
  · exact ⟨_, _, fun s => exec_csrrs _ _ _ s⟩
  · exact ⟨_, _, fun s => exec_csrrc _ _ _ s⟩
  · exact ⟨_, _, fun s => exec_csrrwi _ _ _ s⟩
  · exact ⟨_, _, fun s => exec_csrrsi _ _ _ s⟩
  · exact ⟨_, _, fun s => exec_csrrci _ _ _ s⟩

theorem exec_mret (s : State) : exec .mret s = execMret s := by simp only [exec]

theorem exec_hfenceVvma (rs1 rs2 : RegIdx) (s : State) : exec (.hfenceVvma rs1 rs2) s = execHfenceVvma rs1 rs2 s := by
  simp only [exec]

theorem exec_hfenceGvma (rs1 rs2 : RegIdx) (s : State) : exec (.hfenceGvma rs1 rs2) s = execHfenceGvma rs1 rs2 s := by
  simp only [exec]

section loads
variable (rd rs1 : RegIdx) (s : State)

theorem exec_hlvB : exec (.hlvB rd rs1) s = hypLoad (.hlvB rd rs1) rd rs1 .b true .read s := by
  simp only [exec, execHlvB]

theorem exec_hlvBu : exec (.hlvBu rd rs1) s = hypLoad (.hlvBu rd rs1) rd rs1 .b false .read s := by
  simp only [exec, execHlvBu]

theorem exec_hlvH : exec (.hlvH rd rs1) s = hypLoad (.hlvH rd rs1) rd rs1 .h true .read s := by
  simp only [exec, execHlvH]

theorem exec_hlvHu : exec (.hlvHu rd rs1) s = hypLoad (.hlvHu rd rs1) rd rs1 .h false .read s := by
  simp only [exec, execHlvHu]

theorem exec_hlvxHu : exec (.hlvxHu rd rs1) s = hypLoad (.hlvxHu rd rs1) rd rs1 .h false .executeAsRead s := by
  simp only [exec, execHlvxHu]

theorem exec_hlvW : exec (.hlvW rd rs1) s = hypLoad (.hlvW rd rs1) rd rs1 .w true .read s := by
  simp only [exec, execHlvW]

theorem exec_hlvxWu : exec (.hlvxWu rd rs1) s = hypLoad (.hlvxWu rd rs1) rd rs1 .w false .executeAsRead s := by
  simp only [exec, execHlvxWu]

theorem exec_hlvWu : exec (.hlvWu rd rs1) s = hypLoad (.hlvWu rd rs1) rd rs1 .w false .read s := by
  simp only [exec, execHlvWu]

theorem exec_hlvD : exec (.hlvD rd rs1) s = hypLoad (.hlvD rd rs1) rd rs1 .d false .read s := by
  simp only [exec, execHlvD]

end loads

section stores
variable (rs2 rs1 : RegIdx) (s : State)

theorem exec_hsvB : exec (.hsvB rs2 rs1) s = hypStore (.hsvB rs2 rs1) rs2 rs1 .b s := by
  simp only [exec, execHsvB]

theorem exec_hsvH : exec (.hsvH rs2 rs1) s = hypStore (.hsvH rs2 rs1) rs2 rs1 .h s := by
  simp only [exec, execHsvH]

theorem exec_hsvW : exec (.hsvW rs2 rs1) s = hypStore (.hsvW rs2 rs1) rs2 rs1 .w s := by
  simp only [exec, execHsvW]

theorem exec_hsvD : exec (.hsvD rs2 rs1) s = hypStore (.hsvD rs2 rs1) rs2 rs1 .d s := by
  simp only [exec, execHsvD]

end stores

/-- An HLV, HLVX or HSV is one load or one store. -/
theorem exec_of_hypOf {i : Instr} {rs1 : RegIdx} {n : Width} {kind : AccessKind} (h : hypOf i = some (rs1, n, kind)) :
    (∃ rd signed, kind ≠ .write ∧ ∀ s, exec i s = hypLoad i rd rs1 n signed kind s) ∨
    (∃ rs2, kind = .write ∧ storeSource i = some rs2 ∧ ∀ s, exec i s = hypStore i rs2 rs1 n s) := by
  cases i <;> simp [hypOf] at h <;> obtain ⟨rfl, rfl, rfl⟩ := h
  · exact .inl ⟨_, _, by decide, fun s => exec_hlvB _ _ s⟩
  · exact .inl ⟨_, _, by decide, fun s => exec_hlvBu _ _ s⟩
  · exact .inl ⟨_, _, by decide, fun s => exec_hlvH _ _ s⟩
  · exact .inl ⟨_, _, by decide, fun s => exec_hlvHu _ _ s⟩
  · exact .inl ⟨_, _, by decide, fun s => exec_hlvxHu _ _ s⟩
  · exact .inl ⟨_, _, by decide, fun s => exec_hlvW _ _ s⟩
  · exact .inl ⟨_, _, by decide, fun s => exec_hlvxWu _ _ s⟩
  · exact .inl ⟨_, _, by decide, fun s => exec_hlvWu _ _ s⟩
  · exact .inl ⟨_, _, by decide, fun s => exec_hlvD _ _ s⟩
  · exact .inr ⟨_, rfl, rfl, fun s => exec_hsvB _ _ s⟩
  · exact .inr ⟨_, rfl, rfl, fun s => exec_hsvH _ _ s⟩
  · exact .inr ⟨_, rfl, rfl, fun s => exec_hsvW _ _ s⟩
  · exact .inr ⟨_, rfl, rfl, fun s => exec_hsvD _ _ s⟩

/-- Where HLV, HLVX and HSV may execute, their check passes. -/
theorem hypCheck_of_allowed {s : State} (h : HypAllowed s) : hypCheck s = none := by
  unfold hypCheck
  rw [if_neg (by simp [h.1]), if_neg]
  rintro ⟨h1, h2⟩
  simp [h.2 h1] at h2

end Sys2Proof.Machine
end

