-- ==== Sys2Proof/Laws/PerInstr.lean ====
section
/-! SUPPORT. The family MajorOpcode: every instruction's word has the major opcode SYSTEM in bits 6:0, so it announces 32
bits (30_encoding.md R80, R81, R82). -/

namespace Sys2Proof.Laws.MajorOpcode

/-- Bits 6:0 of the instruction's word are `1110011`. -/
def Statement (i : Instr) : Prop := fOpcode (encode i) = opSystem

theorem csrrw (rd : RegIdx) (csr : CsrNum) (rs1 : RegIdx) : Statement (.csrrw rd csr rs1) := fOpcode_encCsr _ _ _ _
theorem csrrs (rd : RegIdx) (csr : CsrNum) (rs1 : RegIdx) : Statement (.csrrs rd csr rs1) := fOpcode_encCsr _ _ _ _
theorem csrrc (rd : RegIdx) (csr : CsrNum) (rs1 : RegIdx) : Statement (.csrrc rd csr rs1) := fOpcode_encCsr _ _ _ _
theorem csrrwi (rd : RegIdx) (csr : CsrNum) (uimm : BitVec 5) : Statement (.csrrwi rd csr uimm) := fOpcode_encCsr _ _ _ _
theorem csrrsi (rd : RegIdx) (csr : CsrNum) (uimm : BitVec 5) : Statement (.csrrsi rd csr uimm) := fOpcode_encCsr _ _ _ _
theorem csrrci (rd : RegIdx) (csr : CsrNum) (uimm : BitVec 5) : Statement (.csrrci rd csr uimm) := fOpcode_encCsr _ _ _ _
theorem mret : Statement (.mret) := fOpcode_encSys _ _ _ _ _
theorem hfenceVvma (rs1 rs2 : RegIdx) : Statement (.hfenceVvma rs1 rs2) := fOpcode_encSys _ _ _ _ _
theorem hfenceGvma (rs1 rs2 : RegIdx) : Statement (.hfenceGvma rs1 rs2) := fOpcode_encSys _ _ _ _ _
theorem hlvB (rd rs1 : RegIdx) : Statement (.hlvB rd rs1) := fOpcode_encSys _ _ _ _ _
theorem hlvBu (rd rs1 : RegIdx) : Statement (.hlvBu rd rs1) := fOpcode_encSys _ _ _ _ _
theorem hlvH (rd rs1 : RegIdx) : Statement (.hlvH rd rs1) := fOpcode_encSys _ _ _ _ _
theorem hlvHu (rd rs1 : RegIdx) : Statement (.hlvHu rd rs1) := fOpcode_encSys _ _ _ _ _
theorem hlvxHu (rd rs1 : RegIdx) : Statement (.hlvxHu rd rs1) := fOpcode_encSys _ _ _ _ _
theorem hlvW (rd rs1 : RegIdx) : Statement (.hlvW rd rs1) := fOpcode_encSys _ _ _ _ _
theorem hlvxWu (rd rs1 : RegIdx) : Statement (.hlvxWu rd rs1) := fOpcode_encSys _ _ _ _ _
theorem hlvWu (rd rs1 : RegIdx) : Statement (.hlvWu rd rs1) := fOpcode_encSys _ _ _ _ _
theorem hlvD (rd rs1 : RegIdx) : Statement (.hlvD rd rs1) := fOpcode_encSys _ _ _ _ _
theorem hsvB (rs2 rs1 : RegIdx) : Statement (.hsvB rs2 rs1) := fOpcode_encSys _ _ _ _ _
theorem hsvH (rs2 rs1 : RegIdx) : Statement (.hsvH rs2 rs1) := fOpcode_encSys _ _ _ _ _
theorem hsvW (rs2 rs1 : RegIdx) : Statement (.hsvW rs2 rs1) := fOpcode_encSys _ _ _ _ _
theorem hsvD (rs2 rs1 : RegIdx) : Statement (.hsvD rs2 rs1) := fOpcode_encSys _ _ _ _ _

end Sys2Proof.Laws.MajorOpcode
end

