-- ==== Sys2Proof/Laws/Step.lean ====
section
/-! SUPPORT. Everything that one instruction and one step can do, said once: a next state has one of six shapes. -/

namespace Sys2Proof.Machine

/-- The shapes of a next state of the hart. -/
inductive HartShape (s : State) : State → Prop where
  /-- A trap into M-mode, after the portions of a store that had been written. -/
  | trap (tr : Trap) (m : Memory) (st : List Nat) (hm : s.mem.wf = true → m.wf = true) :
      HartShape s (enterM tr (withMem s m st))
  /-- A CSR access that passed its check. -/
  | csr (n : CsrNum) (rd : RegIdx) (writes : Bool) (new : Word → Word) (r : Csr) (h : csrCheck n writes s = .ok r) :
      HartShape s (csrDone rd writes new r s)
  /-- A return from a trap, in M-mode. -/
  | ret (p : Priv) (hp : s.priv = .m) (h : privOfBits s.mstatus.mpp = some p) : HartShape s (returnTo p s)
  /-- A fence. -/
  | fence : HartShape s s.advance
  /-- A load. -/
  | load (rd : RegIdx) (a va : Word) (n : Width) : HartShape s ((drawOrder va n s).setX rd a).advance
  /-- A store. -/
  | store (m : Memory) (st : List Nat) (va : Word) (n : Width) (hm : s.mem.wf = true → m.wf = true) :
      HartShape s (drawOrder va n (withMem s m st)).advance

/-- A trap without a store before it. -/
theorem HartShape.plainTrap (s : State) (tr : Trap) : HartShape s (enterM tr s) :=
  HartShape.trap tr s.mem s.stored id

theorem takeTrap_shape {tr : Trap} {s t : State} (h : takeTrap tr s = .next t) : HartShape s t := by
  rw [(takeTrap_next h).2]
  exact .plainTrap s tr

theorem raiseInstr_shape {e : Exc} {ir : InstrWord} {s t : State} (h : raiseInstr e ir s = .next t) : HartShape s t :=
  takeTrap_shape h

theorem load_shape {rd : RegIdx} {va : Word} {n : Width} {signed : Bool} {md : Mode} {kind : AccessKind} {s t : State}
    (h : load rd va n signed md kind s = .next t) : HartShape s t := by
  obtain ⟨value, -, rfl⟩ | ⟨f, -, rfl⟩ := load_next h
  · exact .load _ _ _ _
  · exact .plainTrap s _

theorem store_shape {va : Word} {n : Width} {value : Word} {md : Mode} {s t : State}
    (h : store va n value md s = .next t) : HartShape s t := by
  have hwf := memWrite_mem_wf s va n value md
  obtain ⟨m, st, e⟩ := memWrite_shape s va n value md
  rw [e] at hwf
  obtain ⟨-, rfl⟩ | ⟨f, -, rfl⟩ := store_next h
  · rw [e]
    exact .store m st va n hwf
  · rw [e]
    exact .trap _ m st hwf

theorem hypLoad_shape {i : Instr} {rd rs1 : RegIdx} {n : Width} {signed : Bool} {kind : AccessKind} {s t : State}
    (h : hypLoad i rd rs1 n signed kind s = .next t) : HartShape s t := by
  unfold hypLoad at h
  split at h
  · split at h
    · exact raiseInstr_shape h
    · exact load_shape h
  · exact raiseInstr_shape h

theorem hypStore_shape {i : Instr} {rs2 rs1 : RegIdx} {n : Width} {s t : State}
    (h : hypStore i rs2 rs1 n s = .next t) : HartShape s t := by
  unfold hypStore at h
  split at h
  · split at h
    · exact raiseInstr_shape h
    · exact store_shape h
  · exact raiseInstr_shape h

theorem csrAccess_shape {i : Instr} {n : CsrNum} {rd : RegIdx} {writes : Bool} {new : Word → Word} {s t : State}
    (h : csrAccess i n rd writes new s = .next t) : HartShape s t := by
  obtain ⟨e, -, rfl⟩ | ⟨r, hr, rfl⟩ := csrAccess_next h
  · exact .plainTrap s _
  · exact .csr n rd writes new r hr

theorem execMret_shape {s t : State} (h : execMret s = .next t) : HartShape s t := by
  unfold execMret at h
  split at h
  · next hp =>
    split at h
    · next p hpp =>
      cases h
      exact .ret p hp hpp
    · cases h
  · exact raiseInstr_shape h

theorem execHfenceVvma_shape {rs1 rs2 : RegIdx} {s t : State} (h : execHfenceVvma rs1 rs2 s = .next t) :
    HartShape s t := by
  unfold execHfenceVvma at h
  split at h
  · exact raiseInstr_shape h
  · cases h
    exact .fence

theorem execHfenceGvma_shape {rs1 rs2 : RegIdx} {s t : State} (h : execHfenceGvma rs1 rs2 s = .next t) :
    HartShape s t := by
  unfold execHfenceGvma at h
  split at h
  · exact raiseInstr_shape h
  · split at h
    · exact raiseInstr_shape h
    · cases h
      exact .fence

/-- What an instruction can do. -/
theorem exec_shape {i : Instr} {s t : State} (h : exec i s = .next t) : HartShape s t := by
  cases i with
  | csrrw =>
    simp only [exec, execCsrrw] at h
    exact csrAccess_shape h
  | csrrs =>
    simp only [exec, execCsrrs] at h
    exact csrAccess_shape h
  | csrrc =>
    simp only [exec, execCsrrc] at h
    exact csrAccess_shape h
  | csrrwi =>
    simp only [exec, execCsrrwi] at h
    exact csrAccess_shape h
  | csrrsi =>
    simp only [exec, execCsrrsi] at h
    exact csrAccess_shape h
  | csrrci =>
    simp only [exec, execCsrrci] at h
    exact csrAccess_shape h
  | mret =>
    simp only [exec] at h
    exact execMret_shape h
  | hfenceVvma =>
    simp only [exec] at h
    exact execHfenceVvma_shape h
  | hfenceGvma =>
    simp only [exec] at h
    exact execHfenceGvma_shape h
  | hlvB =>
    simp only [exec, execHlvB] at h
    exact hypLoad_shape h
  | hlvBu =>
    simp only [exec, execHlvBu] at h
    exact hypLoad_shape h
  | hlvH =>
    simp only [exec, execHlvH] at h
    exact hypLoad_shape h
  | hlvHu =>
    simp only [exec, execHlvHu] at h
    exact hypLoad_shape h
  | hlvxHu =>
    simp only [exec, execHlvxHu] at h
    exact hypLoad_shape h
  | hlvW =>
    simp only [exec, execHlvW] at h
    exact hypLoad_shape h
  | hlvxWu =>
    simp only [exec, execHlvxWu] at h
    exact hypLoad_shape h
  | hlvWu =>
    simp only [exec, execHlvWu] at h
    exact hypLoad_shape h
  | hlvD =>
    simp only [exec, execHlvD] at h
    exact hypLoad_shape h
  | hsvB =>
    simp only [exec, execHsvB] at h
    exact hypStore_shape h
  | hsvH =>
    simp only [exec, execHsvH] at h
    exact hypStore_shape h
  | hsvW =>
    simp only [exec, execHsvW] at h
    exact hypStore_shape h
  | hsvD =>
    simp only [exec, execHsvD] at h
    exact hypStore_shape h

/-- What the instruction at the pc can do, whatever it is. -/
theorem runInstr_shape {s t : State} (h : runInstr s = .next t) : HartShape s t := by
  unfold runInstr at h
  split at h
  · unfold runWord at h
    split at h
    · exact exec_shape h
    · exact raiseInstr_shape h
    · unfold outsideWord at h
      split at h
      · exact raiseInstr_shape h
      · cases h
  · cases h
  · obtain ⟨f, -, -, rfl⟩ := stopResult_next h
    exact .plainTrap s _
  · cases h

/-- An interrupt or the instruction. -/
theorem hartStep_shape {run : State → Result} {s t : State} (hrun : ∀ u, run s = .next u → HartShape s u)
    (h : hartStep run s = .next t) : HartShape s t := by
  unfold hartStep at h
  split at h
  · exact takeTrap_shape h
  · exact hrun t h

theorem ordinaryAccess_shape {a : OrdinaryAccess} {s t : State} (h : ordinaryAccess a s = .next t) : HartShape s t := by
  unfold ordinaryAccess at h
  split at h
  · cases h
  · simp only at h
    split at h
    · exact store_shape h
    · exact load_shape h

theorem envRecord_shape {e : EnvTrap} {s t : State} (h : envRecord e s = .next t) : HartShape s t := by
  unfold envRecord at h
  split at h
  · exact runInstr_shape h
  · exact takeTrap_shape h

/-- What a step can do: the hart's shapes, from the state with the environment's event taken off, or a change of the pending
bits or of translation by the environment. -/
theorem step_shape {s t : State} (h : step s = .next t) :
    ∃ es, HartShape { s with env := es } t ∨ (∃ bits, t = setPending bits { s with env := es }) ∨
      (∃ tr, s.env = .translation tr :: es ∧ t = setTranslation tr { s with env := es }) := by
  unfold step at h
  split at h
  · next he =>
    refine ⟨s.env, .inl ?_⟩
    exact hartStep_shape (fun _ => runInstr_shape) h
  · next e rest he =>
    refine ⟨rest, ?_⟩
    unfold envStep at h
    split at h
    · exact .inl (hartStep_shape (fun _ => runInstr_shape) h)
    · cases h
      exact .inr (.inl ⟨_, rfl⟩)
    · exact .inl (hartStep_shape (fun _ => envRecord_shape) h)
    · exact .inl (hartStep_shape (fun _ => ordinaryAccess_shape) h)
    · cases h
      exact .inr (.inr ⟨_, he, rfl⟩)

/-- `XlenFields` as one equation of the four fields. -/
theorem xlenFields_iff {s : State} : XlenFields s ↔
    xlenBits s = (xlField s.cfg.mxlen, xlField s.cfg.mxlen, xlField s.cfg.mxlen, xlField s.cfg.mxlen) := by
  simp only [XlenFields, xlenBits, Prod.mk.injEq]

/-! ## Interrupts -/

/-- An interrupt record of the environment never enters M-mode: it is refused, or the hart executes (R171, R172). -/
theorem envRecord_interrupt {e : EnvTrap} {s : State} (h : e.isInterrupt = true) :
    envRecord e s = if interruptBelow s e.code then .refused .trapBelowM else runInstr s := by
  unfold envRecord
  cases hb : interruptBelow s e.code
  · simp [h]
  · have hd : s.midelegBits.getLsbD e.code = true := by
      simp only [interruptBelow, Bool.and_eq_true] at hb
      exact hb.1.2
    simp [h, takeTrap, trapTarget, envTrap, hd]

theorem pendingInterrupt_ready {s : State} {c : Nat} (h : pendingInterrupt s = some c) : interruptReady s c = true :=
  List.find?_some h

/-- With interrupts off and the hart in M-mode none is taken. -/
theorem pendingInterrupt_masked {s : State} (hp : s.priv = .m) (hm : s.mstatus.mie = false) : pendingInterrupt s = none := by
  simp [pendingInterrupt, interruptReady, hp, hm]

end Sys2Proof.Machine
end

