-- ==== Sys2Proof/Tests/Slice0.lean ====
section
/-! SUPPORT. The model's own tests. Expected results come from the bit patterns of 30_encoding.md R85, from the vectors of
95_test_vectors.md (named T-…), or from the rule that a test names. At the end, for every statement with hypotheses, a
concrete state and operands that meet them. -/

namespace Sys2Proof.Tests

open Sys2Proof Sys2Proof.Machine

/-! ## Well-formed instructions: what the check refuses -/

theorem test_wf_hlvWu_x32 : Instr.wellFormed .x32 (.hlvWu 1#5 2#5) = false := by decide
theorem test_wf_hlvD_x32 : Instr.wellFormed .x32 (.hlvD 1#5 2#5) = false := by decide
theorem test_wf_hsvD_x32 : Instr.wellFormed .x32 (.hsvD 1#5 2#5) = false := by decide
theorem test_wf_x64 : Instr.wellFormed .x64 (.hlvWu 1#5 2#5) = true ∧ Instr.wellFormed .x64 (.hlvD 1#5 2#5) = true ∧
    Instr.wellFormed .x64 (.hsvD 1#5 2#5) = true ∧ Instr.wellFormed .x32 (.hlvxWu 1#5 2#5) = true := by decide

/-! ## Decoding: words written out bit by bit from R85 -/

theorem test_decode_csr :
    decode 0b001101001011_10101_001_00011_1110011#32 = .instr (.csrrw 3#5 0x34B#12 21#5) ∧
    decode 0b001101001011_10101_010_00011_1110011#32 = .instr (.csrrs 3#5 0x34B#12 21#5) ∧
    decode 0b001101001011_10101_011_00011_1110011#32 = .instr (.csrrc 3#5 0x34B#12 21#5) ∧
    decode 0b001101001011_10101_101_00011_1110011#32 = .instr (.csrrwi 3#5 0x34B#12 21#5) ∧
    decode 0b001101001011_10101_110_00011_1110011#32 = .instr (.csrrsi 3#5 0x34B#12 21#5) ∧
    decode 0b001101001011_10101_111_00011_1110011#32 = .instr (.csrrci 3#5 0x34B#12 21#5) := by decide

theorem test_decode_control :
    decode 0b0011000_00010_00000_000_00000_1110011#32 = .instr .mret ∧
    decode 0b0010001_10011_01010_000_00000_1110011#32 = .instr (.hfenceVvma 10#5 19#5) ∧
    decode 0b0110001_10011_01010_000_00000_1110011#32 = .instr (.hfenceGvma 10#5 19#5) := by decide

theorem test_decode_loads :
    decode 0b0110000_00000_01011_100_01010_1110011#32 = .instr (.hlvB 10#5 11#5) ∧
    decode 0b0110000_00001_01011_100_01010_1110011#32 = .instr (.hlvBu 10#5 11#5) ∧
    decode 0b0110010_00000_01011_100_01010_1110011#32 = .instr (.hlvH 10#5 11#5) ∧
    decode 0b0110010_00001_01011_100_01010_1110011#32 = .instr (.hlvHu 10#5 11#5) ∧
    decode 0b0110010_00011_01011_100_01010_1110011#32 = .instr (.hlvxHu 10#5 11#5) ∧
    decode 0b0110100_00000_01011_100_01010_1110011#32 = .instr (.hlvW 10#5 11#5) ∧
    decode 0b0110100_00011_01011_100_01010_1110011#32 = .instr (.hlvxWu 10#5 11#5) ∧
    decode 0b0110100_00001_01011_100_01010_1110011#32 = .instr (.hlvWu 10#5 11#5) ∧
    decode 0b0110110_00000_01011_100_01010_1110011#32 = .instr (.hlvD 10#5 11#5) := by decide

theorem test_decode_stores :
    decode 0b0110001_01100_01011_100_00000_1110011#32 = .instr (.hsvB 12#5 11#5) ∧
    decode 0b0110011_01100_01011_100_00000_1110011#32 = .instr (.hsvH 12#5 11#5) ∧
    decode 0b0110101_01100_01011_100_00000_1110011#32 = .instr (.hsvW 12#5 11#5) ∧
    decode 0b0110111_01100_01011_100_00000_1110011#32 = .instr (.hsvD 12#5 11#5) := by decide

/-- R87: a reserved word of each kind, and one outside the spec (ECALL). -/
theorem test_decode_reserved :
    decode 0b0110000_00010_01011_100_01010_1110011#32 = .reserved ∧
    decode 0b0110001_01100_01011_100_00001_1110011#32 = .reserved ∧
    decode 0b0010001_00000_00000_000_00001_1110011#32 = .reserved ∧
    decode 0b0011000_00010_00001_000_00000_1110011#32 = .reserved ∧
    decode 0x00000073#32 = .outside := by decide

/-- The first word of a row stored as bytes, the lowest address first (R80). -/
theorem test_decodeTableWord : decodeTableWord 32 0x6AC5C073 = some (.hsvW 12#5 11#5) := by decide

/-! ## States -/

/-- The next state, if there is one. -/
def nextOf : Result → Option State
  | .next t => some t
  | .fault _ => none
  | .refused _ => none

/-- What a word does. -/
def after (w : InstrWord) (s : State) : Option State := nextOf (runWord w s)

/-- M-mode with a register set. -/
def mWith (i : RegIdx) (v : Word) : State := State.reset.setX i v

/-- HS-mode, handler at 0x80000200. -/
def hs : State := { State.reset with priv := .s, pc := 0x80200000, mtvec := 0x80000200 }

/-- A page that lets everything be done. -/
def allPerm : PagePerm := { r := true, w := true, x := true, u := false }

/-- The same for a user page. -/
def userPerm : PagePerm := { allPerm with u := true }

/-- The guest of 95_test_vectors.md section 2.5: guest virtual 0x1000 lies at physical 0x90001000, by guest physical
0x80001000; x11 = 0x1000, x12 = 0x12345678, SPVP = 1, executed in HS-mode. -/
def guest : State :=
  ({ hs with
    hstatus := { Hstatus.zero with spvp := true }
    trans := {
      satp := 0, hs := [{ key := [0], base := 0x1000, size := 0x1000, found := [], out := 0x7000, perm := allPerm, walk := [] }]
      vs := [{ key := [0, 0], base := 0x1000, size := 0x1000, found := [], out := 0x80001000, perm := allPerm, walk := [] }]
      g := [{ key := [0], base := 0x80001000, size := 0x1000, found := [], out := 0x90001000, perm := allPerm, walk := [] }] }
    mem := [(0x90001000, 0x80), (0x90001001, 0x91), (0x90001002, 0xA2), (0x90001003, 0xB3), (0x90001004, 0xC4),
      (0x90001005, 0xD5), (0x90001006, 0xE6), (0x90001007, 0xF7)] }.setX 11#5 0x1000).setX 12#5 0x12345678

/-- The guest with other permissions at the VS stage and at the guest-physical stage. -/
def guestPerm (p q : PagePerm) : State :=
  { guest with trans := { guest.trans with
      vs := guest.trans.vs.map fun e => { e with perm := p }, g := guest.trans.g.map fun e => { e with perm := q } } }

/-- The guest with nothing mapped at the guest-physical stage. -/
def guestHole : State := { guest with trans := { guest.trans with g := [] } }

/-- An implementation that traps misaligned accesses. -/
def trapping (s : State) : State := { s with cfg := { s.cfg with misaligned := .trap } }

/-- MXLEN = 32. -/
def narrow (s : State) : State := { s with cfg := { s.cfg with mxlen := .x32 } }

/-! ## CSR instructions -/

/-- D4: SXL and UXL read 2, the XLEN 64, after reset, and the other fields that R44 fixes read 0. -/
theorem test_reset_mstatus : csrRead .mstatus State.reset = 0xA00000000#64 := by decide

/-- T-CSR-1. -/
theorem test_csrrw_mideleg : (after 0x303013F3#32 State.reset).map (fun t => (t.x 7#5, csrRead .mideleg t)) =
    some (0x1444#64, 0x1444#64) := by decide

/-- T-CSR-8: `rd` = `rs1`. -/
theorem test_csrrw_same_register : (after 0x34B292F3#32 { State.reset with mtval2 := 0x2000048D }).map
    (fun t => (t.x 5#5, t.mtval2)) = some (0x2000048D#64, 0#64) := by decide

/-- T-CSR-9. -/
theorem test_csrrs_mstatus : (after 0x3002A073#32
    { mWith 5#5 0x8000000800 with mstatus := Mstatus.zero }).map (csrRead .mstatus) =
    some 0x8000000800#64 := by decide

/-- T-CSR-12: with MXLEN = 32 a write of `mstatus` reaches neither MPV nor GVA. -/
theorem test_csrrs_mstatus_x32 : (after 0x3002A073#32 (narrow (mWith 5#5 0xFFFFFFFF))).map
    (fun t => (t.mstatus.mpv, t.mstatus.gva, t.mstatus.mpp)) = some (false, false, 3#2) := by decide

/-- T-CSR-10. -/
theorem test_csrrc_mstatus : (after 0x30033073#32
    { mWith 6#5 0x1800 with mstatus := { Mstatus.zero with mpp := 3#2 } }).map (csrRead .mstatus) = some 0#64 := by decide

/-- T-CSR-7. -/
theorem test_csrrwi_mtinst : (after 0x34A05073#32 { State.reset with mtinst := 0x3000 }).map (·.mtinst) =
    some 0#64 := by decide

/-- T-CSR-16. -/
theorem test_csrrsi_mip : (after 0x34426073#32 State.reset).map (fun t => (csrRead .mip t, csrRead .hip t)) =
    some (4#64, 4#64) := by decide

/-- T-CSR-17. -/
theorem test_csrrci_mip : (after 0x34427073#32 { State.reset with pend := 4#16 }).map
    (fun t => (csrRead .mip t, csrRead .hip t)) = some (0#64, 0#64) := by decide

/-- T-CSR-18, T-CSR-19. -/
theorem test_mip_mie_writes :
    (after 0x34449073#32 (mWith 9#5 0xFFFFFFFFFFFFFFFF)).map (csrRead .mip) = some 0x226#64 ∧
    (after 0x30431073#32 (mWith 6#5 0x444)).map (fun t => (csrRead .mie t, csrRead .hie t)) =
      some (0x444#64, 0x444#64) := by decide

/-- T-CSR-13, T-CSR-14, T-CSR-15: the cause is 2. -/
theorem test_csr_illegal :
    (after 0x310052F3#32 State.reset).map (·.mcause) = some 2#64 ∧
    (after 0x34B02573#32 hs).map (·.mcause) = some 2#64 ∧
    (after 0x300022F3#32 { hs with v := true }).map (·.mcause) = some 2#64 := by decide

/-! ## TVM and the fences -/

/-- T-TVM-2, T-TVM-5 for `hgatp`; the state that T-TRAP-1 gives. -/
theorem test_tvm_hgatp :
    (after 0x68029073#32 { hs with mstatus := { Mstatus.zero with tvm := true, mie := true } }).map
      (fun t => (t.mcause, csrRead .mstatus t, t.pc, t.mepc)) =
        some (2#64, 0x100880#64, 0x80000200#64, 0x80200000#64) ∧
    (after 0x68002373#32 { hs with v := true, mstatus := { Mstatus.zero with tvm := true } }).map (·.mcause) =
      some 22#64 := by decide

/-- T-TVM-2, T-TVM-3 for `vsatp` and `hgatp`. -/
theorem test_tvm_passes :
    (after 0x28029073#32 { hs with mstatus := { Mstatus.zero with tvm := true } }).map (·.pc) = some 0x80200004#64 ∧
    (after 0x68029073#32 { State.reset with mstatus := { Mstatus.zero with tvm := true } }).map (·.pc) =
      some 0x80000004#64 := by decide

/-- T-TVM-7. -/
theorem test_hfenceVvma_tvm : (after 0x22628073#32 { hs with mstatus := { Mstatus.zero with tvm := true } }).map (·.pc) =
    some 0x80200004#64 := by decide

/-- T-TVM-7, T-TVM-6. -/
theorem test_hfenceGvma_tvm :
    (after 0x62628073#32 { hs with mstatus := { Mstatus.zero with tvm := true } }).map (·.mcause) = some 2#64 ∧
    (after 0x62000073#32 hs).map (·.pc) = some 0x80200004#64 ∧
    (after 0x62000073#32 { hs with priv := .u }).map (·.mcause) = some 2#64 := by decide

/-! ## MRET -/

/-- T-MRET-1. -/
theorem test_mret_vs : (after 0x30200073#32
    { State.reset with
      mepc := 0x80000100, mstatus := { Mstatus.zero with mpp := 1#2, mpv := true, mpie := true } }).map
    (fun t => (t.mode, t.pc, csrRead .mstatus t)) = some ({ p := .s, v := true }, 0x80000100#64, 0x88#64) := by decide

/-- T-MRET-8: MPP = 3 with MPV = 1 keeps V at 0 and MPRV at 1. -/
theorem test_mret_m : (after 0x30200073#32
    { State.reset with
      mepc := 0x80000100, mstatus := { Mstatus.zero with mpp := 3#2, mpv := true, mprv := true } }).map
    (fun t => (t.mode, t.pc, csrRead .mstatus t)) = some ({ p := .m, v := false }, 0x80000100#64, 0x20080#64) := by decide

/-! ## HLV, HLVX, HSV -/

/-- T-HLV-1. -/
theorem test_hlvB : (after 0x6005C573#32 guest).map (·.x 10#5) = some 0xFFFFFFFFFFFFFF80#64 := by decide
/-- T-HLV-2. -/
theorem test_hlvBu : (after 0x6015C573#32 guest).map (·.x 10#5) = some 0x80#64 := by decide
/-- T-HLV-3. -/
theorem test_hlvH : (after 0x6405C573#32 guest).map (·.x 10#5) = some 0xFFFFFFFFFFFF9180#64 := by decide
/-- T-HLV-4. -/
theorem test_hlvHu : (after 0x6415C573#32 guest).map (·.x 10#5) = some 0x9180#64 := by decide
/-- T-HLV-5, on a page that is executable and not readable (R140). -/
theorem test_hlvxHu : (after 0x6435C6F3#32
    (guestPerm { allPerm with r := false } { allPerm with r := false })).map (·.x 13#5) = some 0x9180#64 := by decide
/-- T-HLV-14: a page readable but not executable at the VS stage, and at the guest-physical stage. -/
theorem test_hlvxHu_faults :
    (after 0x6435C6F3#32 (guestPerm { allPerm with x := false } allPerm)).map (·.mcause) = some 13#64 ∧
    (after 0x6435C6F3#32 (guestPerm allPerm { allPerm with x := false })).map (·.mcause) = some 21#64 := by decide
/-- T-HLV-6. -/
theorem test_hlvW : (after 0x6805C573#32 guest).map (·.x 10#5) = some 0xFFFFFFFFB3A29180#64 := by decide
/-- T-HLV-17, T-HLV-18. -/
theorem test_hlvW_traps :
    (after 0x6805C573#32 (trapping (guest.setX 11#5 0x1002))).map (fun t => (t.mcause, t.mtval)) =
      some (4#64, 0x1002#64) ∧
    (after 0x6805C573#32 guestHole).map
      (fun t => (t.mcause, t.mtval, t.mstatus.gva, t.mstatus.mpv, t.mstatus.mpp, t.x 10#5)) =
        some (21#64, 0x1000#64, true, false, 1#2, 0#64) := by decide
/-- T-HLV-7. -/
theorem test_hlvxWu : (after 0x6835C573#32 guest).map (·.x 10#5) = some 0xB3A29180#64 := by decide
/-- T-HLV-8, T-HLV-16. -/
theorem test_hlvWu : (after 0x6815C573#32 guest).map (·.x 10#5) = some 0xB3A29180#64 ∧
    (after 0x6815C573#32 (narrow guest)).map (·.mcause) = some 2#64 := by decide
/-- T-HLV-9. -/
theorem test_hlvD : (after 0x6C05C573#32 guest).map (·.x 10#5) = some 0xF7E6D5C4B3A29180#64 := by decide
/-- T-HLV-12, T-HLV-13. -/
theorem test_hlv_check : (after 0x6C05C573#32 { guest with v := true }).map (·.mcause) = some 22#64 ∧
    (after 0x6C05C573#32 { guest with priv := .u }).map (·.mcause) = some 2#64 := by decide

/-- T-HLV-10: MPRV does not bear on it. -/
theorem test_hlvW_mprv : (after 0x6805C573#32
    { guest with priv := .m, mstatus := { Mstatus.zero with mprv := true, mpp := 3#2 } }).map (·.x 10#5) =
    some 0xFFFFFFFFB3A29180#64 := by decide

/-- The bytes from physical 0x90001000 on. -/
def guestBytes (n : Nat) (t : State) : List Byte := (List.range n).map fun k => t.byteAt (0x90001000 + k)

/-- T-HSV-1. -/
theorem test_hsvB : (after 0x62C5C073#32 guest).map (guestBytes 2) = some [0x78, 0x91] := by decide
/-- T-HSV-2. -/
theorem test_hsvH : (after 0x66C5C073#32 guest).map (guestBytes 3) = some [0x78, 0x56, 0xA2] := by decide
/-- T-HSV-3. -/
theorem test_hsvW : (after 0x6AC5C073#32 guest).map (guestBytes 5) = some [0x78, 0x56, 0x34, 0x12, 0xC4] := by decide
/-- T-HSV-4. -/
theorem test_hsvD : (after 0x6EC5C073#32 (guest.setX 12#5 0x0102030405060708)).map (guestBytes 8) =
    some [0x08, 0x07, 0x06, 0x05, 0x04, 0x03, 0x02, 0x01] := by decide
/-- R145, R169: a page that is not writable at the VS stage, and nothing mapped at the guest-physical stage. -/
theorem test_hsvB_faults :
    (after 0x62C5C073#32 (guestPerm { allPerm with w := false } allPerm)).map (·.mcause) = some 15#64 ∧
    (after 0x62C5C073#32 guestHole).map (·.mcause) = some 23#64 := by decide

/-- The guest, whose VS-stage page table lies in its own page: the entry stands in the byte at physical 0x90001000. -/
def guestTable : State :=
  { guest with trans := { guest.trans with vs := guest.trans.vs.map fun e => { e with found := [(0x90001000, 0x80)] } } }

/-- R68: memory is an argument of Translate: a store over the page-table byte takes the translation away. -/
theorem test_store_to_page_table : translate guestTable 0x1000 1 .read { p := .s, v := true } = .ok 0x90001000 ∧
    (after 0x62C5C073#32 guestTable).map (fun t => translate t 0x1000 1 .read { p := .s, v := true }) =
      some (.error (.fault (addrFault .loadPageFault 0x1000 { p := .s, v := true }))) := by decide

/-! ## Traps -/

/-- T-TRAP-3: a machine timer interrupt from VU-mode. -/
theorem test_timer_interrupt : (nextOf (step
    { hs with priv := .u, v := true, mstatus := { Mstatus.zero with mie := true }, pend := 0x80#16, enab := 0x80#16 })).map
    (fun t => (csrRead .mstatus t, t.mcause, t.pc, t.mode)) =
      some (0x8000000080#64, 0x8000000000000007#64, 0x80000200#64, { p := .m, v := false }) := by decide

/-- An environment call from VS-mode. -/
def ecallFromVs : EnvTrap where
  isInterrupt := false
  code := 10
  tval := 0
  tvalIsGva := false
  gpa := none
  implicitVsStage := false

/-- T-TRAP-11: an environment call from VS-mode, a trap that the environment supplies. -/
theorem test_ecall_from_vs : (nextOf (step
    { hs with v := true, mstatus := { Mstatus.zero with mie := true }, env := [.trap ecallFromVs] })).map
    (fun t => (csrRead .mstatus t, t.mcause, t.mtval2)) = some (0x8000000880#64, 10#64, 0#64) := by decide

/-- A machine timer interrupt as a record of the environment. -/
def timerRecord : EnvTrap where
  isInterrupt := true
  code := 7
  tval := 0
  tvalIsGva := false
  gpa := none
  implicitVsStage := false

/-- R172, R175: with MIE = 0 no interrupt is taken in M-mode, whatever the environment says: MRET at the pc is executed. -/
theorem test_masked_interrupt_record : (nextOf (step
    { State.reset.withFetchWord 32 0x30200073 with env := [.trap timerRecord], pend := 0x80#16, enab := 0x80#16 })).map
    (fun t => (t.mode, t.mcause)) = some ({ p := .u, v := false }, 0#64) := by decide

/-- R173(a): a ready interrupt comes before an environment call. -/
theorem test_interrupt_before_ecall : (nextOf (step
    { hs with v := true, pend := 0x80#16, enab := 0x80#16, env := [.trap ecallFromVs] })).map (·.mcause) =
    some 0x8000000000000007#64 := by decide

/-- T-TRAP-9: a VS-level external interrupt, pending and enabled, with MIE = 1: none is taken into M-mode. -/
theorem test_vs_interrupt_is_not_taken : pendingInterrupt
    { State.reset with mstatus := { Mstatus.zero with mie := true }, pend := 0x400#16, enab := 0x400#16 } = none := by decide

/-- An ordinary load into x10, or store, of a word. -/
def wordAccess (isStore : Bool) (addr : Word) : OrdinaryAccess where
  isStore := isStore
  width := .w
  signed := false
  rd := 10#5
  addr := addr
  value := 1

/-- T-GVA-3: a store page fault of an ordinary store from HS-mode leaves GVA = 0. -/
theorem test_ordinary_store_fault : (nextOf (step { hs with env := [.access (wordAccess true 0x5000)] })).map
    (fun t => (t.mcause, t.mtval, t.mstatus.gva)) = some (15#64, 0x5000#64, false) := by decide

/-- T-GVA-5: a load page fault of an ordinary load in M-mode with MPRV = 1, MPV = 1, MPP = 1. -/
theorem test_ordinary_load_fault : (nextOf (step
    { State.reset with
      mstatus := { Mstatus.zero with mprv := true, mpv := true, mpp := 1#2 }, env := [.access (wordAccess false 0x5000)] })).map
    (fun t => (t.mcause, t.mtval, t.mstatus.gva, t.mstatus.mpv, t.mstatus.mpp)) =
      some (13#64, 0x5000#64, true, false, 3#2) := by decide

/-- R40: a load into x0 is discarded. -/
theorem test_ordinary_load_x0 : (nextOf (step
    { guest with v := true, env := [.access { wordAccess false 0x1000 with rd := 0#5 }] })).map
    (fun t => (t.x 0#5, t.pc)) = some (0#64, 0x80200004#64) := by decide

/-- A guest in VU-mode that fetches at `pc`: guest virtual 0x2000 is mapped through both stages, 0x3000 lies at guest physical 0x80004000,
which nothing maps, and the two bytes at the end of the first page announce a 32-bit instruction. -/
def guestFetch (pc : Word) : State :=
  { guest with
    priv := .u, v := true, pc := pc, mstatus := { Mstatus.zero with mie := true }
    trans := {
      satp := 0, hs := []
      vs := [{ key := [0, 0], base := 0x2000, size := 0x1000, found := [], out := 0x80002000, perm := userPerm, walk := [] },
        { key := [0, 0], base := 0x3000, size := 0x1000, found := [], out := 0x80004000, perm := userPerm, walk := [] }]
      g := [{ key := [0], base := 0x80002000, size := 0x1000, found := [], out := 0x90002000, perm := allPerm, walk := [] }] }
    mem := [(0x90002FFE, 0x73)] }

/-- T-TRAP-7: the second half of an instruction over the end of a page lies at a guest physical address that nothing maps. -/
theorem test_fetch_guest_page_fault : (nextOf (step (guestFetch 0x2FFE))).map
    (fun t => (t.mcause, t.mtval, t.mepc, csrRead .mstatus t)) =
      some (20#64, 0x3000#64, 0x2FFE#64, 0xC000000080#64) := by decide

/-- The first instruction after reset: MRET goes to U-mode, at `mepc` = 0. -/
theorem test_first_step : (nextOf (step (State.reset.withFetchWord 32 0x30200073))).map (fun t => (t.mode, t.pc)) =
    some ({ p := .u, v := false }, 0#64) := by decide

/-! ## For every statement with hypotheses: a state and operands that meet them, clause by clause -/

theorem reset_littleEndian : LittleEndian State.reset := by
  rintro ⟨p, v⟩
  cases p <;> cases v <;> rfl

theorem guest_littleEndian : LittleEndian guest := by
  rintro ⟨p, v⟩
  cases p <;> cases v <;> rfl

/-- Reset with MRET placed at the pc. -/
def ready : State := State.reset.withFetchWord 32 0x30200073

theorem ready_inv : Inv ready where
  modeLegal := fun _ => rfl
  mppLegal := by unfold MppLegal; decide
  pcAligned := by unfold PcAligned; decide
  warlLegal := by unfold WarlLegal; decide
  memCanonical := by unfold MemCanonical; decide
  littleEndian := by
    rintro ⟨p, v⟩
    cases p <;> cases v <;> rfl
  xlenFields := by unfold XlenFields; decide

/-- EncodeOfDecodeIsTheWord. -/
theorem witness_encodeOfDecode : decode 0x303013F3#32 = .instr (.csrrw 7#5 0x303#12 0#5) := by decide

/-- ReservedWordsRaiseIllegalInstruction: each kind of reserved word, and a state that fetches one. -/
theorem witness_reserved :
    (fOpcode 0x6025C573#32 = 0b1110011#7 ∧ fFunct3 0x6025C573#32 = 0b100#3 ∧ decode 0x6025C573#32 = .reserved) ∧
    (fFunct3 0x220000F3#32 = 0b000#3 ∧ fFunct7 0x220000F3#32 = 0b0010001#7 ∧ fRd 0x220000F3#32 ≠ 0#5) ∧
    (fFunct3 0x302080F3#32 = 0b000#3 ∧ fFunct7 0x302080F3#32 = 0b0011000#7 ∧ fRs2 0x302080F3#32 = 0b00010#5 ∧
      fRs1 0x302080F3#32 ≠ 0#5) ∧
    (let s := State.reset.withFetchWord 32 0x220000F3;
      s.env = [] ∧ pendingInterrupt s = none ∧ fetch s = .word 0x220000F3#32) := by decide

/-- ResetIsInMachineMode: bit 12 in an implementation with GEILEN ≠ 0. -/
theorem witness_reset_geilen : Config.atReset.geilen ≠ 0 := by decide

/-- StepKeepsTheInvariant, StepKeepsTheParameters, ReservedMppIsNeverMet. -/
theorem witness_step : Inv ready ∧ ∃ t, step ready = .next t := ⟨ready_inv, _, rfl⟩

/-- StepRunsTheDecodedInstruction. -/
theorem witness_stepRuns : ready.env = [] ∧ pendingInterrupt ready = none ∧ fetch ready = .word 0x30200073#32 ∧
    decode 0x30200073#32 = .instr .mret := by decide

/-- MachineModeFetchReadsTheBytesAtThePc: one portion of four bytes, and two of two. -/
theorem witness_machineFetch :
    (let s := { ready with cfg := { Config.atReset with variableLength := false } };
      s.priv = .m ∧ s.cfg.variableLength = false ∧ xlenCut s.cfg.mxlen s.pc = s.pc ∧
      physical s s.pc s.pc 4 .execute s.mode = .ok s.pc ∧ (∀ j < 4, physByte s.pc j ∉ s.stored) ∧
      (s.byteAt s.pc.toNat).extractLsb' 0 2 = 3#2 ∧ (s.byteAt s.pc.toNat).extractLsb' 2 3 ≠ 7#3) ∧
    ready.priv = .m ∧ ready.cfg.variableLength = true ∧ xlenCut ready.cfg.mxlen ready.pc = ready.pc ∧
    (let pc₂ := xlenCut ready.cfg.mxlen (ready.pc + 2#64);
      physical ready ready.pc ready.pc 2 .execute ready.mode = .ok ready.pc ∧
      physical ready pc₂ pc₂ 2 .execute ready.mode = .ok pc₂ ∧
      ∀ j < 2, physByte ready.pc j ∉ ready.stored ∧ physByte pc₂ j ∉ ready.stored) ∧
    (ready.byteAt ready.pc.toNat).extractLsb' 0 2 = 3#2 ∧ (ready.byteAt ready.pc.toNat).extractLsb' 2 3 ≠ 7#3 := by decide

/-- FetchOfAStoredByteStops: the last byte of the one portion of four, of the first portion of two, and of the second. -/
theorem witness_storedByte :
    (let s := { ready with stored := [0x80000003], cfg := { Config.atReset with variableLength := false } };
      s.env = [] ∧ pendingInterrupt s = none ∧ s.cfg.variableLength = false ∧
      translate s (xlenCut s.cfg.mxlen (s.pc + 0#64)) 4 .execute s.mode = .ok 0x80000000 ∧
      physByte 0x80000000 3 ∈ s.stored) ∧
    (let s := { ready with stored := [0x80000001] };
      s.env = [] ∧ pendingInterrupt s = none ∧ s.cfg.variableLength = true ∧
      translate s (xlenCut s.cfg.mxlen (s.pc + 0#64)) 2 .execute s.mode = .ok 0x80000000 ∧
      physByte 0x80000000 1 ∈ s.stored) ∧
    (let s := { ready with stored := [0x80000003] };
      (∀ i < 2, physByte 0x80000000 i ∉ s.stored) ∧
      (s.byteAt (physByte 0x80000000 0)).extractLsb' 0 2 = 3#2 ∧
      (s.byteAt (physByte 0x80000000 0)).extractLsb' 2 3 ≠ 7#3 ∧
      translate s (xlenCut s.cfg.mxlen (s.pc + 2#64)) 2 .execute s.mode = .ok 0x80000002 ∧
      physByte 0x80000002 1 ∈ s.stored) := by decide

/-- ReadyInterruptIsTaken: interrupt 3 behind 11, which is pending and not enabled, with MIE = 1, before an environment call; a
timer interrupt that the environment announces with none ready; and one for a mode below M that is pending, enabled and
delegated. -/
theorem witness_readyInterrupt :
    (let s := { State.reset with
        mstatus := { Mstatus.zero with mie := true }, pend := 0x808#16, enab := 8#16, env := [.trap ecallFromVs] };
      (∃ e, s.env = e :: [] ∧ (e = .pass ∨ (∃ tr, e = .trap tr) ∨ (∃ a, e = .access a))) ∧
      [11, 3, 7, 9, 1, 5, 12, 10, 2, 6] = [11] ++ 3 :: [7, 9, 1, 5, 12, 10, 2, 6] ∧
      (csrRead .mip s).getLsbD 3 = true ∧ (csrRead .mie s).getLsbD 3 = true ∧ (csrRead .mideleg s).getLsbD 3 = false ∧
      (s.priv ≠ .m ∨ s.mstatus.mie = true) ∧ (csrRead .mie s).getLsbD 11 = false) ∧
    (let s := { State.reset with env := [.trap timerRecord], pend := 0x80#16, enab := 0x80#16 };
      s.env = .trap timerRecord :: [] ∧ timerRecord.isInterrupt = true ∧ s.priv = .m ∧ s.mstatus.mie = false ∧
      (csrRead .mideleg s).getLsbD timerRecord.code = false) ∧
    (let e := { timerRecord with code := 10 };
      let s := { hs with env := [.trap e], pend := 0x400#16, enab := 0x400#16 };
      s.env = .trap e :: [] ∧ e.isInterrupt = true ∧ s.priv ≠ .m ∧ (csrRead .mip s).getLsbD e.code = true ∧
      (csrRead .mie s).getLsbD e.code = true ∧ (csrRead .mideleg s).getLsbD e.code = true ∧
      (∀ i ∈ [11, 3, 7, 9, 1, 5, 12, 10, 2, 6], ¬ ((csrRead .mip s).getLsbD i = true ∧
        (csrRead .mideleg s).getLsbD i = false))) := by
  refine ⟨⟨⟨_, rfl, .inr (.inl ⟨_, rfl⟩)⟩, rfl, ?_⟩, ?_, ?_⟩ <;> decide

/-- DelegatedInterruptsNeverEnterMachineMode: each code, 12 with GEILEN ≠ 0. -/
theorem witness_delegated : State.reset.cfg.geilen ≠ 0 ∧
    (State.resetOf { Config.atReset with geilen := 0 }).cfg.geilen = 0 ∧
    (interruptTrap 12 State.reset).isInterrupt = true ∧ (interruptTrap 12 State.reset).code = 12 ∧
    (interruptTrap 2 State.reset).code = 2 ∧ (interruptTrap 6 State.reset).code = 6 ∧
    (interruptTrap 10 State.reset).code = 10 := by decide

/-- TrapEntrySavesTheState, TrapTargetFollowsDelegation (below M and not delegated), TrapThenMretRestoresTheMode,
NestedTrapOverwritesTheFirst. -/
theorem witness_trap :
    let tr := instrTrap .illegalInstruction 0x68029073#32 hs;
    let t := enterM tr hs;
    trapTarget tr hs = .m ∧ tr.isInterrupt = false ∧ hs.priv ≠ .m ∧ tr.code ∉ hs.cfg.medeleg ∧ ModeLegal hs ∧
    takeTrap tr hs = .next t ∧ takeTrap tr t = .next (enterM tr t) := by
  exact ⟨by decide, rfl, by decide, by decide, (fun h => by cases h), rfl, rfl⟩

/-- TrapTargetFollowsDelegation: raised in M-mode, and raised below it with the code delegated. -/
theorem witness_delegatedException :
    let s := { hs with cfg := { Config.atReset with medeleg := [2] } };
    State.reset.priv = .m ∧ s.priv ≠ .m ∧ (instrTrap .illegalInstruction 0#32 s).code ∈ s.cfg.medeleg ∧
    (instrTrap .illegalInstruction 0#32 s).code ≠ 11 := by decide

/-- TrapVectorFollowsMtvec: an interrupt with MODE 1, and with MODE 0. -/
theorem witness_vector :
    let s := { hs with mtvec := 0x80000201 };
    takeTrap (interruptTrap 7 s) s = .next (enterM (interruptTrap 7 s) s) ∧ s.mtvec.extractLsb' 0 2 = 1#2 ∧
    (interruptTrap 7 s).isInterrupt = true ∧
    takeTrap (interruptTrap 7 hs) hs = .next (enterM (interruptTrap 7 hs) hs) ∧ hs.mtvec.extractLsb' 0 2 ≠ 1#2 := by
  refine ⟨rfl, by decide, rfl, rfl, by decide⟩

/-- GvaTellsAGuestVirtualAddress: a trap with a guest address, and an environment call. -/
theorem witness_gva : hs.cfg.gvaRule = .guestVa ∧
    takeTrap (faultTrap (addrFault .loadPageFault 0x1000 { p := .s, v := true }) hs) hs =
      .next (enterM (faultTrap (addrFault .loadPageFault 0x1000 { p := .s, v := true }) hs) hs) ∧
    takeTrap (envTrap ecallFromVs hs) hs = .next (enterM (envTrap ecallFromVs hs) hs) ∧
    ecallFromVs.code ∈ [2, 8, 9, 10, 11, 22] := by
  refine ⟨rfl, rfl, rfl, by decide⟩

/-- A guest-page fault of an implicit VS-stage access. -/
def implicitFault : Trap := faultTrap (guestFault .read 0x2000 0x80005010 true { p := .s, v := true }) hs

/-- MtvalTwoIsZeroOrTheGuestAddress, MtinstAfterATrap: a guest-page fault of an implicit access, with the default legal
set. -/
theorem witness_mtinst : takeTrap implicitFault hs = .next (enterM implicitFault hs) ∧
    hs.cfg.mtinstPolicy = .zeroUnlessImplicit ∧ implicitFault.implicitVsStage = true ∧ implicitFault.isInterrupt = false ∧
    implicitFault.code ∈ [20, 21, 23] ∧
    (∃ r ∈ hs.cfg.mtinstLegal, ∃ k, r.1 ≤ k ∧ k ≤ r.2 ∧ 0 < k ∧ k < 2 ^ mxlenBits hs.cfg.mxlen) := by
  refine ⟨rfl, rfl, rfl, rfl, by decide, (0, 0xFFFFFFFFFFFFFFFF), List.mem_singleton.mpr rfl, 1, ?_⟩
  decide

/-- MtvalTwoIsZeroOrTheGuestAddress, the second clause: the shifted address is legal, and the draw is a free value; whichever it
is, `mtval2` receives what the clauses say. -/
theorem witness_mtval2 : implicitFault.gpa = some 0x80005010 ∧
    legalIn hs.cfg.mxlen hs.cfg.mtval2Legal (0x80005010 >>> 2) = true ∧
    (Config.mtval2ReportsGpa hs.draws = true ∨ Config.mtval2ReportsGpa hs.draws = false) :=
  ⟨rfl, by decide, by cases Config.mtval2ReportsGpa hs.draws <;> simp⟩

/-- MtinstAfterATrap: the draw that makes `mtval2` nonzero is a free value; whichever it is, one of the two clauses
applies. -/
theorem witness_mtinst_clauses : (enterM implicitFault hs).mtval2 = 0#64 ∨ (enterM implicitFault hs).mtval2 ≠ 0#64 :=
  eq_or_ne _ _

/-- MretReturnsToTheSavedMode: in M-mode with MPP = 3, MPP = 2, and below M-mode. -/
theorem witness_mret : State.reset.priv = .m ∧ privOfBits 3#2 = some .m ∧ privOfBits 0#2 = some .u ∧
    ({ State.reset with mstatus := { Mstatus.zero with mpp := 2#2 } } : State).mstatus.mpp = 2#2 ∧ hs.priv ≠ .m := by
  decide

/-- OnlyMretRaisesV: MRET with MPV = 1 and MPP = 1. -/
theorem witness_raisesV :
    let s := { State.reset with mstatus := { Mstatus.zero with mpp := 1#2, mpv := true } };
    ∃ t, exec .mret s = .next t ∧ s.v = false ∧ t.v = true := ⟨_, rfl, rfl, rfl⟩

/-- BelowMachineModeMLevelStateIsSafe: a write of `hgatp` in HS-mode. -/
theorem witness_belowM : hs.priv ≠ .m ∧ ∃ t, exec (.csrrw 0#5 0x680#12 1#5) hs = .next t ∧ t.priv ≠ .m :=
  ⟨by decide, _, rfl, by decide⟩

/-- TsrAndTvmActInHsModeOnly: each clause; whether a WFI passes its time is a free value. -/
theorem witness_tsrTvm :
    (let s := { hs with mstatus := { Mstatus.zero with tsr := true, tvm := true, tw := true } };
      s.priv = .s ∧ s.v = false ∧ s.mstatus.tsr = true ∧ s.mstatus.tvm = true ∧ s.mstatus.tw = true ∧ s.priv ≠ .m ∧
      (Config.wfiTimesOut s.draws = true ∨ Config.wfiTimesOut s.draws = false)) ∧
    (let s := { hs with v := true, hstatus := { Hstatus.zero with vtsr := true } };
      s.priv = .s ∧ s.v = true ∧ s.hstatus.vtsr = true) ∧
    ({ hs with v := true } : State).v = true ∧ hs.hstatus.vtsr = false ∧ State.reset.priv = .m ∧ hs.mstatus.tw = false ∧
    0x12628073#32 = encSys 0b0001001#7 6#5 5#5 0b000#3 0#5 ∧ 0x16628073#32 = encSys 0b0001011#7 6#5 5#5 0b000#3 0#5 := by
  refine ⟨⟨rfl, rfl, rfl, rfl, rfl, by decide, ?_⟩, by decide⟩
  cases Config.wfiTimesOut _ <;> simp

/-- CsrInstructionsReadThenWrite, MachineModeReachesEveryCsr. -/
theorem witness_csr : (∀ k, Csr.mstatus ≠ .foreign k) ∧ State.reset.priv = .m ∧ State.reset.v = false ∧
    csrCheck 0x300#12 true State.reset = .ok .mstatus ∧ csrCheck 0x300#12 false State.reset = .ok .mstatus ∧
    (narrow State.reset).cfg.mxlen = .x32 ∧ State.reset.cfg.mxlen = .x64 ∧
    csrOf (.csrrwi 5#5 0x310#12 0#5) = some (0x310#12, true) ∧
    csrCheck 0x310#12 true State.reset = .error .illegalInstruction := by
  exact ⟨(fun k h => by cases h), by decide⟩

/-- CsrCheckRaises: each clause: no register, a read-only number, M-level below M, HS-level with V = 1 and in U-mode, S-level in
VU-mode and in U-mode, and a register of the larger machine. -/
theorem witness_csrCheck :
    csrOf (.csrrs 5#5 0x7FF#12 0#5) = some (0x7FF#12, false) ∧ csrNamed State.reset.cfg 0x7FF#12 = none ∧
    csrOf (.csrrs 5#5 0xF11#12 1#5) = some (0xF11#12, true) ∧ (0xF11#12 : CsrNum).extractLsb' 10 2 = 3#2 ∧
    csrOf (.csrrci 5#5 0x300#12 0#5) = some (0x300#12, false) ∧ (0x300#12 : CsrNum).extractLsb' 8 2 = 3#2 ∧ hs.priv ≠ .m ∧
    csrOf (.csrrsi 5#5 0x600#12 1#5) = some (0x600#12, true) ∧ csrNamed hs.cfg 0x600#12 ≠ none ∧
    (0x600#12 : CsrNum).extractLsb' 10 2 ≠ 3#2 ∧ (0x600#12 : CsrNum).extractLsb' 8 2 = 2#2 ∧
    csrOf (.csrrc 5#5 0x100#12 1#5) = some (0x100#12, true) ∧ (0x100#12 : CsrNum).extractLsb' 8 2 = 1#2 ∧
    ({ hs with priv := .u } : State).priv = .u ∧ hs.v = false ∧ ({ hs with v := true } : State).v = true ∧
    csrNamed { Config.atReset with otherCsrs := [0x320#12] } 0x320#12 = some (.foreign 0x320#12) ∧
    (0x320#12 : CsrNum).extractLsb' 8 2 = 3#2 := by decide

/-- TvmBlocksHgatpInHsMode, TvmBlocksGvmaAndNotVvma: each clause. -/
theorem witness_tvm :
    csrOf (.csrrs 6#5 0x680#12 0#5) = some (0x680#12, false) ∧ csrOf (.csrrw 0#5 0x280#12 5#5) = some (0x280#12, true) ∧
    (let s := { hs with mstatus := { Mstatus.zero with tvm := true } };
      s.priv = .s ∧ s.v = false ∧ s.mstatus.tvm = true ∧ s.cfg.tvmException = .illegalInstruction) ∧
    hs.mstatus.tvm = false ∧ ({ hs with v := true } : State).v = true ∧ ({ hs with priv := .u } : State).priv = .u ∧
    State.reset.priv = .m := by decide

/-- MidelegWriteKeepsItsFixedBits, MipWriteChangesTheSoftwareBits: GEILEN = 0 with each parameter, and GEILEN ≠ 0. -/
theorem witness_geilen :
    let c (b : Bit12NoGei) : Config := { Config.atReset with geilen := 0, midelegBit12NoGei := b };
    Config.atReset.geilen ≠ 0 ∧ (State.resetOf (c .zero)).cfg.geilen = 0 ∧
    (State.resetOf (c .one)).cfg.midelegBit12NoGei = .one ∧
    (State.resetOf (c .writable)).cfg.midelegBit12NoGei = .writable := by decide

/-- StatusFieldsStandAtTheirPositions, StatusWritesChangeTheirFields, DoublewordAccessesAreReservedAtThirtyTwoBits: both
widths, and an MPP value on each side. -/
theorem witness_widths : State.reset.cfg.mxlen = .x64 ∧ (narrow State.reset).cfg.mxlen = .x32 ∧
    (0x1800#64).extractLsb' 11 2 ≠ 2#2 ∧ (0x1000#64).extractLsb' 11 2 = 2#2 := by decide

/-- SecondTrapRegistersAreWarl: a legal value and an illegal one; the resolution is a free value, kept where it is legal. -/
theorem witness_warl : legalIn .x64 State.reset.cfg.mtval2Legal 0x1FFFFFFFFFFFFFF = true ∧
    legalIn .x64 State.reset.cfg.mtval2Legal 0x200000000000000 = false ∧
    legalIn .x64 [] 1#64 = false ∧ legalIn .x64 [] 0#64 = true := by decide

/-- SecondTrapRegistersAreWarl, the third clause of each half: the resolution is a free value; wherever it differs from the
written value, this set makes it legal and the written value illegal. -/
theorem witness_warl_resolved (r v : Word) (h0 : v ≠ 0#64) (h : r ≠ v) :
    legalIn .x64 [(r.toNat, r.toNat)] v = false ∧ legalIn .x64 [(r.toNat, r.toNat)] r = true := by
  have hne : ¬ r.toNat = v.toNat := fun e => h (BitVec.eq_of_toNat_eq e)
  have hr := r.isLt
  constructor
  · simp [legalIn, h0]
    omega
  · simp only [legalIn, mxlenBits, List.any_cons, List.any_nil]
    simp [hr]

/-- SstatusIsAViewOfMstatus: VS-mode and HS-mode. -/
theorem witness_sstatus : hs.priv = .s ∧ hs.v = false ∧ ({ hs with v := true } : State).v = true := by decide

/-- RaisingSavesTheInstructionAndChangesNoRegister: below M and not delegated, and in M-mode. -/
theorem witness_raise : excCode .illegalInstruction ∉ hs.cfg.medeleg ∧ State.reset.priv = .m ∧
    isGuestPageFault (excCode .illegalInstruction) = false ∧ hs.cfg.gvaRule = .guestVa := by decide

/-- HypervisorAccessesAreChecked: with V = 1, and in U-mode without HU. -/
theorem witness_hypCheck : hypOf (.hlvD 10#5 11#5) = some (11#5, .d, .read) ∧
    Instr.wellFormed guest.cfg.mxlen (.hlvD 10#5 11#5) = true ∧ ({ guest with v := true } : State).v = true ∧
    ({ guest with priv := .u } : State).priv = .u ∧ guest.hstatus.hu = false ∧ guest.v = false := by decide

/-- HLV, HLVX and HSV may execute in the guest's state. -/
theorem guest_allowed : HypAllowed guest := by
  refine ⟨rfl, fun h => ?_⟩
  cases h

/-- Where the guest's bytes lie, from the page offset `k` on. -/
def guestAddr (k : Nat) : Nat → Nat := fun j => 0x90001000 + k + j

/-- The guest with another address in x11. -/
def guestAt (k : Nat) : State := guest.setX 11#5 (BitVec.ofNat 64 (0x1000 + k))

/-- ByteLoadsExtendTheByte, HalfwordLoadsAssembleTwoBytes, WordLoadsAssembleTheirBytes, StoresWriteTheirBytes,
StoreThenLoadReturnsTheBytes: aligned accesses of every width and kind. -/
theorem witness_aligned : HypAllowed guest ∧ LittleEndian guest ∧ MemCanonical guest ∧ guest.cfg.mxlen = .x64 ∧
    (∀ kind ∈ [AccessKind.read, .executeAsRead, .write],
      BytesAt guest (guest.x 11#5) .b kind (hypMode guest) (guestAddr 0) ∧
      BytesAt guest (guest.x 11#5) .h kind (hypMode guest) (guestAddr 0) ∧
      BytesAt guest (guest.x 11#5) .w kind (hypMode guest) (guestAddr 0) ∧
      BytesAt guest (guest.x 11#5) .d kind (hypMode guest) (guestAddr 0)) := by
  refine ⟨guest_allowed, guest_littleEndian, by unfold MemCanonical; decide, rfl, fun kind hk => ?_⟩
  simp only [List.mem_cons, List.not_mem_nil, or_false] at hk
  rcases hk with rfl | rfl | rfl <;>
    exact ⟨.inl ⟨by decide, _, rfl, by decide⟩, .inl ⟨by decide, _, rfl, by decide⟩, .inl ⟨by decide, _, rfl, by decide⟩,
      .inl ⟨by decide, _, rfl, by decide⟩⟩

/-- The same for a misaligned word, split into its bytes. -/
theorem witness_split : ∀ kind ∈ [AccessKind.read, .executeAsRead, .write],
    BytesAt (guestAt 2) ((guestAt 2).x 11#5) .w kind (hypMode (guestAt 2)) (guestAddr 2) := by
  intro kind hk
  simp only [List.mem_cons, List.not_mem_nil, or_false] at hk
  rcases hk with rfl | rfl | rfl <;>
    (refine .inr ⟨by decide, rfl, fun k h => ?_⟩
     match k, h with
     | 0, _ => exact ⟨_, rfl, by decide⟩
     | 1, _ => exact ⟨_, rfl, by decide⟩
     | 2, _ => exact ⟨_, rfl, by decide⟩
     | 3, _ => exact ⟨_, rfl, by decide⟩)

/-- StoresWriteTheirBytes, StoreThenLoadReturnsTheBytes: the bytes lie at different addresses. -/
theorem witness_distinct (n : Nat) : Distinct (guestAddr 0) n := by
  intro j k _ _ h
  simp only [guestAddr] at h
  omega

/-- StoresWriteTheirBytes, StoreThenLoadReturnsTheBytes: the guest's bytes are no page-table bytes, and an aligned access is one
portion, even over its own page table. -/
theorem witness_tablesApart (n : Width) : TablesApart guest (guest.x 11#5) n (guestAddr 0) ∧
    TablesApart guestTable (guestTable.x 11#5) .w (guestAddr 0) ∧ 0x90001000 ∈ guestTable.trans.tableBytes :=
  ⟨.inr fun k _ => List.not_mem_nil, .inl (by decide), by decide⟩

/-- StoreThenLoadReturnsTheBytes: after the store the translation gives the same bytes. -/
theorem witness_storeThenLoad : ∃ t, exec (.hsvW 12#5 11#5) guest = .next t ∧
    BytesAt t (guest.x 11#5) .w .read (hypMode guest) (guestAddr 0) ∧
    BytesAt t (guest.x 11#5) .b .read (hypMode guest) (guestAddr 0) :=
  ⟨_, rfl, .inl ⟨by decide, _, rfl, by decide⟩, .inl ⟨by decide, _, rfl, by decide⟩⟩

/-- StoresChangeOnlyTheirTargets, OnlyHsvChangesMemory, StoreThenLoadReturnsTheBytes, HypervisorAccessesIgnoreMprv. -/
theorem witness_store : (∃ t, exec (.hsvB 12#5 11#5) guest = .next t) ∧ (∃ t, exec (.hsvH 12#5 11#5) guest = .next t) ∧
    (∃ t, exec (.hsvW 12#5 11#5) guest = .next t) ∧ (∃ t, exec (.hsvD 12#5 11#5) guest = .next t) ∧
    hypOf (.hsvW 12#5 11#5) = some (11#5, .w, .write) :=
  ⟨⟨_, rfl⟩, ⟨_, rfl⟩, ⟨_, rfl⟩, ⟨_, rfl⟩, rfl⟩

/-- OnlyHsvChangesMemory: an instruction that is no HSV and changes the mode. -/
theorem witness_noStore : ∃ t, exec (.hlvW 10#5 11#5) guestHole = .next t ∧ t.mode ≠ guestHole.mode := ⟨_, rfl, by decide⟩

/-- MisalignedAccessesTrapUnderTheTrapPolicy: a load and a store. -/
theorem witness_misaligned :
    let s := trapping (guestAt 2);
    hypOf (.hlvW 10#5 11#5) = some (11#5, .w, .read) ∧ hypOf (.hsvW 12#5 11#5) = some (11#5, .w, .write) ∧
    Instr.wellFormed s.cfg.mxlen (.hlvW 10#5 11#5) = true ∧ Instr.wellFormed s.cfg.mxlen (.hsvW 12#5 11#5) = true ∧
    s.v = false ∧ s.priv ≠ .u ∧ s.cfg.misaligned = .trap ∧ (s.x 11#5).toNat % widthBytes .w ≠ 0 ∧
    6 ∉ s.cfg.medeleg ∧ 4 ∉ s.cfg.medeleg ∧ s.cfg.gvaRule = .guestVa := by decide

/-- FaultingAccessesTrapWithTheGuestAddress, TranslationFaultsReportTheirAddresses: a guest-page fault and a page fault. -/
theorem witness_faulting :
    hypOf (.hlvW 10#5 11#5) = some (11#5, .w, .read) ∧ (guestHole.x 11#5).toNat % widthBytes .w = 0 ∧ HypAllowed guestHole ∧
    translate guestHole (guestHole.x 11#5) (widthBytes .w) .read (hypMode guestHole) =
      .error (.fault (guestFault .read 0x1000 0x80001000 false (hypMode guestHole))) ∧
    excCode .loadGuestPageFault ∉ guestHole.cfg.medeleg ∧ guestHole.cfg.gvaRule = .guestVa ∧
    translate hs 0x1000 4 .write { p := .s, v := false } =
      .error (.fault (addrFault .storePageFault 0x1000 { p := .s, v := false })) :=
  ⟨rfl, by decide, guest_allowed, rfl, by decide, rfl, rfl⟩

/-- FaultingAccessesTrapWithTheGuestAddress, OrdinaryAccessesUseTheEffectiveMode, split: the last two bytes of a word that runs
over the end of the guest's page fault, whether it is loaded or stored. -/
theorem witness_bytesFault : ∀ kind ∈ [AccessKind.read, .executeAsRead, .write],
    let s := guestAt 0xFFE;
    HypAllowed s ∧ LittleEndian s ∧ MemCanonical s ∧
    BytesFault s (s.x 11#5) .w kind { p := .s, v := true } (guestAddr 0xFFE) ∧ hypMode s = { p := .s, v := true } := by
  intro kind hk
  simp only [List.mem_cons, List.not_mem_nil, or_false] at hk
  refine ⟨guest_allowed, guest_littleEndian, by unfold MemCanonical; decide, ⟨by decide, rfl, ?_, ⟨2, by decide, ?_⟩, ?_⟩, rfl⟩
  · intro k hk'
    rcases hk with rfl | rfl | rfl <;>
      match k, hk' with
      | 0, _ => exact .inl ⟨_, rfl, by decide⟩
      | 1, _ => exact .inl ⟨_, rfl, by decide⟩
      | 2, _ => exact .inr ⟨_, rfl, by decide⟩
      | 3, _ => exact .inr ⟨_, rfl, by decide⟩
  · rcases hk with rfl | rfl | rfl <;> exact ⟨_, rfl⟩
  · refine fun _ => ⟨?_, .inr fun k _ => List.not_mem_nil⟩
    intro j k _ _ h
    simp only [guestAddr] at h
    omega

/-- FaultingAccessesTrapWithTheGuestAddress, a fetch: the one portion of four bytes, the first portion of two, and the second. -/
theorem witness_fetchFault :
    (let s := { guestFetch 0x3000 with cfg := { Config.atReset with variableLength := false } };
      s.env = [] ∧ pendingInterrupt s = none ∧ s.cfg.variableLength = false ∧
      translate s (xlenCut s.cfg.mxlen (s.pc + 0#64)) 4 .execute s.mode =
        .error (.fault (guestFault .execute 0x3000 0x80004000 false { p := .u, v := true }))) ∧
    (let s := guestFetch 0x5000;
      s.env = [] ∧ pendingInterrupt s = none ∧ s.cfg.variableLength = true ∧
      translate s (xlenCut s.cfg.mxlen (s.pc + 0#64)) 2 .execute s.mode =
        .error (.fault (addrFault .instrPageFault 0x5000 { p := .u, v := true }))) ∧
    (let s := guestFetch 0x2FFE;
      s.env = [] ∧ pendingInterrupt s = none ∧ s.cfg.variableLength = true ∧ PcAligned s ∧
      translate s (xlenCut s.cfg.mxlen (s.pc + 0#64)) 2 .execute s.mode = .ok 0x90002FFE ∧
      (∀ j < 2, physByte 0x90002FFE j ∉ s.stored) ∧ (s.byteAt (physByte 0x90002FFE 0)).extractLsb' 0 2 = 3#2 ∧
      (s.byteAt (physByte 0x90002FFE 0)).extractLsb' 2 3 ≠ 7#3 ∧
      translate s (xlenCut s.cfg.mxlen (s.pc + 2#64)) 2 .execute s.mode =
        .error (.fault (guestFault .execute 0x3000 0x80004000 false { p := .u, v := true })) ∧
      excCode .instrGuestPageFault ∉ s.cfg.medeleg) :=
  ⟨by decide, by decide, by decide, by decide, by decide, (by unfold PcAligned; decide), by decide, by decide, by decide,
    by decide, by decide, by decide⟩

/-- TranslationFaultsReportTheirAddresses: a fault of an implicit VS-stage access, whose page-table entry lies at a guest physical
address that nothing maps. -/
theorem witness_implicitFault :
    let s := { guest with trans := { guest.trans with vs := guest.trans.vs.map fun e => { e with walk := [0x5008] } } };
    translate s 0x1000 4 .read { p := .s, v := true } =
      .error (.fault (guestFault .read 0x1000 0x5008 true { p := .s, v := true })) := rfl

/-- EffectiveModeFollowsTheTable: the rows of Table 5.4, and MPP = 2. -/
theorem witness_effMode : Mstatus.zero.mprv = false ∧ ∀ mpv : Bool, ∀ mpp : BitVec 2,
    ({ Mstatus.zero with mprv := true, mpv := mpv, mpp := mpp }).mprv = true ∧
    ({ Mstatus.zero with mprv := true, mpv := mpv, mpp := mpp }).mpv = mpv ∧
    ({ Mstatus.zero with mprv := true, mpv := mpv, mpp := mpp }).mpp = mpp :=
  ⟨rfl, fun _ _ => ⟨rfl, rfl, rfl⟩⟩

/-- MxrActsAsTheTableSays: two stages for each kind, and one stage. -/
theorem witness_mxr :
    (∀ kind ∈ [AccessKind.read, .write, .execute, .executeAsRead], ∃ e g pa,
      guest.vsEntry 0x1000 4 = some e ∧ vsWalk guest 0x1000 kind { p := .s, v := true } e.walk = none ∧
      userAllows kind .s guest.vsstatus.sum e.perm = true ∧ guest.gEntry (e.out + (0x1000 - e.base)) 4 = some g ∧
      physWalk guest 0x1000 kind { p := .s, v := true } g.walk = none ∧
      physical guest (g.out + (e.out + (0x1000 - e.base) - g.base)) 0x1000 4 kind { p := .s, v := true } = .ok pa) ∧
    (∃ e pa, guest.hsEntry 0x1000 4 = some e ∧ physWalk guest 0x1000 .read { p := .s, v := false } e.walk = none ∧
      userAllows .read .s guest.mstatus.sum e.perm = true ∧
      physical guest (e.out + (0x1000 - e.base)) 0x1000 4 .read { p := .s, v := false } = .ok pa) := by
  constructor
  · intro kind hk
    simp only [List.mem_cons, List.not_mem_nil, or_false] at hk
    rcases hk with rfl | rfl | rfl | rfl <;> exact ⟨_, _, _, rfl, rfl, rfl, rfl, rfl, rfl⟩
  · exact ⟨_, _, rfl, rfl, rfl, rfl⟩

/-- SumActsAtItsLevelOnly: a VS-level access to a user page with each `vsstatus.SUM`, and an HS-level one with each
`mstatus.SUM`. -/
theorem witness_sum (b : Bool) :
    (let s := { guestPerm userPerm allPerm with vsstatus := { Sstatus.zero with sum := b } };
      ∃ e, s.vsEntry 0x1000 4 = some e ∧ vsWalk s 0x1000 .read { p := .s, v := true } e.walk = none ∧ e.perm.u = true ∧
        s.vsstatus.sum = b ∧ permAllows .read (s.mstatus.mxr || s.vsstatus.mxr) e.perm = true) ∧
    (let s := { guest with
        mstatus := { Mstatus.zero with sum := b }
        trans := { guest.trans with hs := guest.trans.hs.map fun e => { e with perm := userPerm } } };
      ∃ e, s.hsEntry 0x1000 4 = some e ∧ physWalk s 0x1000 .read { p := .s, v := false } e.walk = none ∧ e.perm.u = true ∧
        s.mstatus.sum = b ∧ permAllows .read s.mstatus.mxr e.perm = true) :=
  ⟨⟨_, rfl, rfl, rfl, rfl, rfl⟩, ⟨_, rfl, rfl, rfl, rfl, rfl⟩⟩

/-- The guest from M-mode with MPRV = 1, MPV = 1, MPP = 1, the environment announcing an access. -/
def guestByMprv (a : OrdinaryAccess) : State :=
  { guest with
    priv := .m, mstatus := { Mstatus.zero with mprv := true, mpv := true, mpp := 1#2 }, env := [.access a] }

/-- OrdinaryAccessesUseTheEffectiveMode: an access of every width, loaded or stored, to the guest's page. -/
theorem witness_ordinary (isStore : Bool) : ∀ n ∈ [Width.b, .h, .w, .d],
    let a := { wordAccess isStore 0x1000 with width := n };
    let s := guestByMprv a;
    let va := xlenCut s.cfg.mxlen a.addr;
    s.env = .access a :: [] ∧ pendingInterrupt s = none ∧ effMode .ordinary s = some { p := .s, v := true } ∧
    LittleEndian s ∧ MemCanonical s ∧ a.isStore = isStore ∧ a.width = n ∧ Distinct (guestAddr 0) (widthBytes n) ∧
    TablesApart s va n (guestAddr 0) ∧ BytesAt s va n .read { p := .s, v := true } (guestAddr 0) ∧
    BytesAt s va n .write { p := .s, v := true } (guestAddr 0) := by
  intro n hn
  have hp : pendingInterrupt (guestByMprv (wordAccess false 0x1000)) = none := by decide
  have hm : MemCanonical guest := by unfold MemCanonical; decide
  simp only [List.mem_cons, List.not_mem_nil, or_false] at hn
  refine ⟨rfl, hp, rfl, ?_, hm, rfl, rfl, witness_distinct _, .inr fun k _ => List.not_mem_nil, ?_⟩
  · rintro ⟨p, v⟩
    cases p <;> cases v <;> rfl
  · rcases hn with rfl | rfl | rfl | rfl <;> cases isStore <;>
      exact ⟨.inl ⟨by decide, _, rfl, by decide⟩, .inl ⟨by decide, _, rfl, by decide⟩⟩

/-- OrdinaryAccessesUseTheEffectiveMode: an access that `Translate` stops, with effective V 1 and 0, a misaligned one under the
trap policy, and one that is split over the end of the guest's page. -/
theorem witness_ordinaryFault (isStore : Bool) :
    (let s := guestByMprv (wordAccess isStore 0x5000);
      effMode .ordinary s = some { p := .s, v := true } ∧ (0x5000#64).toNat % widthBytes .w = 0 ∧
      ∀ kind, translate s 0x5000 4 kind { p := .s, v := true } =
        .error (.fault (addrFault (pageFaultOf kind) 0x5000 { p := .s, v := true }))) ∧
    (let s := { hs with env := [.access (wordAccess isStore 0x5000)] };
      effMode .ordinary s = some { p := .s, v := false } ∧
      ∀ kind, translate s 0x5000 4 kind { p := .s, v := false } =
        .error (.fault (addrFault (pageFaultOf kind) 0x5000 { p := .s, v := false }))) ∧
    (let s := trapping (guestByMprv (wordAccess isStore 0x1002));
      s.cfg.misaligned = .trap ∧ (0x1002#64).toNat % widthBytes .w ≠ 0 ∧ s.priv = .m) ∧
    (let s := guestByMprv (wordAccess isStore 0x1FFE);
      effMode .ordinary s = some { p := .s, v := true } ∧
      BytesFault s 0x1FFE .w (if isStore then .write else .read) { p := .s, v := true } (guestAddr 0xFFE)) := by
  have hb : ∀ kind ∈ [AccessKind.read, .executeAsRead, .write],
      BytesFault (guestByMprv (wordAccess isStore 0x1FFE)) 0x1FFE .w kind { p := .s, v := true } (guestAddr 0xFFE) :=
    fun kind hk => by
      have htr : ∀ va, translate (guestByMprv (wordAccess isStore 0x1FFE)) va 1 kind { p := .s, v := true } =
          translate (guestAt 0xFFE) va 1 kind { p := .s, v := true } := fun va =>
        translate_congr (s := guestAt 0xFFE) (t := guestByMprv (wordAccess isStore 0x1FFE))
          ⟨⟨rfl, rfl, rfl, rfl, rfl, fun _ _ => rfl⟩, rfl, rfl, rfl⟩ va 1 kind _
      obtain ⟨-, -, -, h, -⟩ := witness_bytesFault kind hk
      refine ⟨h.misaligned, h.split, fun k hk' => ?_, ?_, h.apart⟩
      · rw [htr]
        exact (h.each k hk').imp id fun ⟨e, he, _⟩ => ⟨e, he, .inr rfl⟩
      · obtain ⟨k, hk', e, he⟩ := h.faulting
        exact ⟨k, hk', e, (htr _).trans he⟩
  refine ⟨⟨rfl, by decide, fun kind => rfl⟩, ⟨rfl, fun kind => rfl⟩, ⟨rfl, by decide, rfl⟩, rfl, hb _ ?_⟩
  cases isStore <;> decide

end Sys2Proof.Tests
end

/-! PROOF. Instruction addresses (10_state.md R41): which addresses they are, and which operations stay among them. -/

namespace Sys2Proof.Machine

/-- What every instruction address is a multiple of (R41). -/
def instrAlign (c : Config) : Nat := if c.variableLength then 2 else 4

/-- The fixed points of `instrAddr` are the multiples of the instruction alignment. -/
theorem instrAddr_eq_self_iff (c : Config) (a : Word) : instrAddr c a = a ↔ a.toNat % instrAlign c = 0 := by
  have bit0 : a.getLsbD 0 = false ↔ a.toNat % 2 = 0 := by simp [BitVec.getLsbD]
  have bit1 : a.getLsbD 1 = false ↔ a.toNat / 2 % 2 = 0 := by simp [BitVec.getLsbD, Nat.testBit_succ]
  unfold instrAddr instrAlign
  split_ifs
  · rw [← bit0]
    exact ⟨fun h => by rw [← h]; simp, and_not_one⟩
  · have low : a.toNat % 4 = 0 ↔ a.getLsbD 0 = false ∧ a.getLsbD 1 = false := by
      rw [bit0, bit1]
      omega
    rw [low]
    exact ⟨fun h => by rw [← h]; simp, fun ⟨h0, h1⟩ => and_not_three h0 h1⟩

@[simp] theorem instrAddr_instrAddr (c : Config) (a : Word) : instrAddr c (instrAddr c a) = instrAddr c a := by
  unfold instrAddr
  split_ifs <;> rw [BitVec.and_assoc, BitVec.and_self]

/-- An instruction address plus a multiple of four is one again, modulo 2^64. -/
theorem instrAddr_add {c : Config} {a b : Word} (ha : instrAddr c a = a) (hb : b.toNat % 4 = 0) :
    instrAddr c (a + b) = a + b := by
  rw [instrAddr_eq_self_iff] at ha ⊢
  rw [BitVec.toNat_add]
  unfold instrAlign at ha ⊢
  split_ifs at ha ⊢ <;> omega

/-- The cut to XLEN bits clears no low bit, so it keeps an instruction address one. -/
theorem instrAddr_xlenCut {c : Config} {a : Word} (h : instrAddr c a = a) :
    instrAddr c (xlenCut c.mxlen a) = xlenCut c.mxlen a := by
  rw [instrAddr_eq_self_iff] at h ⊢
  cases c.mxlen with
  | x32 =>
    simp only [xlenCut, BitVec.toNat_setWidth]
    unfold instrAlign at h ⊢
    split_ifs at h ⊢ <;> omega
  | x64 => exact h

/-- A handler's address before its cut is an instruction address in every configuration (60_exceptions.md R167). -/
theorem instrAddr_trapBase (c : Config) (mtvec : Word) : instrAddr c (mtvec &&& ~~~3#64) = mtvec &&& ~~~3#64 :=
  instrAddr_of_mod4 c (by simp) (by simp)

/-- An aligned pc is a fixed point of `instrAddr`. -/
theorem PcAligned.instrAddr_pc {s : State} (h : PcAligned s) : instrAddr s.cfg s.pc = s.pc := by
  unfold PcAligned at h
  rw [← h]
  exact instrAddr_xlenCut (instrAddr_instrAddr s.cfg s.pc)

/-- A pc that is an instruction address cut to XLEN bits is aligned. -/
theorem pcAligned_of_cut {s : State} {a : Word} (hpc : s.pc = xlenCut s.cfg.mxlen a) (ha : instrAddr s.cfg a = a) :
    PcAligned s := by
  rw [PcAligned, hpc, instrAddr_xlenCut ha, xlenCut_idem]

theorem pcAligned_advance {s : State} (h : PcAligned s) : PcAligned s.advance :=
  pcAligned_of_cut rfl (instrAddr_add h.instrAddr_pc (by decide))

/-- Every handler's address is an instruction address (R167). -/
theorem pcAligned_enterM (tr : Trap) (s : State) : PcAligned (enterM tr s) := by
  refine pcAligned_of_cut (enterM_pc s tr) ?_
  have hbase := instrAddr_trapBase s.cfg s.mtvec
  simp only [enterM_cfg]
  split_ifs
  · exact instrAddr_add hbase (by rw [BitVec.toNat_mul, BitVec.toNat_ofNat]; omega)
  · exact hbase

theorem pcAligned_returnTo (p : Priv) (s : State) : PcAligned (returnTo p s) :=
  pcAligned_of_cut (returnTo_pc s p) (instrAddr_instrAddr s.cfg s.mepc)

end Sys2Proof.Machine

/-! PROOF. The invariant holds at reset, and each of the six shapes of a step keeps it. -/

namespace Sys2Proof.Machine

/-! ## What the invariant reads -/

/-- The fields of a state that the invariant reads. -/
def invView (s : State) :=
  (s.cfg, s.priv, s.v, s.pc, s.mstatus, s.mtval2, s.mtinst, s.hstatus, s.vsstatus, s.mem)

/-- Two states that agree on these fields meet the invariant together. -/
theorem Inv.congr {s t : State} (h : Inv s) (e : invView t = invView s) : Inv t := by
  simp only [invView, Prod.mk.injEq] at e
  obtain ⟨hcfg, hpriv, hv, hpc, hmst, hmt2, hmti, hhst, hvst, hmem⟩ := e
  obtain ⟨hmode, hmpp, hal, hwarl, hcan, hle, hxl⟩ := h
  refine ⟨?_, ?_, ?_, ?_, ?_, fun md => (bigEndian_congr ?_ md).trans (hle md), ?_⟩
  · rwa [ModeLegal, hpriv, hv]
  · rwa [MppLegal, hmst]
  · rwa [PcAligned, hcfg, hpc]
  · rwa [WarlLegal, hcfg, hmt2, hmti]
  · rwa [MemCanonical, hmem]
  · rw [orderBits, hmst, hhst, hvst, orderBits]
  · rwa [XlenFields, hcfg, hmst, hhst, hvst]

/-- An update that leaves the byte-order and width fields alone keeps those two clauses; the others it has to keep. -/
theorem Inv.of_same_bits {s t : State} (h : Inv s) (hcfg : t.cfg = s.cfg) (horder : orderBits t = orderBits s)
    (hxlen : xlenBits t = xlenBits s) (hmode : ModeLegal t) (hmpp : MppLegal t) (hpc : PcAligned t) (hwarl : WarlLegal t)
    (hmem : MemCanonical t) : Inv t where
  modeLegal := hmode
  mppLegal := hmpp
  pcAligned := hpc
  warlLegal := hwarl
  memCanonical := hmem
  littleEndian md := (bigEndian_congr horder md).trans (h.littleEndian md)
  xlenFields := by
    rw [xlenFields_iff, hxlen, hcfg]
    exact xlenFields_iff.mp h.xlenFields

/-! ## Each update of the state keeps it -/

theorem Inv.setX {s : State} (h : Inv s) (i : RegIdx) (a : Word) : Inv (s.setX i a) := h.congr (by simp [invView])

theorem Inv.drawOrder {s : State} (h : Inv s) (va : Word) (n : Width) : Inv (drawOrder va n s) :=
  h.congr (by simp [invView])

theorem Inv.withMem {s : State} (h : Inv s) {m : Memory} (hm : m.wf = true) (st : List Nat) : Inv (withMem s m st) :=
  h.of_same_bits rfl rfl rfl h.modeLegal h.mppLegal h.pcAligned h.warlLegal hm

theorem Inv.advance {s : State} (h : Inv s) : Inv s.advance :=
  h.of_same_bits rfl rfl rfl h.modeLegal h.mppLegal (pcAligned_advance h.pcAligned) h.warlLegal h.memCanonical

/-- Entry into M-mode leaves V = 0, a legal MPP, a handler's address and legal trap values (60_exceptions.md R161 to R167). -/
theorem Inv.enterM {s : State} (h : Inv s) (tr : Trap) : Inv (enterM tr s) :=
  h.of_same_bits rfl rfl rfl (fun _ => rfl) (privBits_legal s.priv) (pcAligned_enterM tr s)
    ⟨mtval2Of_legal s.cfg tr s.draws, mtinstOf_legal s.cfg tr s.draws⟩ h.memCanonical

/-- A return to M-mode clears V whatever MPV holds (41_mret.md R120). -/
theorem Inv.returnTo {s : State} (h : Inv s) (p : Priv) : Inv (returnTo p s) :=
  h.of_same_bits rfl rfl rfl (fun hp => if_pos hp) (privBits_legal s.cfg.mretMppAfter) (pcAligned_returnTo p s)
    h.warlLegal h.memCanonical

/-- No CSR write reaches the mode, the pc, memory, or a byte-order or width field, and what it leaves in MPP, `mtval2` and
`mtinst` is legal. -/
theorem Inv.csrWrite {s : State} (h : Inv s) (r : Csr) (a : Word) : Inv (csrWrite r a s) := by
  obtain ⟨hmtval2, hmtinst⟩ := h.warlLegal
  refine h.of_same_bits (csrWrite_cfg r a s) (orderBits_csrWrite r a s) (xlenBits_csrWrite r a s) ?_
    (csrWrite_mpp_legal r a h.mppLegal) ?_ ?_ ?_
  · rw [ModeLegal, csrWrite_priv, csrWrite_v]
    exact h.modeLegal
  · rw [PcAligned, csrWrite_cfg, csrWrite_pc]
    exact h.pcAligned
  · rw [WarlLegal, csrWrite_cfg]
    exact ⟨csrWrite_mtval2_legal r a hmtval2, csrWrite_mtinst_legal r a hmtinst⟩
  · rw [MemCanonical, csrWrite_mem]
    exact h.memCanonical

theorem Inv.csrDone {s : State} (h : Inv s) (rd : RegIdx) (writes : Bool) (new : Word → Word) (r : Csr) :
    Inv (csrDone rd writes new r s) := by
  refine (Inv.setX ?_ rd _).advance
  split
  · exact h.csrWrite r _
  · exact h

/-! ## Every step keeps it -/

/-- Every shape of a next state of the hart keeps the invariant. -/
theorem HartShape.inv {s t : State} (hs : HartShape s t) (h : Inv s) : Inv t := by
  cases hs with
  | trap tr m st hm => exact (h.withMem (hm h.memCanonical) st).enterM tr
  | csr n rd writes new r _ => exact h.csrDone rd writes new r
  | ret p _ _ => exact h.returnTo p
  | fence => exact h.advance
  | load rd a va n => exact ((h.drawOrder va n).setX rd a).advance
  | store m st va n hm => exact ((h.withMem (hm h.memCanonical) st).drawOrder va n).advance

/-- Settles O8: a step is one of the hart's shapes, each of which keeps the invariant, or an event of the environment that
changes no field the invariant reads. -/
theorem stepKeepsTheInvariant : Obligations.StepKeepsTheInvariant := by
  intro s t h hstep
  obtain ⟨es, hshape | ⟨bits, rfl⟩ | ⟨tr, -, rfl⟩⟩ := step_shape hstep
  · exact hshape.inv (h.congr rfl)
  · exact h.congr rfl
  · exact h.congr rfl

/-! ## Reset -/

/-- The reset state of an implementation meets the invariant where RESET_PC is an instruction address (10_state.md R41, R44). -/
theorem inv_resetOf {c : Config} (hpc : xlenCut c.mxlen (instrAddr c c.resetPc) = c.resetPc) : Inv (State.resetOf c) where
  modeLegal _ := rfl
  mppLegal := show (0#2 : BitVec 2) ≠ 2#2 by decide
  pcAligned := hpc
  warlLegal := ⟨legalIn_zero _ _, legalIn_zero _ _⟩
  memCanonical := rfl
  littleEndian := fun ⟨p, v⟩ => by cases p <;> cases v <;> rfl
  xlenFields := ⟨rfl, rfl, rfl, rfl⟩

/-- Settles O7: the reset vector of `Config.atReset` is an instruction address. -/
theorem resetMeetsTheInvariant : Obligations.ResetMeetsTheInvariant :=
  inv_resetOf (c := Config.atReset) (by decide)

/-- The fixed bits of `mideleg` read 1 in every state (10_state.md R26, R27). -/
theorem csrRead_mideleg_fixed (s : State) {i : Nat}
    (h : i = 10 ∨ i = 6 ∨ i = 2 ∨ (i = 12 ∧ s.cfg.geilen ≠ 0)) : (csrRead .mideleg s).getLsbD i = true := by
  have hbits : s.midelegBits.getLsbD i = true := by
    obtain h | h | h | ⟨rfl, h⟩ := h
    · exact midelegBits_fixed s (.inl h)
    · exact midelegBits_fixed s (.inr (.inl h))
    · exact midelegBits_fixed s (.inr (.inr h))
    · exact midelegBits_gei s h
  have hi : i < 64 := by omega
  rw [csrRead, BitVec.getLsbD_setWidth, hbits, decide_eq_true hi]
  rfl

/-- Settles O6: the fields by the definition of the reset state, the bits of `mideleg` because they are fixed in every
state. -/
theorem resetIsInMachineMode : Obligations.ResetIsInMachineMode := by
  refine ⟨fun c => ⟨rfl, rfl, rfl, rfl, rfl, rfl, rfl, fun i => csrRead_mideleg_fixed (State.resetOf c), fun q hq => ?_⟩, rfl⟩
  have hxl : q = xlField c.mxlen := by
    simpa [State.resetOf, Mstatus.reset, Hstatus.reset, Sstatus.reset] using hq
  subst hxl
  cases c.mxlen <;> simp [xlField]

/-! ## The step of the hart -/

/-- With no event and no interrupt a step runs the word that the fetch gives. -/
theorem step_of_fetch_word {s : State} {w : InstrWord} (henv : s.env = []) (hint : pendingInterrupt s = none)
    (hfetch : fetch s = .word w) : step s = runWord w s := by
  simp only [step, henv, hartStep, hint, runInstr, hfetch]

/-- Settles O11: the step runs the fetched word, and a word that decodes to an instruction runs that instruction. -/
theorem stepRunsTheDecodedInstruction : Obligations.StepRunsTheDecodedInstruction := by
  intro s w i henv hint hfetch hdec
  rw [step_of_fetch_word henv hint hfetch]
  simp only [runWord, hdec]

end Sys2Proof.Machine

/-! PROOF. `sstatus` is a view of `mstatus` and `vsstatus` is separate storage (10_state.md R24). -/

namespace Sys2Proof.Machine

/-! ## Fields of a status word -/

/-- A bit of a one-bit field at its position. -/
theorem getLsbD_bitAt (b : Bool) {k : Nat} (hk : k < 64) (i : Nat) : (bitAt b k).getLsbD i = (b && decide (i = k)) := by
  rw [bitAt, BitVec.getLsbD_shiftLeft, BitVec.getLsbD_setWidth, BitVec.getLsbD_ofBool]
  grind

/-- A bit of a two-bit field at its position. -/
theorem getLsbD_fieldAt (a : BitVec 2) {k : Nat} (hk : k + 1 < 64) (i : Nat) :
    (fieldAt a k).getLsbD i = (a.getLsbD 0 && decide (i = k) || a.getLsbD 1 && decide (i = k + 1)) := by
  rw [fieldAt, BitVec.getLsbD_shiftLeft, BitVec.getLsbD_setWidth]
  have hhigh : 2 ≤ i - k → a.getLsbD (i - k) = false := BitVec.getLsbD_of_ge a (i - k)
  obtain h | h | h : i - k = 0 ∨ i - k = 1 ∨ 2 ≤ i - k := by omega
  all_goals grind

/-- A mask keeps a one-bit field or clears it. -/
theorem bitAt_and (b : Bool) (k : Nat) (mask : Word) : bitAt b k &&& mask = bitAt (b && mask.getLsbD k) k := by
  ext i hi
  simp only [bitAt, BitVec.getElem_and, BitVec.getElem_shiftLeft]
  grind

/-- A mask cuts a field to its own bits there. -/
theorem fieldAt_and {n : Nat} (a : BitVec n) (k : Nat) (mask : Word) :
    fieldAt a k &&& mask = fieldAt (a &&& mask.extractLsb' k n) k := by
  ext i hi
  simp only [fieldAt, BitVec.getElem_and, BitVec.getElem_shiftLeft]
  grind

@[simp] theorem bitAt_false (k : Nat) : bitAt false k = 0#64 := by
  simp [bitAt]

@[simp] theorem fieldAt_zero (n k : Nat) : fieldAt (0#n) k = 0#64 := by
  simp [fieldAt]

@[simp] theorem and_three_of_two_bits (a : BitVec 2) : a &&& 3#2 = a := BitVec.and_allOnes

/-- SD reads 1 exactly when FS, XS or VS is dirty (log 16). -/
theorem sdOf_eq (fs xs vecStatus : BitVec 2) :
    sdOf fs xs vecStatus = decide (fs = 3#2 ∨ xs = 3#2 ∨ vecStatus = 3#2) := by
  rw [sdOf, Bool.or_assoc, Bool.decide_or, Bool.decide_or]
  rfl

/-! ## The view (R24(a)) -/

/-- The bits of `mstatus` that `sstatus` shows. -/
def sstatusMask : Mxlen → Word
  | .x64 => 0x80000003000DE762#64
  | .x32 => 0x800DE762#64

/-- The position of SD. -/
def sdBit : Mxlen → Nat
  | .x64 => 63
  | .x32 => 31

/-- The bits of `sstatus` that a write reaches (log 16, 41): SIE, SPIE, SPP, VS, FS, SUM and MXR. -/
def sstatusWritable : List Nat := [1, 5, 8, 9, 10, 13, 14, 18, 19]

/-- Masking `mstatus` keeps or clears each of its fields; those kept are the fields of `sstatus`. -/
theorem sstatusRead_sstatusOf (m : Mxlen) (f : Mstatus) :
    sstatusRead m (sstatusOf f) = mstatusRead m f &&& sstatusMask m := by
  cases m <;>
    simp [sstatusRead, sstatusLow, sstatusOf, sstatusMask, mstatusRead, mstatusRead32, mstatusRead64, mstatusLow,
      BitVec.and_or_distrib_right, bitAt_and, fieldAt_and]

/-- Replacing the fields of `sstatus` leaves every bit outside the mask. -/
theorem mstatusRead_withSstatus_frame (m : Mxlen) (f : Mstatus) (g : Sstatus) :
    mstatusRead m (withSstatus f g) &&& ~~~sstatusMask m = mstatusRead m f &&& ~~~sstatusMask m := by
  cases m <;>
    simp [withSstatus, sstatusMask, mstatusRead, mstatusRead32, mstatusRead64, mstatusLow,
      BitVec.and_or_distrib_right, bitAt_and, fieldAt_and]

/-- `mstatus` with the fields of `sstatus` replaced shows the new ones inside the mask and its own bits outside. -/
theorem getLsbD_mstatusRead_withSstatus (m : Mxlen) (f : Mstatus) (g : Sstatus) (i : Nat) :
    (mstatusRead m (withSstatus f g)).getLsbD i =
      if (sstatusMask m).getLsbD i then (sstatusRead m g).getLsbD i else (mstatusRead m f).getLsbD i := by
  have hview := congrArg (BitVec.getLsbD · i) (sstatusRead_sstatusOf m (withSstatus f g))
  have hframe := congrArg (BitVec.getLsbD · i) (mstatusRead_withSstatus_frame m f g)
  change (sstatusRead m g).getLsbD i = _ at hview
  by_cases hi : i < 64
  · cases hmask : (sstatusMask m).getLsbD i <;> simp_all
  · simp [BitVec.getLsbD_of_ge _ i (Nat.le_of_not_lt hi)]

/-! ## What a write shows -/

/-- Every bit of a read of `sstatus` or `vsstatus`. -/
theorem getLsbD_sstatusRead (m : Mxlen) (g : Sstatus) (i : Nat) :
    (sstatusRead m g).getLsbD i =
      (g.sie && decide (i = 1) || g.spie && decide (i = 5) || g.ube && decide (i = 6) || g.spp && decide (i = 8) ||
        (g.vecStatus.getLsbD 0 && decide (i = 9) || g.vecStatus.getLsbD 1 && decide (i = 10)) ||
        (g.fs.getLsbD 0 && decide (i = 13) || g.fs.getLsbD 1 && decide (i = 14)) ||
        (g.xs.getLsbD 0 && decide (i = 15) || g.xs.getLsbD 1 && decide (i = 16)) ||
        g.sum && decide (i = 18) || g.mxr && decide (i = 19) ||
        decide (m = .x64) && (g.uxl.getLsbD 0 && decide (i = 32) || g.uxl.getLsbD 1 && decide (i = 33)) ||
        sdOf g.fs g.xs g.vecStatus && decide (i = sdBit m)) := by
  cases m <;> simp [sstatusRead, sstatusLow, sdBit, getLsbD_bitAt, getLsbD_fieldAt] <;> rfl

/-- What a write shows, bit by bit. -/
theorem getLsbD_sstatusRead_sstatusWrite (m : Mxlen) (v : Word) (g : Sstatus) (i : Nat) :
    (sstatusRead m (sstatusWrite v g)).getLsbD i =
      if i ∈ sstatusWritable then v.getLsbD i
      else if i = sdBit m then decide (v.extractLsb' 13 2 = 3#2 ∨ g.xs = 3#2 ∨ v.extractLsb' 9 2 = 3#2)
      else (sstatusRead m g).getLsbD i := by
  simp only [getLsbD_sstatusRead, sstatusWrite]
  split_ifs with hi hsd
  · simp only [sstatusWritable, List.mem_cons, List.not_mem_nil, or_false] at hi
    cases m <;> rcases hi with rfl | rfl | rfl | rfl | rfl | rfl | rfl | rfl | rfl <;> simp [sdBit]
  · subst hsd
    rw [← sdOf_eq]
    cases m <;> simp [sdBit]
  · simp only [sstatusWritable, List.mem_cons, List.not_mem_nil, or_false, not_or] at hi
    simp [hi, hsd]

/-- The bits that a write reaches, and SD, are bits that `sstatus` shows. -/
theorem getLsbD_sstatusMask (m : Mxlen) {i : Nat} (h : i ∈ sstatusWritable ∨ i = sdBit m) :
    (sstatusMask m).getLsbD i = true := by
  have hwritable : ∀ k ∈ sstatusWritable, (sstatusMask m).getLsbD k = true := by cases m <;> decide
  obtain h | rfl := h
  · exact hwritable i h
  · cases m <;> decide

/-- What `mstatus` shows after a write of `sstatus`: what `sstatus` shows of it inside the mask, and its old bits outside. -/
theorem getLsbD_csrRead_mstatus_of_sstatus (s : State) (v : Word) (i : Nat) :
    (csrRead .mstatus (csrWrite .sstatus v s)).getLsbD i =
      if i ∈ sstatusWritable then v.getLsbD i
      else if i = sdBit s.cfg.mxlen then decide (v.extractLsb' 13 2 = 3#2 ∨ s.mstatus.xs = 3#2 ∨ v.extractLsb' 9 2 = 3#2)
      else (csrRead .mstatus s).getLsbD i := by
  have hread := getLsbD_mstatusRead_withSstatus s.cfg.mxlen s.mstatus (sstatusWrite v (sstatusOf s.mstatus)) i
  rw [getLsbD_sstatusRead_sstatusWrite] at hread
  refine hread.trans ?_
  split_ifs with hmask hi hsd hi hsd
  · rfl
  · rfl
  · rw [sstatusRead_sstatusOf, BitVec.getLsbD_and, hmask, Bool.and_true]
    rfl
  · exact absurd (getLsbD_sstatusMask _ (.inl hi)) hmask
  · exact absurd (getLsbD_sstatusMask _ (.inr hsd)) hmask
  · rfl

/-! ## The number of `sstatus` (40_csr_access.md R100) -/

/-- At the S level the number of `sstatus` passes its check, and V selects the register. -/
theorem csrCheck_sstatus {s : State} (hp : s.priv = .s) (w : Bool) :
    csrCheck 0x100#12 w s = .ok (csrReached s.v .sstatus) := by
  have hnamed : csrNamed s.cfg 0x100#12 = some .sstatus := rfl
  have hlevel : csrLevel 0x100#12 = 1#2 := by decide
  have hreadOnly : csrReadOnly 0x100#12 = false := by decide
  simp [csrCheck, hnamed, hlevel, hreadOnly, hp, tvmGuards]

/-- Settles O40: the view and the bits a write reaches at either MXLEN, the frames by what a CSR write leaves alone, and the
register that the number of `sstatus` reaches. -/
theorem sstatusIsAViewOfMstatus : Obligations.SstatusIsAViewOfMstatus := by
  intro s v
  refine ⟨?_, ?_, ?_, rfl, fun w hp hv => ?_, fun w hp hv => ?_⟩
  · exact sstatusRead_sstatusOf s.cfg.mxlen s.mstatus
  · rintro t rfl
    exact ⟨getLsbD_csrRead_mstatus_of_sstatus s v, by constructor <;> rfl, x_csrWrite _ v s, byteAt_csrWrite _ v s,
      csrWrite_pc _ v s⟩
  · rintro t rfl
    exact ⟨getLsbD_sstatusRead_sstatusWrite s.cfg.mxlen v s.vsstatus, by constructor <;> rfl, x_csrWrite _ v s,
      byteAt_csrWrite _ v s, csrWrite_pc _ v s⟩
  · rw [csrCheck_sstatus hp, hv]
    rfl
  · rw [csrCheck_sstatus hp, hv]
    rfl

end Sys2Proof.Machine

/-! PROOF. `Translate` (20_memory.md R53 to R63, R68): the effective mode, and what MXR and SUM do at each
stage. -/

namespace Sys2Proof.Machine

/-! ## The effective mode (Table 5.4) -/

/-- Settles O55: each row is the definition of the effective mode at its values of MPRV, MPP and MPV. -/
theorem effectiveModeFollowsTheTable : Obligations.EffectiveModeFollowsTheTable := by
  intro s
  refine ⟨fun h => ?_, fun h hv hp => ?_, fun h hv hp => ?_, fun h hp => ?_, fun h hv hp => ?_, fun h hv hp => ?_,
    fun h hp => ?_, rfl⟩
  · simp [effMode, h, State.mode]
  · simp [effMode, h, hv, hp, privOfBits]
  · simp [effMode, h, hv, hp, privOfBits]
  · simp [effMode, h, hp, privOfBits]
  · simp [effMode, h, hv, hp, privOfBits]
  · simp [effMode, h, hv, hp, privOfBits]
  · have hnone : effMode .ordinary s = none := by simp [effMode, h, hp, privOfBits]
    exact ⟨hnone, fun a => by simp only [ordinaryAccess, hnone]⟩

/-! ## The stages where an entry answers and its walk succeeds -/

/-- Below M-mode `Translate` goes through the two stages with V = 1 and through the single stage with V = 0. -/
theorem translate_below {p : Priv} (hp : p ≠ .m) (s : State) (va : Word) (n : Nat) (kind : AccessKind) (v : Bool) :
    translate s va n kind { p := p, v := v } =
      if v then twoStage s va n kind { p := p, v := v } else oneStage s va n kind { p := p, v := v } := by
  cases p with
  | m => exact absurd rfl hp
  | s => rfl
  | u => rfl

section
variable {s : State} {va : Word} {n : Nat} {kind : AccessKind} {md : Mode} {e : StageEntry}

theorem oneStage_of_walk (he : s.hsEntry va n = some e) (hw : physWalk s va kind md e.walk = none) :
    oneStage s va n kind md =
      if permAllows kind s.mstatus.mxr e.perm && userAllows kind md.p s.mstatus.sum e.perm then
        physical s (e.out + (va - e.base)) va n kind md
      else .error (.fault (addrFault (pageFaultOf kind) va md)) := by
  simp only [oneStage, he, hw]
  rfl

theorem twoStage_of_walk (he : s.vsEntry va n = some e) (hw : vsWalk s va kind md e.walk = none) :
    twoStage s va n kind md =
      if permAllows kind (s.mstatus.mxr || s.vsstatus.mxr) e.perm && userAllows kind md.p s.vsstatus.sum e.perm then
        guestStage s (e.out + (va - e.base)) va n kind md
      else .error (.fault (addrFault (pageFaultOf kind) va md)) := by
  simp only [twoStage, he, hw]
  rfl

theorem guestStage_of_walk {gpa : Word} (he : s.gEntry gpa n = some e) (hw : physWalk s va kind md e.walk = none) :
    guestStage s gpa va n kind md =
      if permAllows kind s.mstatus.mxr e.perm then physical s (e.out + (gpa - e.base)) va n kind md
      else .error (.fault (guestFault kind va gpa false md)) := by
  simp only [guestStage, he, hw]
  rfl

end

/-! ## MXR (R62) -/

/-- Settles O57: where the walks succeed a stage lets the access on exactly when `permAllows` does, with the MXR of that
stage. -/
theorem mxrActsAsTheTableSays : Obligations.MxrActsAsTheTableSays := by
  intro s va n p e hp
  refine ⟨fun g kind he hw hu hg hgw ⟨pa, hpa⟩ => ?_, fun he hw hu ⟨pa, hpa⟩ => ?_⟩
  · have both : (∃ pa, translate s va n kind { p := p, v := true } = .ok pa) ↔
        permAllows kind (s.mstatus.mxr || s.vsstatus.mxr) e.perm = true ∧
          permAllows kind s.mstatus.mxr g.perm = true := by
      rw [translate_below hp, if_pos rfl, twoStage_of_walk he hw, guestStage_of_walk hg hgw, hpa, hu, Bool.and_true]
      split_ifs <;> simp_all
    rw [both]
    cases kind <;> simp [permAllows]
  · rw [translate_below hp, if_neg Bool.false_ne_true, oneStage_of_walk he hw, hpa, hu, Bool.and_true]
    have read : permAllows .read s.mstatus.mxr e.perm = true ↔
        e.perm.r = true ∨ s.mstatus.mxr = true ∧ e.perm.x = true := by simp [permAllows]
    rw [← read]
    split_ifs <;> simp_all

/-! ## SUM (R63) -/

/-- An S-level access touches a user page by SUM only, and never to fetch. -/
theorem userAllows_user_page (kind : AccessKind) (sum : Bool) {q : PagePerm} (h : q.u = true) :
    userAllows kind .s sum q = (sum && kind != .execute) := by
  simp [userAllows, h]

/-- `s` with both SUM bits replaced. -/
def withSums (hsSum vsSum : Bool) (s : State) : State :=
  { s with mstatus := { s.mstatus with sum := hsSum }, vsstatus := { s.vsstatus with sum := vsSum } }

/-- No walk and no guest-physical stage reads a SUM bit. -/
theorem sameWalks_withSums (hsSum vsSum : Bool) (s : State) : SameWalks s (withSums hsSum vsSum s) :=
  ⟨rfl, rfl, rfl, rfl, rfl, fun _ _ => rfl⟩

section
variable (s : State) (va : Word) (n : Nat) (kind : AccessKind) (hsSum vsSum : Bool)

/-- With V = 1 `mstatus.SUM` has no part. -/
theorem translate_withSums_guest {p : Priv} (hp : p ≠ .m) :
    translate (withSums hsSum s.vsstatus.sum s) va n kind { p := p, v := true } =
      translate s va n kind { p := p, v := true } := by
  rw [translate_below hp, translate_below hp]
  exact twoStage_congr (sameWalks_withSums _ _ s) va n kind rfl fun _ => rfl

/-- With V = 0 `vsstatus.SUM` has no part. -/
theorem translate_withSums_host {p : Priv} (hp : p ≠ .m) :
    translate (withSums s.mstatus.sum vsSum s) va n kind { p := p, v := false } =
      translate s va n kind { p := p, v := false } := by
  rw [translate_below hp, translate_below hp]
  exact oneStage_congr (sameWalks_withSums _ _ s) va n kind fun _ => rfl

/-- At the U level neither has. -/
theorem translate_withSums_user (v : Bool) :
    translate (withSums hsSum vsSum s) va n kind { p := .u, v := v } = translate s va n kind { p := .u, v := v } := by
  rw [translate_below (by decide), translate_below (by decide),
    twoStage_congr (sameWalks_withSums hsSum vsSum s) va n kind rfl (fun h => by cases h),
    oneStage_congr (sameWalks_withSums hsSum vsSum s) va n kind (fun h => by cases h)]

end

/-- Settles O58: neither SUM is asked at the other level or below S, and at its own it is what `userAllows` asks of a user
page. -/
theorem sumActsAtItsLevelOnly : Obligations.SumActsAtItsLevelOnly := by
  intro s va n kind p b hp
  have hs : Priv.s ≠ .m := by decide
  refine ⟨translate_withSums_guest s va n kind b hp, translate_withSums_host s va n kind b hp,
    translate_withSums_user s va n kind b b, fun e he hw hup => ⟨fun hsum => ?_, fun hsum hk hperm => ?_⟩,
    fun e he hw hup => ⟨fun hsum => ?_, fun hsum hk hperm => ?_⟩⟩
  · rw [translate_below hs, if_pos rfl, twoStage_of_walk he hw, userAllows_user_page kind _ hup, hsum]
    simp
  · rw [translate_below hs, if_pos rfl, twoStage_of_walk he hw, userAllows_user_page kind _ hup, hsum, hperm]
    simp [hk]
  · rw [translate_below hs, if_neg Bool.false_ne_true, oneStage_of_walk he hw, userAllows_user_page kind _ hup, hsum]
    simp
  · rw [translate_below hs, if_neg Bool.false_ne_true, oneStage_of_walk he hw, userAllows_user_page kind _ hup, hsum, hperm]
    simp [hk]

end Sys2Proof.Machine

/-! PROOF. Which faults `Translate` reports (20_memory.md R68, 60_exceptions.md R162 to R165). -/

namespace Sys2Proof.Machine

section
variable {s : State} {va : Word} {n : Nat} {kind : AccessKind} {md : Mode} {f : MemFault}

/-! ## The faults of each stage -/

theorem physical_fault {pa : Word} (h : physical s pa va n kind md = .error (.fault f)) :
    f = addrFault (accessFaultOf kind) va md := by
  unfold physical at h
  split at h
  · cases h
    rfl
  · split at h
    · cases h
      rfl
    · split at h <;> cases h

/-- A fault of a walk's read is the access fault of the access that the walk is for. -/
theorem physWalk_fault {l : List Word} (h : physWalk s va kind md l = some (.fault f)) :
    f = addrFault (accessFaultOf kind) va md := by
  induction l with
  | nil => cases h
  | cons pa rest ih =>
    rw [physWalk] at h
    split at h
    · exact ih h
    · cases h
    · cases h
      rfl

/-- The guest-physical stage lets no implicit read through at this address. -/
def NoImplicitRead (s : State) (gpa : Word) : Prop := ∀ g, s.gEntry gpa 1 = some g → g.perm.r = false

theorem implicitRead_fault {gpa : Word} (h : implicitRead s gpa va kind md = .error (.fault f)) :
    f = addrFault (accessFaultOf kind) va md ∨ f = guestFault kind va gpa true md ∧ NoImplicitRead s gpa := by
  unfold implicitRead at h
  split at h
  · next hnone =>
    cases h
    exact .inr ⟨rfl, fun g hg => by simp [hnone] at hg⟩
  · next e he =>
    split at h
    · next stop hw =>
      cases h
      exact .inl (physWalk_fault hw)
    · split_ifs at h with hr
      · split at h
        · cases h
        · cases h
        · cases h
          exact .inl rfl
      · cases h
        refine .inr ⟨rfl, fun g hg => ?_⟩
        rw [he] at hg
        cases hg
        exact Bool.eq_false_iff.mpr hr

theorem vsWalk_fault {l : List Word} (h : vsWalk s va kind md l = some (.fault f)) :
    f = addrFault (accessFaultOf kind) va md ∨
      ∃ gpa ∈ l, f = guestFault kind va gpa true md ∧ NoImplicitRead s gpa := by
  induction l with
  | nil => cases h
  | cons gpa rest ih =>
    rw [vsWalk] at h
    split at h
    · exact (ih h).imp_right fun ⟨g, hg, hf⟩ => ⟨g, List.mem_cons_of_mem _ hg, hf⟩
    · next e he =>
      cases h
      exact (implicitRead_fault he).imp_right fun hf => ⟨gpa, List.mem_cons_self, hf⟩

/-- The guest-physical stage does not map these bytes, or does not allow the access. -/
def NoGuestAccess (s : State) (gpa : Word) (n : Nat) (kind : AccessKind) : Prop :=
  ∀ g, s.gEntry gpa n = some g → permAllows kind s.mstatus.mxr g.perm = false

theorem guestStage_fault {gpa : Word} (h : guestStage s gpa va n kind md = .error (.fault f)) :
    f = addrFault (accessFaultOf kind) va md ∨ f = guestFault kind va gpa false md ∧ NoGuestAccess s gpa n kind := by
  cases he : s.gEntry gpa n with
  | none =>
    simp only [guestStage, he] at h
    cases h
    exact .inr ⟨rfl, fun g hg => by simp [he] at hg⟩
  | some e =>
    cases hw : physWalk s va kind md e.walk with
    | some stop =>
      simp only [guestStage, he, hw] at h
      cases h
      exact .inl (physWalk_fault hw)
    | none =>
      rw [guestStage_of_walk he hw] at h
      split_ifs at h with hp
      · exact .inl (physical_fault h)
      · cases h
        refine .inr ⟨rfl, fun g hg => ?_⟩
        rw [he] at hg
        cases hg
        exact Bool.eq_false_iff.mpr hp

theorem oneStage_fault (h : oneStage s va n kind md = .error (.fault f)) :
    f = addrFault (accessFaultOf kind) va md ∨ f = addrFault (pageFaultOf kind) va md := by
  cases he : s.hsEntry va n with
  | none =>
    simp only [oneStage, he] at h
    cases h
    exact .inr rfl
  | some e =>
    cases hw : physWalk s va kind md e.walk with
    | some stop =>
      simp only [oneStage, he, hw] at h
      cases h
      exact .inl (physWalk_fault hw)
    | none =>
      rw [oneStage_of_walk he hw] at h
      split_ifs at h
      · exact .inl (physical_fault h)
      · cases h
        exact .inr rfl

/-- A guest-page fault `f` of an access that the VS-stage entry `e` answers for: of an implicit read of its walk, or of the
guest-physical stage at its output (60_exceptions.md R163, R164). -/
def IsGuestFault (s : State) (va : Word) (n : Nat) (kind : AccessKind) (md : Mode) (e : StageEntry) (f : MemFault) : Prop :=
  (∃ gpa ∈ e.walk, f = guestFault kind va gpa true md ∧ NoImplicitRead s gpa) ∨
    f = guestFault kind va (e.out + (va - e.base)) false md ∧ NoGuestAccess s (e.out + (va - e.base)) n kind

theorem twoStage_fault (h : twoStage s va n kind md = .error (.fault f)) :
    (f = addrFault (accessFaultOf kind) va md ∨ f = addrFault (pageFaultOf kind) va md) ∨
      ∃ e, s.vsEntry va n = some e ∧ IsGuestFault s va n kind md e f := by
  cases he : s.vsEntry va n with
  | none =>
    simp only [twoStage, he] at h
    cases h
    exact .inl (.inr rfl)
  | some e =>
    cases hw : vsWalk s va kind md e.walk with
    | some stop =>
      simp only [twoStage, he, hw] at h
      cases h
      exact (vsWalk_fault hw).imp .inl fun hf => ⟨e, rfl, .inl hf⟩
    | none =>
      rw [twoStage_of_walk he hw] at h
      split_ifs at h
      · exact (guestStage_fault h).imp .inl fun hf => ⟨e, rfl, .inr hf⟩
      · cases h
        exact .inl (.inr rfl)

/-! ## The faults of `Translate` -/

/-- Every fault of `Translate` is an access fault or a page fault about the address, or, with V = 1, a guest-page fault. -/
theorem translate_fault (h : translate s va n kind md = .error (.fault f)) :
    (f = addrFault (accessFaultOf kind) va md ∨ f = addrFault (pageFaultOf kind) va md) ∨
      md.v = true ∧ ∃ e, s.vsEntry va n = some e ∧ IsGuestFault s va n kind md e f := by
  by_cases hp : md.p = .m
  · simp only [translate, hp] at h
    exact .inl (.inl (physical_fault h))
  · rw [show md = { p := md.p, v := md.v } from rfl, translate_below hp] at h
    split_ifs at h with hv
    · exact (twoStage_fault h).imp_right fun hf => ⟨hv, hf⟩
    · exact .inl (oneStage_fault h)

/-- A fault of `Translate` is about the address, a guest's exactly when V = 1. -/
theorem translate_fault_addr (h : translate s va n kind md = .error (.fault f)) : f.tval = va ∧ f.tvalIsGva = md.v := by
  obtain (rfl | rfl) | ⟨-, e, -, ⟨gpa, -, rfl, -⟩ | ⟨rfl, -⟩⟩ := translate_fault h <;> exact ⟨rfl, rfl⟩

end

/-- Settles O59: an access fault or a page fault carries no guest physical address, and a guest-page fault the one that its
stage gives. -/
theorem translationFaultsReportTheirAddresses : Obligations.TranslationFaultsReportTheirAddresses := by
  intro s va n kind md f h
  obtain ⟨htval, hgva⟩ := translate_fault_addr h
  refine ⟨htval, hgva, ?_⟩
  have hguest : excCode (guestPageFaultOf kind) ∈ [20, 21, 23] := by cases kind <;> decide
  obtain (rfl | rfl) | ⟨hv, e, he, ⟨gpa, hgpa, rfl, hno⟩ | ⟨rfl, hno⟩⟩ := translate_fault h
  · cases kind <;> simp [addrFault, accessFaultOf, excCode]
  · cases kind <;> simp [addrFault, pageFaultOf, excCode]
  · refine ⟨?_, absurd hguest, fun _ => ⟨hv, e, gpa, he, rfl, hgpa, hno⟩⟩
    cases kind <;> simp [guestFault, guestPageFaultOf, excCode]
  · refine ⟨?_, absurd hguest, fun _ => ⟨hv, e, _, he, rfl, rfl, hno⟩⟩
    cases kind <;> simp [guestFault, guestPageFaultOf, excCode]

end Sys2Proof.Machine

/-! PROOF. What a step, an instruction and a store leave unchanged, and what no instruction is refused for
(20_memory.md R59, R65, R66, R74). -/

namespace Sys2Proof.Machine

/-! ## The parameters (00_scope.md section 5, section 6) -/

@[simp] theorem csrDone_cfg (rd : RegIdx) (writes : Bool) (new : Word → Word) (r : Csr) (s : State) :
    (csrDone rd writes new r s).cfg = s.cfg := by
  cases writes <;> simp [csrDone]

@[simp] theorem csrDone_trans (rd : RegIdx) (writes : Bool) (new : Word → Word) (r : Csr) (s : State) :
    (csrDone rd writes new r s).trans = s.trans := by
  cases writes <;> simp [csrDone]

/-- The hart writes neither a parameter nor the data of `Translate`. -/
theorem HartShape.parameters {s t : State} (h : HartShape s t) : t.cfg = s.cfg ∧ t.trans = s.trans := by
  cases h <;> simp

/-- Settles O9: no shape of the hart's next state changes a parameter, and of the environment's events only that of
translation does. -/
theorem stepKeepsTheParameters : Obligations.StepKeepsTheParameters := by
  intro s t h
  obtain ⟨es, hshape | ⟨bits, rfl⟩ | ⟨tr, henv, rfl⟩⟩ := step_shape h
  · obtain ⟨hcfg, htrans⟩ := hshape.parameters
    exact ⟨hcfg, .inl htrans⟩
  · exact ⟨rfl, .inl rfl⟩
  · exact ⟨rfl, .inr ⟨tr, es, henv, rfl⟩⟩

/-! ## The forms of an instruction -/

/-- An instruction accesses a CSR or virtual-machine memory, or is MRET or a fence. -/
theorem instr_forms (i : Instr) :
    (∃ n w, csrOf i = some (n, w)) ∨ (∃ rs1 n kind, hypOf i = some (rs1, n, kind)) ∨ i = .mret ∨
      (∃ rs1 rs2, i = .hfenceVvma rs1 rs2) ∨ ∃ rs1 rs2, i = .hfenceGvma rs1 rs2 := by
  cases i <;> simp [csrOf, hypOf]

/-- An HLV or HLVX that answers a next state has raised, or is its load. -/
theorem hypLoad_next {i : Instr} {rd rs1 : RegIdx} {n : Width} {signed : Bool} {kind : AccessKind} {s t : State}
    (h : hypLoad i rd rs1 n signed kind s = .next t) :
    (∃ tr, t = enterM tr s) ∨ load rd (s.x rs1) n signed (hypMode s) kind s = .next t := by
  unfold hypLoad at h
  split at h
  · split at h
    · exact .inl ⟨_, (raiseInstr_next h).2⟩
    · exact .inr h
  · exact .inl ⟨_, (raiseInstr_next h).2⟩

/-- An HSV that answers a next state has raised, or is its store. -/
theorem hypStore_next {i : Instr} {rs2 rs1 : RegIdx} {n : Width} {s t : State}
    (h : hypStore i rs2 rs1 n s = .next t) :
    (∃ tr, t = enterM tr s) ∨ store (s.x rs1) n (s.x rs2) (hypMode s) s = .next t := by
  unfold hypStore at h
  split at h
  · split at h
    · exact .inl ⟨_, (raiseInstr_next h).2⟩
    · exact .inr h
  · exact .inl ⟨_, (raiseInstr_next h).2⟩

/-! ## MPP = 2 (R59, 41_mret.md R120) -/

/-- The result is not the refusal of MPP = 2. -/
def MppMet (r : Result) : Prop := r ≠ .refused .reservedMpp

theorem mppMet_next (t : State) : MppMet (.next t) := nofun

theorem mppMet_takeTrap (tr : Trap) (s : State) : MppMet (takeTrap tr s) := by
  unfold takeTrap
  split <;> exact nofun

theorem mppMet_raiseInstr (e : Exc) (ir : InstrWord) (s : State) : MppMet (raiseInstr e ir s) := mppMet_takeTrap _ s

theorem mppMet_stopResult (e : AccessStop) (s : State) : MppMet (stopResult e s) := by
  cases e with
  | fault f => exact mppMet_takeTrap _ s
  | device => exact nofun

theorem mppMet_load (rd : RegIdx) (va : Word) (n : Width) (signed : Bool) (md : Mode) (kind : AccessKind) (s : State) :
    MppMet (load rd va n signed md kind s) := by
  unfold load
  split
  · exact mppMet_next _
  · exact mppMet_stopResult _ s

theorem mppMet_store (va : Word) (n : Width) (value : Word) (md : Mode) (s : State) :
    MppMet (store va n value md s) := by
  unfold store
  split
  · exact mppMet_next _
  · exact mppMet_stopResult _ _

theorem mppMet_hypLoad (i : Instr) (rd rs1 : RegIdx) (n : Width) (signed : Bool) (kind : AccessKind) (s : State) :
    MppMet (hypLoad i rd rs1 n signed kind s) := by
  unfold hypLoad
  split
  · split
    · exact mppMet_raiseInstr _ _ s
    · exact mppMet_load _ _ _ _ _ _ s
  · exact mppMet_raiseInstr _ _ s

theorem mppMet_hypStore (i : Instr) (rs2 rs1 : RegIdx) (n : Width) (s : State) : MppMet (hypStore i rs2 rs1 n s) := by
  unfold hypStore
  split
  · split
    · exact mppMet_raiseInstr _ _ s
    · exact mppMet_store _ _ _ _ s
  · exact mppMet_raiseInstr _ _ s

theorem mppMet_csrAccess (i : Instr) (n : CsrNum) (rd : RegIdx) (writes : Bool) (new : Word → Word) (s : State) :
    MppMet (csrAccess i n rd writes new s) := by
  unfold csrAccess
  split
  · exact mppMet_raiseInstr _ _ s
  · exact nofun
  · exact mppMet_next _

theorem mppMet_execHfenceVvma (rs1 rs2 : RegIdx) (s : State) : MppMet (execHfenceVvma rs1 rs2 s) := by
  unfold execHfenceVvma
  split
  · exact mppMet_raiseInstr _ _ s
  · exact mppMet_next _

theorem mppMet_execHfenceGvma (rs1 rs2 : RegIdx) (s : State) : MppMet (execHfenceGvma rs1 rs2 s) := by
  unfold execHfenceGvma
  split
  · exact mppMet_raiseInstr _ _ s
  · split
    · exact mppMet_raiseInstr _ _ s
    · exact mppMet_next _

/-- Every value of MPP but 2 names a privilege level (10_state.md R17). -/
theorem privOfBits_of_ne_two {b : BitVec 2} (h : b ≠ 2#2) : ∃ p, privOfBits b = some p := by
  have hsome : ∀ b : BitVec 2, b ≠ 2#2 → (privOfBits b).isSome = true := by decide
  exact Option.isSome_iff_exists.mp (hsome b h)

theorem mppMet_execMret {s : State} (h : MppLegal s) : MppMet (execMret s) := by
  obtain ⟨p, hp⟩ := privOfBits_of_ne_two h
  unfold execMret
  rw [hp]
  split
  · exact mppMet_next _
  · exact mppMet_raiseInstr _ _ s

theorem effMode_of_mppLegal {s : State} (h : MppLegal s) : ∃ md, effMode .ordinary s = some md := by
  obtain ⟨p, hp⟩ := privOfBits_of_ne_two h
  cases hprv : s.mstatus.mprv with
  | false => exact ⟨s.mode, by simp [effMode, hprv]⟩
  | true => cases p <;> simp [effMode, hprv, hp]

theorem mppMet_ordinaryAccess {s : State} (h : MppLegal s) (a : OrdinaryAccess) : MppMet (ordinaryAccess a s) := by
  obtain ⟨md, hmd⟩ := effMode_of_mppLegal h
  unfold ordinaryAccess
  simp only [hmd]
  split
  · exact mppMet_store _ _ _ _ s
  · exact mppMet_load _ _ _ _ _ _ s

/-- Settles O10: only MRET and an ordinary access look at MPP, and the invariant has it legal. -/
theorem reservedMppIsNeverMet : Obligations.ReservedMppIsNeverMet := by
  intro s i hinv
  refine ⟨?_, mppMet_ordinaryAccess hinv.mppLegal⟩
  obtain ⟨n, w, hi⟩ | ⟨rs1, n, kind, hi⟩ | rfl | ⟨rs1, rs2, rfl⟩ | ⟨rs1, rs2, rfl⟩ := instr_forms i
  · obtain ⟨rd, new, he⟩ := exec_of_csrOf hi
    rw [he]
    exact mppMet_csrAccess _ _ _ _ _ s
  · obtain ⟨rd, signed, -, he⟩ | ⟨rs2, -, -, he⟩ := exec_of_hypOf hi <;> rw [he]
    · exact mppMet_hypLoad _ _ _ _ _ _ s
    · exact mppMet_hypStore _ _ _ _ s
  · rw [exec_mret]
    exact mppMet_execMret hinv.mppLegal
  · rw [exec_hfenceVvma]
    exact mppMet_execHfenceVvma _ _ s
  · rw [exec_hfenceGvma]
    exact mppMet_execHfenceGvma _ _ s

/-! ## Memory and the general registers (R65, R66, R74) -/

theorem sameRegs_of_eq {s t : State} (hr : t.regs = s.regs) (hc : t.cfg = s.cfg) : SameRegs s t := x_congr hr hc

theorem sameRegs_enterM (tr : Trap) (s : State) : SameRegs s (enterM tr s) := x_enterM s tr

theorem sameMemory_enterM (tr : Trap) (s : State) : SameMemory s (enterM tr s) := byteAt_enterM s tr

theorem sameRegs_memWrite (s : State) (va : Word) (n : Width) (value : Word) (md : Mode) :
    SameRegs s (memWrite s va n value md).1 := by
  obtain ⟨m, st, e⟩ := memWrite_shape s va n value md
  rw [e]
  exact x_withMem s m st

/-- A store changes no byte outside its targets and no register, whether it completes or stops. -/
theorem store_frame {va : Word} {n : Width} {value : Word} {md : Mode} {s t : State}
    (h : store va n value md s = .next t) :
    SameRegs s t ∧ ∀ a, a ∉ storeTargets s va n value md → t.byteAt a = s.byteAt a := by
  have hregs := sameRegs_memWrite s va n value md
  have hbytes := byteAt_memWrite s va n value md
  obtain ⟨-, rfl⟩ | ⟨f, -, rfl⟩ := store_next h
  · exact ⟨fun i => (x_drawOrder _ va n i).trans (hregs i), fun a ha => (byteAt_drawOrder _ va n a).trans (hbytes a ha)⟩
  · exact ⟨hregs, hbytes⟩

/-- So does an HSV, which may raise before its store. -/
theorem hypStore_frame {i : Instr} {rs2 rs1 : RegIdx} {n : Width} {s t : State}
    (h : hypStore i rs2 rs1 n s = .next t) :
    SameRegs s t ∧ ∀ a, a ∉ storeTargets s (s.x rs1) n (s.x rs2) (hypMode s) → t.byteAt a = s.byteAt a := by
  obtain ⟨tr, rfl⟩ | hs := hypStore_next h
  · exact ⟨sameRegs_enterM tr s, fun a _ => sameMemory_enterM tr s a⟩
  · exact store_frame hs

/-- Settles O50: each HSV is one store of its width. -/
theorem storesChangeOnlyTheirTargets : Obligations.StoresChangeOnlyTheirTargets := by
  intro s t rs2 rs1
  rw [exec_hsvB, exec_hsvH, exec_hsvW, exec_hsvD]
  exact ⟨hypStore_frame, hypStore_frame, hypStore_frame, hypStore_frame⟩

theorem sameMemory_csrDone (rd : RegIdx) (writes : Bool) (new : Word → Word) (r : Csr) (s : State) :
    SameMemory s (csrDone rd writes new r s) := by
  intro a
  cases writes <;> simp [csrDone]

theorem sameMemory_csrAccess {i : Instr} {n : CsrNum} {rd : RegIdx} {writes : Bool} {new : Word → Word} {s t : State}
    (h : csrAccess i n rd writes new s = .next t) : SameMemory s t := by
  obtain ⟨e, -, rfl⟩ | ⟨r, -, rfl⟩ := csrAccess_next h
  · exact sameMemory_enterM _ s
  · exact sameMemory_csrDone _ _ _ _ s

theorem sameMemory_load {rd : RegIdx} {va : Word} {n : Width} {signed : Bool} {md : Mode} {kind : AccessKind}
    {s t : State} (h : load rd va n signed md kind s = .next t) : SameMemory s t := by
  obtain ⟨value, -, rfl⟩ | ⟨f, -, rfl⟩ := load_next h
  · intro a
    simp
  · exact sameMemory_enterM _ s

theorem sameMemory_execMret {s t : State} (h : execMret s = .next t) : SameMemory s t := by
  unfold execMret at h
  split at h
  · split at h <;> cases h
    exact fun _ => rfl
  · obtain ⟨-, rfl⟩ := raiseInstr_next h
    exact sameMemory_enterM _ s

theorem sameMemory_execHfenceVvma {rs1 rs2 : RegIdx} {s t : State} (h : execHfenceVvma rs1 rs2 s = .next t) :
    SameMemory s t := by
  unfold execHfenceVvma at h
  split at h
  · obtain ⟨-, rfl⟩ := raiseInstr_next h
    exact sameMemory_enterM _ s
  · cases h
    exact fun _ => rfl

theorem sameMemory_execHfenceGvma {rs1 rs2 : RegIdx} {s t : State} (h : execHfenceGvma rs1 rs2 s = .next t) :
    SameMemory s t := by
  unfold execHfenceGvma at h
  split at h
  · obtain ⟨-, rfl⟩ := raiseInstr_next h
    exact sameMemory_enterM _ s
  · split at h
    · obtain ⟨-, rfl⟩ := raiseInstr_next h
      exact sameMemory_enterM _ s
    · cases h
      exact fun _ => rfl

/-- An instruction that stores no register leaves memory as it is. -/
theorem exec_sameMemory {i : Instr} {s t : State} (hi : storeSource i = none) (h : exec i s = .next t) :
    SameMemory s t := by
  obtain ⟨n, w, hf⟩ | ⟨rs1, n, kind, hf⟩ | rfl | ⟨rs1, rs2, rfl⟩ | ⟨rs1, rs2, rfl⟩ := instr_forms i
  · obtain ⟨rd, new, he⟩ := exec_of_csrOf hf
    rw [he] at h
    exact sameMemory_csrAccess h
  · obtain ⟨rd, signed, -, he⟩ | ⟨rs2, -, hsrc, -⟩ := exec_of_hypOf hf
    · rw [he] at h
      obtain ⟨tr, rfl⟩ | hl := hypLoad_next h
      · exact sameMemory_enterM tr s
      · exact sameMemory_load hl
    · rw [hi] at hsrc
      cases hsrc
  · rw [exec_mret] at h
    exact sameMemory_execMret h
  · rw [exec_hfenceVvma] at h
    exact sameMemory_execHfenceVvma h
  · rw [exec_hfenceGvma] at h
    exact sameMemory_execHfenceGvma h

/-- The instructions that store a register are the four HSV. -/
theorem storeSource_eq_none {i : Instr}
    (h : ∀ rs2 rs1, i ≠ .hsvB rs2 rs1 ∧ i ≠ .hsvH rs2 rs1 ∧ i ≠ .hsvW rs2 rs1 ∧ i ≠ .hsvD rs2 rs1) :
    storeSource i = none := by
  cases i with
  | hsvB rs2 rs1 => exact absurd rfl (h rs2 rs1).1
  | hsvH rs2 rs1 => exact absurd rfl (h rs2 rs1).2.1
  | hsvW rs2 rs1 => exact absurd rfl (h rs2 rs1).2.2.1
  | hsvD rs2 rs1 => exact absurd rfl (h rs2 rs1).2.2.2
  | _ => rfl

@[simp] theorem csrDone_mode (rd : RegIdx) (writes : Bool) (new : Word → Word) (r : Csr) (s : State) :
    (csrDone rd writes new r s).mode = s.mode := by
  cases writes <;> simp [csrDone, State.mode]

/-- The mode changes only where no general register does: at a trap and at a return. -/
theorem HartShape.mode_or_regs {s t : State} (h : HartShape s t) : t.mode = s.mode ∨ SameRegs s t := by
  cases h with
  | trap => exact .inr fun _ => rfl
  | ret => exact .inr fun _ => rfl
  | csr => exact .inl (csrDone_mode _ _ _ _ s)
  | fence => exact .inl rfl
  | load => exact .inl (by simp [State.mode])
  | store => exact .inl (by simp [State.mode])

/-- Settles O51: an instruction other than an HSV stores nothing, and each of the hart's shapes changes the mode or a general
register, never both. -/
theorem onlyHsvChangesMemory : Obligations.OnlyHsvChangesMemory := by
  intro i s t h
  exact ⟨fun hi => exec_sameMemory (storeSource_eq_none hi) h,
    fun _ hmode => (exec_shape h).mode_or_regs.resolve_left hmode⟩

end Sys2Proof.Machine

/-! PROOF. A fetch and a virtual-machine access do not depend on MPRV, MPP and MPV (20_memory.md R60, R61), and a fetch of a
stored byte stops (20_memory.md R72). -/

namespace Sys2Proof.Machine

/-- `s` with MPRV, MPV and MPP replaced. -/
def withMprv (mprv mpv : Bool) (mpp : BitVec 2) (s : State) : State :=
  { s with mstatus := { s.mstatus with mprv := mprv, mpv := mpv, mpp := mpp } }

section
variable (mprv mpv : Bool) (mpp : BitVec 2) (s : State)

/-! ## What reads none of the three -/

theorem translate_withMprv (va : Word) (n : Nat) (kind : AccessKind) (md : Mode) :
    translate (withMprv mprv mpv mpp s) va n kind md = translate s va n kind md :=
  translate_congr (s := s) (t := withMprv mprv mpv mpp s) ⟨⟨rfl, rfl, rfl, rfl, rfl, fun _ _ => rfl⟩, rfl, rfl, rfl⟩
    va n kind md

theorem bigEndian_withMprv (md : Mode) : bigEndian md (withMprv mprv mpv mpp s) = bigEndian md s := bigEndian_congr rfl md

/-! ## Fetch -/

theorem fetchParcel_withMprv (k len : Nat) : fetchParcel (withMprv mprv mpv mpp s) k len = fetchParcel s k len := by
  unfold fetchParcel
  rw [translate_withMprv]
  rfl

theorem fetch_withMprv : fetch (withMprv mprv mpv mpp s) = fetch s := by
  unfold fetch
  simp only [fetchParcel_withMprv]
  rfl

/-! ## Loads and stores -/

theorem readPortions_withMprv (va : Word) (kind : AccessKind) (md : Mode) (l : List (Nat × Nat)) :
    readPortions (withMprv mprv mpv mpp s) va kind md l = readPortions s va kind md l := by
  induction l with
  | nil => rfl
  | cons q rest ih =>
    obtain ⟨k, len⟩ := q
    rw [readPortions, readPortions, translate_withMprv, ih]
    rfl

theorem memRead_withMprv (va : Word) (n : Width) (md : Mode) (kind : AccessKind) :
    memRead (withMprv mprv mpv mpp s) va n md kind = memRead s va n md kind := by
  unfold memRead
  rw [readPortions_withMprv, bigEndian_withMprv]
  rfl

theorem storePortion_withMprv (big : Bool) (n : Nat) (value pa : Word) (k len : Nat) :
    storePortion big n value pa k len (withMprv mprv mpv mpp s) =
      withMprv mprv mpv mpp (storePortion big n value pa k len s) := by
  induction len with
  | zero => rfl
  | succ j ih =>
    rw [storePortion, ih]
    rfl

theorem writePortions_withMprv (va : Word) (n : Width) (value : Word) (md : Mode) (l : List (Nat × Nat)) :
    writePortions va n value md l (withMprv mprv mpv mpp s) =
      (withMprv mprv mpv mpp (writePortions va n value md l s).1, (writePortions va n value md l s).2) := by
  induction l generalizing s with
  | nil => rfl
  | cons q rest ih =>
    obtain ⟨k, len⟩ := q
    have haddr : portionAddr (withMprv mprv mpv mpp s) va k = portionAddr s va k := rfl
    rw [writePortions, writePortions, haddr, translate_withMprv, bigEndian_withMprv]
    cases translate s (portionAddr s va k) len .write md with
    | error e => rfl
    | ok pa =>
      simp only
      rw [storePortion_withMprv]
      exact ih _

theorem memWrite_withMprv (va : Word) (n : Width) (value : Word) (md : Mode) :
    memWrite (withMprv mprv mpv mpp s) va n value md =
      (withMprv mprv mpv mpp (memWrite s va n value md).1, (memWrite s va n value md).2) := by
  have htraps : misalignedTraps (withMprv mprv mpv mpp s) va n = misalignedTraps s va n := rfl
  unfold memWrite
  rw [htraps, writePortions_withMprv]
  split <;> rfl

theorem setX_withMprv (i : RegIdx) (a : Word) :
    (withMprv mprv mpv mpp s).setX i a = withMprv mprv mpv mpp (s.setX i a) := by
  unfold State.setX
  split <;> rfl

theorem drawOrder_withMprv (va : Word) (n : Width) :
    drawOrder va n (withMprv mprv mpv mpp s) = withMprv mprv mpv mpp (drawOrder va n s) := by
  unfold drawOrder
  split <;> rfl

/-- A trap overwrites MPV and MPP and keeps MPRV. -/
theorem enterM_withMprv (tr : Trap) :
    enterM tr (withMprv mprv mpv mpp s) = withMprv mprv s.v (privBits s.priv) (enterM tr s) := rfl

end

/-! ## The results that differ in these three fields only -/

/-- Where the first answers a next state, the second answers one that differs from it in MPRV, MPV and MPP only. -/
def MprvApart (r r' : Result) : Prop :=
  ∀ t, r = .next t → ∃ mprv mpv mpp, r' = .next (withMprv mprv mpv mpp t)

section
variable (mprv mpv : Bool) (mpp : BitVec 2) (s : State)

theorem takeTrap_mprvApart (tr : Trap) : MprvApart (takeTrap tr s) (takeTrap tr (withMprv mprv mpv mpp s)) := by
  intro t h
  obtain ⟨htarget, rfl⟩ := takeTrap_next h
  have htarget' : trapTarget tr (withMprv mprv mpv mpp s) = .m := htarget
  exact ⟨_, _, _, by rw [takeTrap_of_target htarget', enterM_withMprv]⟩

theorem raiseInstr_mprvApart (e : Exc) (ir : InstrWord) :
    MprvApart (raiseInstr e ir s) (raiseInstr e ir (withMprv mprv mpv mpp s)) :=
  takeTrap_mprvApart mprv mpv mpp s (instrTrap e ir s)

theorem stopResult_mprvApart (e : AccessStop) :
    MprvApart (stopResult e s) (stopResult e (withMprv mprv mpv mpp s)) := by
  cases e with
  | fault f => exact takeTrap_mprvApart mprv mpv mpp s (faultTrap f s)
  | device =>
    intro t h
    cases h

theorem load_mprvApart (rd : RegIdx) (va : Word) (n : Width) (signed : Bool) (md : Mode) (kind : AccessKind) :
    MprvApart (load rd va n signed md kind s) (load rd va n signed md kind (withMprv mprv mpv mpp s)) := by
  unfold load
  rw [memRead_withMprv]
  cases memRead s va n md kind with
  | error e => exact stopResult_mprvApart mprv mpv mpp s e
  | ok value =>
    intro t h
    cases h
    simp only [drawOrder_withMprv, setX_withMprv]
    exact ⟨_, _, _, rfl⟩

theorem store_mprvApart (va : Word) (n : Width) (value : Word) (md : Mode) :
    MprvApart (store va n value md s) (store va n value md (withMprv mprv mpv mpp s)) := by
  unfold store
  rw [memWrite_withMprv]
  obtain ⟨u, stop⟩ := memWrite s va n value md
  cases stop with
  | some e => exact stopResult_mprvApart mprv mpv mpp u e
  | none =>
    intro t h
    cases h
    simp only [drawOrder_withMprv]
    exact ⟨_, _, _, rfl⟩

theorem hypLoad_mprvApart (i : Instr) (rd rs1 : RegIdx) (n : Width) (signed : Bool) (kind : AccessKind) :
    MprvApart (hypLoad i rd rs1 n signed kind s) (hypLoad i rd rs1 n signed kind (withMprv mprv mpv mpp s)) := by
  have hcheck : hypCheck (withMprv mprv mpv mpp s) = hypCheck s := rfl
  have hcfg : (withMprv mprv mpv mpp s).cfg = s.cfg := rfl
  unfold hypLoad
  rw [hcheck, hcfg]
  split
  · split
    · exact raiseInstr_mprvApart mprv mpv mpp s _ _
    · exact load_mprvApart mprv mpv mpp s _ _ _ _ _ _
  · exact raiseInstr_mprvApart mprv mpv mpp s _ _

theorem hypStore_mprvApart (i : Instr) (rs2 rs1 : RegIdx) (n : Width) :
    MprvApart (hypStore i rs2 rs1 n s) (hypStore i rs2 rs1 n (withMprv mprv mpv mpp s)) := by
  have hcheck : hypCheck (withMprv mprv mpv mpp s) = hypCheck s := rfl
  have hcfg : (withMprv mprv mpv mpp s).cfg = s.cfg := rfl
  unfold hypStore
  rw [hcheck, hcfg]
  split
  · split
    · exact raiseInstr_mprvApart mprv mpv mpp s _ _
    · exact store_mprvApart mprv mpv mpp s _ _ _ _
  · exact raiseInstr_mprvApart mprv mpv mpp s _ _

end

/-- Settles O56: the access runs the same with the three fields replaced, and what it leaves differs in them alone. -/
theorem hypervisorAccessesIgnoreMprv : Obligations.HypervisorAccessesIgnoreMprv := by
  rintro i ⟨rs1, n, kind⟩ s _ t mprv mpv mpp hi rfl h
  have hapart : MprvApart (exec i s) (exec i (withMprv mprv mpv mpp s)) := by
    obtain ⟨rd, signed, -, he⟩ | ⟨rs2, -, -, he⟩ := exec_of_hypOf hi <;> rw [he, he]
    · exact hypLoad_mprvApart mprv mpv mpp s _ _ _ _ _ _
    · exact hypStore_mprvApart mprv mpv mpp s _ _ _ _
  obtain ⟨a, b, c, ht⟩ := hapart t h
  exact ⟨withMprv a b c t, ht, fun _ => rfl, fun _ => rfl, rfl, rfl, rfl, rfl, rfl, rfl, rfl⟩

/-- Settles O13: neither the mode of a fetch nor its translation reads one of the three. -/
theorem fetchIgnoresMprv : Obligations.FetchIgnoresMprv := fun s mprv mpv mpp => fetch_withMprv mprv mpv mpp s

/-! ## A fetch of a stored byte (R72) -/

/-- A parcel that holds a stored byte is not read. -/
theorem fetchParcel_of_stored {s : State} {k len j : Nat} {pa : Word}
    (h : translate s (portionAddr s s.pc k) len .execute s.mode = .ok pa) (hj : j < len)
    (hst : physByte pa j ∈ s.stored) : fetchParcel s k len = .error .storedByte := by
  have hany : ((List.range len).any fun j => s.stored.contains (physByte pa j)) = true :=
    List.any_eq_true.mpr ⟨j, List.mem_range.mpr hj, List.contains_iff_mem.mpr hst⟩
  simp only [fetchParcel, fetchMode, h, hany, if_true]

/-- A parcel without one lies where `Translate` says. -/
theorem fetchParcel_of_unstored {s : State} {k len : Nat} {pa : Word}
    (h : translate s (portionAddr s s.pc k) len .execute s.mode = .ok pa)
    (hst : ∀ i < len, physByte pa i ∉ s.stored) : fetchParcel s k len = .ok pa := by
  have hany : ((List.range len).any fun j => s.stored.contains (physByte pa j)) = false := by
    simpa [List.any_eq_false] using hst
  simp only [fetchParcel, fetchMode, h, hany, Bool.false_eq_true, if_false]

/-- Settles O14: the parcel that holds the byte ends the fetch, the first one or the second. -/
theorem fetchOfAStoredByteStops : Obligations.FetchOfAStoredByteStops := by
  intro s pa j henv hint
  have hstep : fetch s = .storedByte → step s = .fault .fetchOfStoredByte := fun hf => by
    simp only [step, henv, hartStep, hint, runInstr, hf]
  refine ⟨fun hvl hpa hj hst => hstep ?_, fun hvl hpa hj => ⟨fun hst => hstep ?_, fun pb hfirst hlow hmid hpb hst =>
    hstep ?_⟩⟩
  · simp [fetch, hvl, fetchParcel_of_stored (k := 0) hpa hj hst]
  · simp [fetch, hvl, fetchParcel_of_stored (k := 0) hpa hj hst]
  · have hannounce : announces32 (s.byteAt (physByte pa 0)) = true := by simp [announces32, hlow, hmid]
    simp [fetch, hvl, fetchParcel_of_unstored (k := 0) hpa hfirst, hannounce, fetchParcel_of_stored (k := 2) hpb hj hst]

end Sys2Proof.Machine

/-! PROOF. What a load and a store leave, completed, trapped whole or trapped in the middle (20_memory.md R64, R65, R74;
60_exceptions.md R162 to R169). -/

namespace Sys2Proof.Machine

/-! ## Traps into M-mode -/

/-- An exception that is not delegated, or is raised in M-mode, goes to M-mode (R160, R176). -/
theorem trapTarget_of_undelegated {tr : Trap} {s : State} (hi : tr.isInterrupt = false)
    (h : tr.code ∉ s.cfg.medeleg ∨ s.priv = .m) : trapTarget tr s = .m := by
  obtain h | h := h
  · simp [trapTarget, hi, h]
  · exact trapTarget_of_m h hi

/-- `mtval2` receives 0 or the trap's guest physical address shifted right by 2 (R163). -/
theorem mtval2Of_cases (c : Config) (tr : Trap) (d : Nat) :
    mtval2Of c tr d = 0#64 ∨ ∃ g, tr.gpa = some g ∧ mtval2Of c tr d = g >>> 2 := by
  unfold mtval2Of
  split
  · split
    · next g hg =>
      split
      · exact .inr ⟨g, hg, rfl⟩
      · exact .inl rfl
    · exact .inl rfl
  · exact .inl rfl

theorem entryEffect_enterM (tr : Trap) (s : State) : EntryEffect tr s (enterM tr s) where
  priv := rfl
  v := rfl
  mepc := rfl
  mcause := by
    rw [enterM_mcause, mcauseOf]
    split <;> simp
  mtval := rfl
  mpie := rfl
  mie := rfl
  pc := rfl
  regs := sameRegs_enterM tr s
  memory := sameMemory_enterM tr s

theorem raiseEffect_enterM (tr : Trap) (s : State) : RaiseEffect tr s (enterM tr s) where
  entry := entryEffect_enterM tr s
  mpv := rfl
  mpp := privOfBits_privBits s.priv
  gva := rfl

/-- The trap of a fault about an XLEN-bit address has the effect of that fault. -/
theorem faultEffect_enterM {f : MemFault} {va : Word} {s : State} (htval : f.tval = va)
    (hva : xlenCut s.cfg.mxlen va = va) :
    FaultEffect (faultTrap f s) (excCode f.exc) va f.tvalIsGva f.gpa s (enterM (faultTrap f s) s) where
  raised := raiseEffect_enterM _ s
  exception := rfl
  code := rfl
  epc := rfl
  mtval := by rw [enterM_mtval, faultTrap, htval, hva]
  gva hrule := by simp only [enterM_mstatus, mstatusTrap_gva, gvaOf, hrule, faultTrap]
  mtval2 := mtval2Of_cases s.cfg (faultTrap f s) s.draws

/-- An access that stops with a fault that goes to M-mode takes its trap. -/
theorem stopResult_fault {f : MemFault} {va : Word} {s : State} (htval : f.tval = va)
    (hva : xlenCut s.cfg.mxlen va = va) (htarget : excCode f.exc ∉ s.cfg.medeleg ∨ s.priv = .m) :
    ∃ t tr, stopResult (.fault f) s = .next t ∧ FaultEffect tr (excCode f.exc) va f.tvalIsGva f.gpa s t :=
  ⟨_, _, takeTrap_of_target (trapTarget_of_undelegated rfl htarget), faultEffect_enterM htval hva⟩

theorem load_of_stop {rd : RegIdx} {va : Word} {n : Width} {signed : Bool} {md : Mode} {kind : AccessKind} {s : State}
    {e : AccessStop} (h : memRead s va n md kind = .error e) : load rd va n signed md kind s = stopResult e s := by
  simp only [load, h]

theorem store_of_stop {va : Word} {n : Width} {value : Word} {md : Mode} {s u : State} {e : AccessStop}
    (h : memWrite s va n value md = (u, some e)) : store va n value md s = stopResult e u := by
  simp only [store, h]

/-! ## Accesses that stop as a whole -/

theorem aligned_eq_true {va : Word} {n : Width} (h : va.toNat % widthBytes n = 0) : aligned va n = true := by
  simp [aligned, h]

theorem aligned_eq_false {va : Word} {n : Width} (h : va.toNat % widthBytes n ≠ 0) : aligned va n = false := by
  simp [aligned, h]

section
variable {s : State} {va : Word} {n : Width} {md : Mode} {kind : AccessKind}

/-- An aligned load is one portion. -/
theorem memRead_of_aligned_stop {e : AccessStop} (hva : xlenCut s.cfg.mxlen va = va) (hal : va.toNat % widthBytes n = 0)
    (h : translate s va (widthBytes n) kind md = .error e) : memRead s va n md kind = .error e := by
  simp [memRead, misalignedTraps, portions, aligned_eq_true hal, readPortions, portionAddr_zero s hva, h]

/-- An aligned store is one portion: nothing is written before it stops. -/
theorem memWrite_of_aligned_stop {e : AccessStop} (value : Word) (hva : xlenCut s.cfg.mxlen va = va)
    (hal : va.toNat % widthBytes n = 0) (h : translate s va (widthBytes n) .write md = .error e) :
    memWrite s va n value md = (s, some e) := by
  simp [memWrite, misalignedTraps, portions, aligned_eq_true hal, writePortions, portionAddr_zero s hva, h]

theorem memRead_of_misaligned (hmis : va.toNat % widthBytes n ≠ 0) (hpolicy : s.cfg.misaligned = .trap) :
    memRead s va n md kind = .error (.fault (addrFault (misalignedOf kind) va md)) := by
  simp [memRead, misalignedTraps, aligned_eq_false hmis, hpolicy]

theorem memWrite_of_misaligned (value : Word) (hmis : va.toNat % widthBytes n ≠ 0) (hpolicy : s.cfg.misaligned = .trap) :
    memWrite s va n value md = (s, some (.fault (addrFault (misalignedOf .write) va md))) := by
  simp [memWrite, misalignedTraps, aligned_eq_false hmis, hpolicy]

end

/-! ## HLV, HLVX and HSV where they may execute -/

theorem hypLoad_of_allowed {i : Instr} {rd rs1 : RegIdx} {n : Width} {signed : Bool} {kind : AccessKind} {s : State}
    (hwf : i.wellFormed s.cfg.mxlen = true) (h : HypAllowed s) :
    hypLoad i rd rs1 n signed kind s = load rd (s.x rs1) n signed (hypMode s) kind s := by
  simp only [hypLoad, hwf, if_true, hypCheck_of_allowed h]

theorem hypStore_of_allowed {i : Instr} {rs2 rs1 : RegIdx} {n : Width} {s : State}
    (hwf : i.wellFormed s.cfg.mxlen = true) (h : HypAllowed s) :
    hypStore i rs2 rs1 n s = store (s.x rs1) n (s.x rs2) (hypMode s) s := by
  simp only [hypStore, hwf, if_true, hypCheck_of_allowed h]

/-- No HLV, HLVX or HSV fetches. -/
theorem hypOf_kind {i : Instr} {rs1 : RegIdx} {n : Width} {kind : AccessKind} (h : hypOf i = some (rs1, n, kind)) :
    kind = .read ∨ kind = .executeAsRead ∨ kind = .write := by
  cases i <;> simp_all [hypOf]

/-- The code of the misaligned exception of such an access (R169). -/
theorem excCode_misalignedOf {kind : AccessKind} (h : kind = .read ∨ kind = .executeAsRead ∨ kind = .write) :
    excCode (misalignedOf kind) = if kind = .write then 6 else 4 := by
  obtain rfl | rfl | rfl := h <;> rfl

/-- Settles O53: the access stops before any portion, with the misaligned exception of its kind. -/
theorem misalignedAccessesTrapUnderTheTrapPolicy : Obligations.MisalignedAccessesTrapUnderTheTrapPolicy := by
  intro s i rs1 n kind hi hwf hallowed hpolicy hmis hstore hload
  have hcode := excCode_misalignedOf (hypOf_kind hi)
  have hstop : exec i s = stopResult (.fault (addrFault (misalignedOf kind) (s.x rs1) (hypMode s))) s := by
    obtain ⟨rd, signed, -, he⟩ | ⟨rs2, rfl, -, he⟩ := exec_of_hypOf hi
    · rw [he, hypLoad_of_allowed hwf hallowed, load_of_stop (memRead_of_misaligned hmis hpolicy)]
    · rw [he, hypStore_of_allowed hwf hallowed, store_of_stop (memWrite_of_misaligned _ hmis hpolicy)]
  have htarget : excCode (misalignedOf kind) ∉ s.cfg.medeleg ∨ s.priv = .m := by
    rw [hcode]
    split_ifs with hk
    · exact hstore hk
    · exact hload hk
  rw [hstop, ← hcode]
  exact stopResult_fault (f := addrFault (misalignedOf kind) (s.x rs1) (hypMode s)) rfl (xlenCut_x s rs1) htarget

/-! ## Loads that complete -/

/-- The value of the `n` bytes at `f 0`, `f 1`, …, the low one first. -/
def bytesValue (s : State) (n : Width) (f : Nat → Nat) : Word :=
  valueOfBytes false (widthBytes n) ((List.range (widthBytes n)).map fun k => (k, s.byteAt (f k)))

theorem bytesValue_b (s : State) (f : Nat → Nat) : bytesValue s .b f = (s.byteAt (f 0)).setWidth 64 := by
  simp [bytesValue, widthBytes, List.range_succ, valueOfBytes, bytePlace]

theorem bytesValue_h (s : State) (f : Nat → Nat) :
    bytesValue s .h f = (s.byteAt (f 1) ++ s.byteAt (f 0) : BitVec 16).setWidth 64 := valueOfBytes_two _ _

theorem bytesValue_w (s : State) (f : Nat → Nat) :
    bytesValue s .w f =
      (s.byteAt (f 3) ++ s.byteAt (f 2) ++ s.byteAt (f 1) ++ s.byteAt (f 0) : BitVec 32).setWidth 64 :=
  valueOfBytes_four _ _ _ _

/-- Two words side by side. -/
theorem append_words (hi lo : BitVec 32) : (hi ++ lo : BitVec 64) = lo.setWidth 64 ||| hi.setWidth 64 <<< 32 := by
  rw [BitVec.append_def, BitVec.shiftLeftZeroExtend_eq, BitVec.setWidth'_eq, BitVec.or_comm]

theorem bytesValue_d (s : State) (f : Nat → Nat) :
    bytesValue s .d f = s.byteAt (f 7) ++ s.byteAt (f 6) ++ s.byteAt (f 5) ++ s.byteAt (f 4) ++
      (s.byteAt (f 3) ++ s.byteAt (f 2) ++ s.byteAt (f 1) ++ s.byteAt (f 0) : BitVec 32) := by
  refine (valueOfBytes_eight _ _ _ _ _ _ _ _).trans ?_
  rw [valueOfBytes_four, valueOfBytes_four, append_words]

/-- What a load of these bytes leaves in its register, before it is cut to XLEN bits (R66). -/
def loadedValue (signed : Bool) (s : State) (n : Width) (f : Nat → Nat) : Word :=
  if signed then sextWidth n (bytesValue s n f) else zextWidth n (bytesValue s n f)

theorem loadedValue_b (signed : Bool) (s : State) (f : Nat → Nat) : loadedValue signed s .b f =
    if signed then (s.byteAt (f 0)).signExtend 64 else (s.byteAt (f 0)).setWidth 64 := by
  simp [loadedValue, bytesValue_b, sextWidth, zextWidth]

theorem loadedValue_h (signed : Bool) (s : State) (f : Nat → Nat) {half : BitVec 16}
    (h : half = s.byteAt (f 1) ++ s.byteAt (f 0)) :
    loadedValue signed s .h f = if signed then half.signExtend 64 else half.setWidth 64 := by
  simp [loadedValue, bytesValue_h, ← h, sextWidth, zextWidth]

theorem loadedValue_w (signed : Bool) (s : State) (f : Nat → Nat) {word : BitVec 32}
    (h : word = s.byteAt (f 3) ++ s.byteAt (f 2) ++ s.byteAt (f 1) ++ s.byteAt (f 0)) :
    loadedValue signed s .w f = if signed then word.signExtend 64 else word.setWidth 64 := by
  simp [loadedValue, bytesValue_w, ← h, sextWidth, zextWidth]

theorem loadedValue_d (signed : Bool) (s : State) (f : Nat → Nat) {word : BitVec 32}
    (h : word = s.byteAt (f 3) ++ s.byteAt (f 2) ++ s.byteAt (f 1) ++ s.byteAt (f 0)) :
    loadedValue signed s .d f =
      s.byteAt (f 7) ++ s.byteAt (f 6) ++ s.byteAt (f 5) ++ s.byteAt (f 4) ++ word := by
  simp [loadedValue, bytesValue_d, ← h, sextWidth, zextWidth]

/-- What a load that completes leaves. -/
theorem loadEffect_of_value (rd : RegIdx) (va : Word) (n : Width) (value : Word) (s : State) :
    LoadEffect rd value s ((drawOrder va n s).setX rd (xlenCut s.cfg.mxlen value)).advance where
  dest hrd := by simp [x_setX_same _ _ hrd]
  zero := x_zero _
  regs i hi := by simp [x_setX_other _ _ hi]
  specials := by constructor <;> simp
  memory a := by simp
  pc := by simp [PcAdvanced]

/-- A load whose bytes `Translate` lets through extends their value. -/
theorem load_bytesAt {s : State} {va : Word} {n : Width} {md : Mode} {kind : AccessKind} {f : Nat → Nat} (rd : RegIdx)
    (signed : Bool) (hva : xlenCut s.cfg.mxlen va = va) (hle : LittleEndian s) (h : BytesAt s va n kind md f) :
    ∃ t, load rd va n signed md kind s = .next t ∧
      LoadEffect rd (loadedValue signed s n f) s t := by
  have hread : memRead s va n md kind = .ok (bytesValue s n f) := by
    rw [memRead_bytesAt s n kind md f hva h, hle md]
    rfl
  refine ⟨_, ?_, loadEffect_of_value rd va n _ s⟩
  simp only [load, hread, extendLoad, loadedValue]

/-! ## Stores that complete -/

theorem sameSpecials_withMem (s : State) (m : Memory) (st : List Nat) : SameSpecials s (withMem s m st) := by
  constructor <;> rfl

/-- A store whose bytes `Translate` lets through writes them. -/
theorem store_bytesAt {s : State} {va : Word} {n : Width} {md : Mode} {f : Nat → Nat} (value : Word)
    (hva : xlenCut s.cfg.mxlen va = va) (hle : LittleEndian s) (hmem : MemCanonical s) (hd : Distinct f (widthBytes n))
    (htab : TablesApart s va n f) (h : BytesAt s va n .write md f) :
    ∃ t, store va n value md s = .next t ∧ StoreEffect f (widthBytes n) value s t := by
  obtain ⟨hnone, hbytes, hothers, hstored⟩ := memWrite_bytesAt s n value md f hva hmem (hle md) hd htab h
  obtain ⟨m, st, hshape⟩ := memWrite_shape s va n value md
  have hw : memWrite s va n value md = (withMem s m st, none) := Prod.ext hshape hnone
  rw [hshape] at hbytes hothers hstored
  refine ⟨(drawOrder va n (withMem s m st)).advance, by simp only [store, hw], ?_, ?_, ?_, ?_, ?_, ?_⟩
  · intro k hk
    rw [byteAt_advance, byteAt_drawOrder, hbytes k hk, byteOfValue_little]
  · intro a ha
    rw [byteAt_advance, byteAt_drawOrder, hothers a ha]
  · intro a
    rw [advance_stored, drawOrder_stored, hstored]
  · intro i
    simp
  · constructor <;> simp
  · simp [PcAdvanced]

end Sys2Proof.Machine

/-! PROOF. A split access of which some bytes fault (20_memory.md R65), and a store followed by a load
(20_memory.md R69). -/

namespace Sys2Proof.Machine

/-! ## Split accesses of which some bytes fault -/

section
variable {s : State} {va : Word} {n : Width} {md : Mode} {kind : AccessKind} {f : Nat → Nat}

/-- A portion that stops is a byte that faults, and its fault goes to M-mode. -/
theorem BytesFault.fault_of_portion (h : BytesFault s va n kind md f) {order : Nat} {q : Nat × Nat} {stop : AccessStop}
    (hq : q ∈ portions va n order) (hstop : translate s (portionAddr s va q.1) q.2 kind md = .error stop) :
    ∃ k < widthBytes n, ∃ e, stop = .fault e ∧ translate s (portionAddr s va k) 1 kind md = .error (.fault e) ∧
      (excCode e.exc ∉ s.cfg.medeleg ∨ s.priv = .m) := by
  obtain ⟨k, hk, rfl⟩ := (mem_portions_split (aligned_eq_false h.misaligned) order q).mp hq
  refine ⟨k, hk, ?_⟩
  obtain ⟨pa, hpa, -⟩ | ⟨e, he, htarget⟩ := h.each k hk
  · cases hstop.symm.trans hpa
  · cases hstop.symm.trans he
    exact ⟨e, rfl, hstop, htarget⟩

/-- Some portion does not get through. -/
theorem BytesFault.not_all_ok (h : BytesFault s va n kind md f) {order : Nat}
    (hok : ∀ q ∈ portions va n order, ∃ pa, translate s (portionAddr s va q.1) q.2 kind md = .ok pa) : False := by
  obtain ⟨k, hk, e, he⟩ := h.faulting
  obtain ⟨pa, hpa⟩ := hok (k, 1) ((mem_portions_split (aligned_eq_false h.misaligned) order _).mpr ⟨k, hk, rfl⟩)
  cases hpa.symm.trans he

/-- The trap of a byte that faults is taken after the bytes before it are stored, and reports the byte's address. -/
theorem stopResult_byteFault {m : Memory} {st : List Nat} {k : Nat} {e : MemFault}
    (he : translate s (portionAddr s va k) 1 kind md = .error (.fault e))
    (htarget : excCode e.exc ∉ s.cfg.medeleg ∨ s.priv = .m) :
    ∃ t tr, stopResult (.fault e) (withMem s m st) = .next t ∧
      FaultEffect tr (excCode e.exc) (portionAddr s va k) md.v e.gpa (withMem s m st) t := by
  obtain ⟨htval, hgva⟩ := translate_fault_addr he
  rw [← hgva]
  exact stopResult_fault (s := withMem s m st) htval (xlenCut_idem _ _) htarget

/-- A split load of which some bytes fault takes the trap of one of them and reads nothing. -/
theorem load_bytesFault (rd : RegIdx) (signed : Bool) (value : Word)
    (h : BytesFault s va n kind md f) :
    ∃ t, load rd va n signed md kind s = .next t ∧ SplitFaultEffect va n kind md f value s t := by
  have htraps : misalignedTraps s va n = false := by simp [misalignedTraps, h.split]
  cases hread : readPortions s va kind md (portions va n (Config.splitOrder s.draws)) with
  | ok bs => exact (h.not_all_ok (readPortions_ok hread)).elim
  | error stop =>
    obtain ⟨q, hq, hstop⟩ := readPortions_error hread
    obtain ⟨k, hk, e, rfl, he, htarget⟩ := h.fault_of_portion hq hstop
    obtain ⟨t, tr, ht, heffect⟩ := stopResult_byteFault (m := s.mem) (st := s.stored) he htarget
    have hmem : memRead s va n md kind = .error (.fault e) := by
      simp only [memRead, htraps, Bool.false_eq_true, if_false, hread]
    refine ⟨t, (load_of_stop hmem).trans ht, s, tr, k, e, [], hk, he, nofun, fun _ => rfl, ?_, heffect⟩
    exact ⟨nofun, fun _ _ => rfl, fun _ => rfl, by constructor <;> rfl, rfl⟩

/-- A split store of which some bytes fault takes the trap of one of them; the bytes before it stay written. -/
theorem store_bytesFault (value : Word) (hle : LittleEndian s) (hmem : MemCanonical s)
    (h : BytesFault s va n .write md f) :
    ∃ t, store va n value md s = .next t ∧ SplitFaultEffect va n .write md f value s t := by
  have hal := aligned_eq_false h.misaligned
  obtain ⟨hd, htab⟩ := h.apart rfl
  obtain ⟨done, rest, hsplit, hdone, hok, hend⟩ := memWrite_split s n value md f hal h.split hmem (hle md) hd
    (htab.resolve_left h.misaligned) fun k hk pa hpa => by
      obtain ⟨pb, hpb, hf⟩ | ⟨e, he, -⟩ := h.each k hk
      · cases hpa.symm.trans hpb
        exact hf
      · cases hpa.symm.trans he
  have hbyte : ∀ q ∈ portions va n (Config.splitOrder s.draws), q.1 < widthBytes n ∧ q.2 = 1 := fun q hq => by
    obtain ⟨k, hk, rfl⟩ := (mem_portions_split hal _ q).mp hq
    exact ⟨hk, rfl⟩
  obtain ⟨rfl, -⟩ | ⟨q, rest', stop, rfl, hstop, hsome⟩ := hend
  · rw [List.append_nil] at hsplit
    refine (h.not_all_ok (order := Config.splitOrder s.draws) fun q hq => ?_).elim
    rw [(hbyte q hq).2]
    exact hok q (hsplit ▸ hq)
  · have hq : q ∈ portions va n (Config.splitOrder s.draws) := by simp [hsplit]
    rw [← (hbyte q hq).2] at hstop
    obtain ⟨k, hk, e, rfl, he, htarget⟩ := h.fault_of_portion hq hstop
    obtain ⟨m, st, hshape⟩ := memWrite_shape s va n value md
    obtain ⟨t, tr, ht, heffect⟩ := stopResult_byteFault (m := m) (st := st) he htarget
    rw [hshape] at hdone
    refine ⟨t, (store_of_stop (Prod.ext hshape hsome)).trans ht, withMem s m st, tr, k, e, done.map (·.1), hk, he, ?_,
      fun hne => absurd rfl hne, ⟨?_, ?_, fun _ => rfl, sameSpecials_withMem s m st, rfl⟩, heffect⟩
    · intro j hj
      obtain ⟨q, hq, rfl⟩ := List.mem_map.mp hj
      exact ⟨(hbyte q (by simp [hsplit, hq])).1, hok q hq⟩
    · intro j hj
      obtain ⟨q, hq, rfl⟩ := List.mem_map.mp hj
      rw [hdone.bytes q hq, byteOfValue_little]
    · exact fun a ha => hdone.others a fun q hq => ha q.1 (List.mem_map_of_mem hq)

end

/-! ## A store, then a load of the same bytes (R69) -/

/-- The bytes of a word side by side. -/
theorem append_bytes (x : Word) : x.extractLsb' 24 8 ++ x.extractLsb' 16 8 ++ x.extractLsb' 8 8 ++ x.extractLsb' 0 8 =
    x.setWidth 32 := by
  apply BitVec.eq_of_getLsbD_eq
  intro i hi
  rw [getLsbD_four]
  simp only [BitVec.getLsbD_extractLsb', BitVec.getLsbD_setWidth]
  split_ifs <;> grind

/-- A load of a stored word finds it. -/
theorem StoreEffect.loadedValue_w {f : Nat → Nat} {value : Word} {s t : State} (h : StoreEffect f 4 value s t)
    (signed : Bool) :
    loadedValue signed t .w f = if signed then (value.setWidth 32).signExtend 64 else (value.setWidth 32).setWidth 64 := by
  refine Machine.loadedValue_w signed t f ?_
  rw [h.bytes 0 (by decide), h.bytes 1 (by decide), h.bytes 2 (by decide), h.bytes 3 (by decide), append_bytes]

/-- A load of its first byte finds the low one. -/
theorem StoreEffect.loadedValue_b {f : Nat → Nat} {value : Word} {s t : State} (h : StoreEffect f 4 value s t)
    (signed : Bool) :
    loadedValue signed t .b f = if signed then (value.setWidth 8).signExtend 64 else (value.setWidth 8).setWidth 64 := by
  rw [Machine.loadedValue_b, h.bytes 0 (by decide)]
  rfl

/-- A state with the same special registers allows the same virtual-machine accesses. -/
theorem SameSpecials.hypAllowed {s t : State} (h : SameSpecials s t) (hs : HypAllowed s) : HypAllowed t := by
  rwa [HypAllowed, h.v, h.priv, h.hstatus]

theorem SameSpecials.hypMode {s t : State} (h : SameSpecials s t) : hypMode t = hypMode s := by
  rw [Machine.hypMode, h.hstatus, Machine.hypMode]

theorem SameSpecials.littleEndian {s t : State} (h : SameSpecials s t) (hs : LittleEndian s) : LittleEndian t := fun md =>
  (bigEndian_congr (by rw [orderBits, h.mstatus, h.hstatus, h.vsstatus, orderBits]) md).trans (hs md)

/-- A byte has no bit above XLEN. -/
theorem xlenCut_byte (m : Mxlen) (b : Byte) : xlenCut m (b.setWidth 64) = b.setWidth 64 := by
  cases m <;> simp [xlenCut]

/-- Settles O52: the store leaves the bytes of the word at their addresses, and a load of these addresses assembles them. -/
theorem storeThenLoadReturnsTheBytes : Obligations.StoreThenLoadReturnsTheBytes := by
  intro s t rs2 rs1 rd f hallowed hle hmem hrd hd htab hbytes ht
  obtain ⟨t', ht', heffect⟩ := store_bytesAt (s.x rs2) (xlenCut_x s rs1) hle hmem hd htab hbytes
  rw [exec_hsvW, hypStore_of_allowed rfl hallowed, ht'] at ht
  cases ht
  have hspec := heffect.specials
  have hallowed' := hspec.hypAllowed hallowed
  have hle' := hspec.littleEndian hle
  have hva : xlenCut t.cfg.mxlen (s.x rs1) = s.x rs1 := heffect.regs rs1 ▸ xlenCut_x t rs1
  refine ⟨fun hat => ?_, fun hat => ?_⟩
  · obtain ⟨u, hu, hload⟩ := load_bytesAt rd true hva hle' hat
    refine ⟨u, ?_, ?_⟩
    · rw [exec_hlvW, hypLoad_of_allowed rfl hallowed', heffect.regs, hspec.hypMode, hu]
    · rw [hload.dest hrd, hspec.cfg, heffect.loadedValue_w, if_pos rfl]
  · obtain ⟨u, hu, hload⟩ := load_bytesAt rd false hva hle' hat
    refine ⟨u, ?_, ?_⟩
    · rw [exec_hlvBu, hypLoad_of_allowed rfl hallowed', heffect.regs, hspec.hypMode, hu]
    · rw [hload.dest hrd, heffect.loadedValue_b, if_neg Bool.false_ne_true, xlenCut_byte]

end Sys2Proof.Machine

/-! PROOF. The ordinary accesses that the environment announces (20_memory.md R52 to R58, R64, R65). -/

namespace Sys2Proof.Machine

/-! ## What the event taken off the list leaves as it was -/

/-- `s` with the environment's events replaced. -/
def withEnv (es : List EnvEvent) (s : State) : State := { s with env := es }

section
variable {es : List EnvEvent} {s : State} {va : Word} {n : Width} {kind : AccessKind} {md : Mode} {f : Nat → Nat}

theorem translate_withEnv (va : Word) (n : Nat) (kind : AccessKind) (md : Mode) :
    translate (withEnv es s) va n kind md = translate s va n kind md :=
  translate_congr (s := s) (t := withEnv es s) ⟨⟨rfl, rfl, rfl, rfl, rfl, fun _ _ => rfl⟩, rfl, rfl, rfl⟩
    va n kind md

theorem BytesAt.withEnv (h : BytesAt s va n kind md f) : BytesAt (withEnv es s) va n kind md f := by
  unfold BytesAt
  simp only [translate_withEnv]
  exact h

theorem BytesFault.withEnv (h : BytesFault s va n kind md f) : BytesFault (withEnv es s) va n kind md f where
  misaligned := h.misaligned
  split := h.split
  each k hk := by
    rw [translate_withEnv]
    exact h.each k hk
  faulting := by
    simp only [translate_withEnv]
    exact h.faulting
  apart := h.apart

theorem loadedValue_withEnv (signed : Bool) : loadedValue signed (Machine.withEnv es s) n f = loadedValue signed s n f := rfl

theorem LittleEndian.withEnv (h : LittleEndian s) : LittleEndian (withEnv es s) := fun md =>
  (bigEndian_congr rfl md).trans (h md)

end

/-! ## An ordinary access in its effective mode -/

/-- The kind of an ordinary access. -/
def ordinaryKind (a : OrdinaryAccess) : AccessKind := if a.isStore then .write else .read

section
variable {a : OrdinaryAccess} {md : Mode} {s : State} (hmd : effMode .ordinary s = some md)
include hmd

theorem ordinaryAccess_load (ha : a.isStore = false) :
    ordinaryAccess a s = load a.rd (xlenCut s.cfg.mxlen a.addr) a.width a.signed md .read s := by
  simp [ordinaryAccess, hmd, ha]

theorem ordinaryAccess_store (ha : a.isStore = true) :
    ordinaryAccess a s = store (xlenCut s.cfg.mxlen a.addr) a.width a.value md s := by
  simp [ordinaryAccess, hmd, ha]

/-- An aligned access that `Translate` stops writes nothing. -/
theorem ordinaryAccess_of_aligned_stop {e : AccessStop} {va : Word} (hva : va = xlenCut s.cfg.mxlen a.addr)
    (hal : va.toNat % widthBytes a.width = 0)
    (h : translate s va (widthBytes a.width) (ordinaryKind a) md = .error e) :
    ordinaryAccess a s = stopResult e s := by
  subst hva
  cases ha : a.isStore <;> simp only [ordinaryKind, ha, Bool.false_eq_true, if_true, if_false] at h
  · rw [ordinaryAccess_load hmd ha, load_of_stop (memRead_of_aligned_stop (xlenCut_idem _ _) hal h)]
  · rw [ordinaryAccess_store hmd ha, store_of_stop (memWrite_of_aligned_stop _ (xlenCut_idem _ _) hal h)]

/-- A misaligned access under the trap policy writes nothing. -/
theorem ordinaryAccess_of_misaligned {va : Word} (hva : va = xlenCut s.cfg.mxlen a.addr)
    (hmis : va.toNat % widthBytes a.width ≠ 0) (hpolicy : s.cfg.misaligned = .trap) :
    ordinaryAccess a s = stopResult (.fault (addrFault (misalignedOf (ordinaryKind a)) va md)) s := by
  subst hva
  cases ha : a.isStore <;> simp only [ordinaryKind, ha, Bool.false_eq_true, if_true, if_false]
  · rw [ordinaryAccess_load hmd ha, load_of_stop (memRead_of_misaligned hmis hpolicy)]
  · rw [ordinaryAccess_store hmd ha, store_of_stop (memWrite_of_misaligned _ hmis hpolicy)]

/-- A split access of which some bytes fault takes the trap of one of them. -/
theorem ordinaryAccess_bytesFault {va : Word} {f : Nat → Nat} (hva : va = xlenCut s.cfg.mxlen a.addr)
    (hle : LittleEndian s) (hmem : MemCanonical s) (h : BytesFault s va a.width (ordinaryKind a) md f) :
    ∃ t, ordinaryAccess a s = .next t ∧ SplitFaultEffect va a.width (ordinaryKind a) md f a.value s t := by
  subst hva
  cases ha : a.isStore <;> simp only [ordinaryKind, ha, Bool.false_eq_true, if_true, if_false] at h ⊢
  · rw [ordinaryAccess_load hmd ha]
    exact load_bytesFault a.rd a.signed a.value h
  · rw [ordinaryAccess_store hmd ha]
    exact store_bytesFault a.value hle hmem h

end

/-- With no interrupt ready a step performs the access that the environment announces. -/
theorem step_of_access {s : State} {a : OrdinaryAccess} {rest : List EnvEvent} (henv : s.env = .access a :: rest)
    (hint : pendingInterrupt s = none) : step s = ordinaryAccess a (withEnv rest s) := by
  have hint' : pendingInterrupt (withEnv rest s) = none := hint
  rw [withEnv] at hint' ⊢
  simp only [step, henv, envStep, hartStep, hint']

/-- Settles O60: the step is the access in the state without the event, in which everything the access reads is as before. -/
theorem ordinaryAccessesUseTheEffectiveMode : Obligations.OrdinaryAccessesUseTheEffectiveMode := by
  intro s rest a md f s₁ va kind henv hint heff hle hs₁ hva hkind
  obtain rfl : s₁ = withEnv rest s := hs₁
  have hstep := step_of_access henv hint
  have hmd : effMode .ordinary (withEnv rest s) = some md := heff
  have hva' : va = xlenCut (withEnv rest s).cfg.mxlen a.addr := hva
  have hcut : xlenCut (withEnv rest s).cfg.mxlen va = va := hva' ▸ xlenCut_idem _ _
  have hle' : LittleEndian (withEnv rest s) := hle.withEnv
  obtain rfl : kind = ordinaryKind a := hkind
  refine ⟨fun ha hb => ?_, fun ha hmem hd htab hb => ?_, fun e hal he htarget => ?_,
    fun code hcode hmis hpolicy htarget => ?_, fun hmem hf => ?_⟩
  · have hread : ordinaryKind a = .read := by simp [ordinaryKind, ha]
    rw [hread] at hb
    obtain ⟨t, ht, heffect⟩ := load_bytesAt a.rd a.signed hcut hle' (hb.withEnv (es := rest))
    have hnext : step s = .next t := by rw [hstep, ordinaryAccess_load hmd ha, ← hva', ht]
    rw [loadedValue_withEnv] at heffect
    refine ⟨fun hw => ⟨t, hnext, ?_⟩, fun half hhalf hw => ⟨t, hnext, ?_⟩,
      fun word hword => ⟨fun hw => ⟨t, hnext, ?_⟩, fun hw => ⟨t, hnext, ?_⟩⟩⟩ <;> rw [hw] at heffect
    · exact loadedValue_b a.signed s f ▸ heffect
    · exact loadedValue_h a.signed s f hhalf ▸ heffect
    · exact loadedValue_w a.signed s f hword ▸ heffect
    · exact loadedValue_d a.signed s f hword ▸ heffect
  · have hwrite : ordinaryKind a = .write := by simp [ordinaryKind, ha]
    rw [hwrite] at hb
    rw [hstep, ordinaryAccess_store hmd ha, ← hva']
    exact store_bytesAt a.value hcut hle' hmem hd htab hb.withEnv
  · obtain ⟨htval, hgva⟩ := translate_fault_addr he
    rw [hstep, ordinaryAccess_of_aligned_stop hmd hva' hal ((translate_withEnv va _ _ md).trans he), ← hgva]
    exact stopResult_fault htval hcut htarget
  · have hcode' : excCode (misalignedOf (ordinaryKind a)) = code := by
      rw [hcode, ordinaryKind]
      cases a.isStore <;> rfl
    rw [hstep, ordinaryAccess_of_misaligned hmd hva' hmis hpolicy, ← hcode']
    rw [← hcode'] at htarget
    exact stopResult_fault (f := addrFault _ va md) rfl hcut htarget
  · rw [hstep]
    exact ordinaryAccess_bytesFault hmd hva' hle' hmem hf.withEnv

end Sys2Proof.Machine

/-! PROOF. The decoder and the encoder are inverse to each other (30_encoding.md R80 to R85): a word is its fields, and each
row of the table fixes some of them. -/

namespace Sys2Proof

/-! ## A word is its fields (R81, R82) -/

section fields
variable {w : InstrWord}

/-- A word with the major opcode SYSTEM is the word of format R-SYS that its fields make. -/
theorem encSys_fields (hop : fOpcode w = opSystem) :
    encSys (fFunct7 w) (fRs2 w) (fRs1 w) (fFunct3 w) (fRd w) = w := by
  apply BitVec.eq_of_getLsbD_eq
  intro k hk
  rw [getLsbD_encSys, ← hop]
  simp only [fOpcode, fRd, fFunct3, fRs1, fRs2, fFunct7, BitVec.getLsbD_extractLsb']
  split_ifs <;> rw [decide_eq_true (by omega), Bool.true_and] <;> congr 1 <;> omega

/-- Such a word is also the word of format I-CSR that its fields make. -/
theorem encCsr_fields (hop : fOpcode w = opSystem) : encCsr (fCsr w) (fRs1 w) (fFunct3 w) (fRd w) = w := by
  apply BitVec.eq_of_getLsbD_eq
  intro k hk
  rw [getLsbD_encCsr, ← hop]
  simp only [fOpcode, fRd, fFunct3, fRs1, fCsr, BitVec.getLsbD_extractLsb']
  split_ifs <;> rw [decide_eq_true (by omega), Bool.true_and] <;> congr 1 <;> omega

theorem eq_encSys_iff {funct7 : BitVec 7} {rs2 rs1 : RegIdx} {funct3 : BitVec 3} {rd : RegIdx} :
    w = encSys funct7 rs2 rs1 funct3 rd ↔
      fOpcode w = opSystem ∧ fFunct3 w = funct3 ∧ fFunct7 w = funct7 ∧ fRs2 w = rs2 ∧ fRs1 w = rs1 ∧ fRd w = rd := by
  constructor
  · rintro rfl
    simp
  · rintro ⟨hop, rfl, rfl, rfl, rfl, rfl⟩
    exact (encSys_fields hop).symm

theorem eq_encCsr_iff {csr : CsrNum} {rs1 : RegIdx} {funct3 : BitVec 3} {rd : RegIdx} :
    w = encCsr csr rs1 funct3 rd ↔
      fOpcode w = opSystem ∧ fFunct3 w = funct3 ∧ fCsr w = csr ∧ fRs1 w = rs1 ∧ fRd w = rd := by
  constructor
  · rintro rfl
    simp
  · rintro ⟨hop, rfl, rfl, rfl, rfl⟩
    exact (encCsr_fields hop).symm

end fields

/-! ## The decoder by `funct3` -/

section decode
variable {w : InstrWord} {i : Instr}

theorem decode_of_funct3_zero (hop : fOpcode w = opSystem) (h3 : fFunct3 w = 0b000#3) : decode w = decodePriv w := by
  simp [decode, hop, h3]

theorem decode_of_funct3_four (hop : fOpcode w = opSystem) (h3 : fFunct3 w = 0b100#3) : decode w = decodeHyp w := by
  simp [decode, hop, h3]

/-- Every other `funct3` is that of a CSR instruction, and the word is that instruction's (R81, R83). -/
theorem decode_of_funct3_csr (hop : fOpcode w = opSystem) (h0 : fFunct3 w ≠ 0b000#3) (h4 : fFunct3 w ≠ 0b100#3) :
    ∃ i, decode w = .instr i ∧ w = encode i := by
  unfold decode
  rw [if_pos hop, if_neg h0]
  split_ifs with h1 h2 h3 h5 h6 <;> refine ⟨_, rfl, eq_encCsr_iff.mpr ⟨hop, ?_, rfl, rfl, rfl⟩⟩
  · exact h1
  · exact h2
  · exact h3
  · exact h5
  · exact h6
  · bv_omega

theorem opcode_of_decode (h : decode w ≠ .outside) : fOpcode w = opSystem := by
  by_contra hop
  exact h (by rw [decode, if_neg hop])

/-! ## Decoding a word, then encoding (R85) -/

theorem eq_encode_of_decodePriv (hop : fOpcode w = opSystem) (h3 : fFunct3 w = 0b000#3) (h : decodePriv w = .instr i) :
    w = encode i := by
  unfold decodePriv at h
  split_ifs at h <;> cases h <;> simp only [encode, eq_encSys_iff, and_true, *]

theorem eq_encode_of_decodeHypLoad (hop : fOpcode w = opSystem) (h3 : fFunct3 w = 0b100#3)
    (h : decodeHypLoad w = .instr i) : w = encode i := by
  unfold decodeHypLoad at h
  split_ifs at h <;> cases h <;> simp only [encode, eq_encSys_iff, and_true, *]

theorem eq_encode_of_decodeHyp (hop : fOpcode w = opSystem) (h3 : fFunct3 w = 0b100#3) (h : decodeHyp w = .instr i) :
    w = encode i := by
  unfold decodeHyp at h
  split_ifs at h
  on_goal 5 => exact eq_encode_of_decodeHypLoad hop h3 h
  all_goals
    cases h
    simp only [encode, eq_encSys_iff, and_true, *]

/-- Each field of the word is one that the row fixes or an operand of the instruction. -/
theorem eq_encode_of_decode (h : decode w = .instr i) : w = encode i := by
  have hop : fOpcode w = opSystem := opcode_of_decode (by simp [h])
  by_cases h0 : fFunct3 w = 0b000#3
  · exact eq_encode_of_decodePriv hop h0 (decode_of_funct3_zero hop h0 ▸ h)
  by_cases h4 : fFunct3 w = 0b100#3
  · exact eq_encode_of_decodeHyp hop h4 (decode_of_funct3_four hop h4 ▸ h)
  obtain ⟨j, hj, hw⟩ := decode_of_funct3_csr hop h0 h4
  cases hj.symm.trans h
  exact hw

end decode

/-- Settles O3: `eq_encode_of_decode`. -/
theorem encodeOfDecodeIsTheWord : Obligations.EncodeOfDecodeIsTheWord :=
  fun _ _ h => (eq_encode_of_decode h).symm

/-! ## Encoding an instruction, then decoding (R84, R85) -/

/-- The fields of the word are those that the row fixes and the operands, so each test of the decoder is decided. -/
theorem decode_encode (i : Instr) : decode (encode i) = .instr i := by
  cases i
  case csrrw | csrrs | csrrc | csrrwi | csrrsi | csrrci => simp [encode, decode]
  case mret | hfenceVvma | hfenceGvma => simp [encode, decode_of_funct3_zero, decodePriv]
  case hlvB | hlvBu | hlvH | hlvHu | hlvxHu | hlvW | hlvxWu | hlvWu | hlvD =>
    simp [encode, decode_of_funct3_four, decodeHyp, decodeHypLoad]
  case hsvB | hsvH | hsvW | hsvD => simp [encode, decode_of_funct3_four, decodeHyp]

/-- Settles O2: `decode_encode`. -/
theorem decodeOfEncodeIsTheInstruction : Obligations.DecodeOfEncodeIsTheInstruction := decode_encode

/-- A word decodes to an instruction exactly when it is that instruction's word. -/
theorem decode_eq_instr_iff {w : InstrWord} {i : Instr} : decode w = .instr i ↔ w = encode i :=
  ⟨eq_encode_of_decode, fun h => h ▸ decode_encode i⟩

/-- Settles O1: each word is the word of its instruction. -/
theorem decodeReadsTheWorkedExamples : Obligations.DecodeReadsTheWorkedExamples := by
  simp only [Obligations.DecodeReadsTheWorkedExamples, decode_eq_instr_iff]
  decide

/-! ## The rows of the table by match and mask (R85) -/

section masks
variable (w m : InstrWord)

theorem fOpcode_and : fOpcode (w &&& m) = fOpcode w &&& fOpcode m := BitVec.extractLsb'_and
theorem fRd_and : fRd (w &&& m) = fRd w &&& fRd m := BitVec.extractLsb'_and
theorem fFunct3_and : fFunct3 (w &&& m) = fFunct3 w &&& fFunct3 m := BitVec.extractLsb'_and
theorem fRs1_and : fRs1 (w &&& m) = fRs1 w &&& fRs1 m := BitVec.extractLsb'_and
theorem fRs2_and : fRs2 (w &&& m) = fRs2 w &&& fRs2 m := BitVec.extractLsb'_and
theorem fFunct7_and : fFunct7 (w &&& m) = fFunct7 w &&& fFunct7 m := BitVec.extractLsb'_and
theorem fCsr_and : fCsr (w &&& m) = fCsr w &&& fCsr m := BitVec.extractLsb'_and

variable {w m}

/-- The mask `0x0000707F` compares the opcode and `funct3`. -/
theorem mask_funct3_iff {pattern : InstrWord} {funct3 : BitVec 3} (hmatch : pattern = encCsr 0#12 0#5 funct3 0#5) :
    w &&& 0x0000707F#32 = pattern ↔ ∃ rd csr rs1, w = encCsr csr rs1 funct3 rd := by
  have hmask : fOpcode 0x0000707F#32 = BitVec.allOnes 7 ∧ fFunct3 0x0000707F#32 = BitVec.allOnes 3 ∧
      fCsr 0x0000707F#32 = 0#12 ∧ fRs1 0x0000707F#32 = 0#5 ∧ fRd 0x0000707F#32 = 0#5 := by decide
  obtain ⟨hop, h3, hcsr, h1, hd⟩ := hmask
  simp only [hmatch, eq_encCsr_iff, fOpcode_and, fFunct3_and, fCsr_and, fRs1_and, fRd_and, hop, h3, hcsr, h1, hd,
    BitVec.and_allOnes, BitVec.and_zero, and_true]
  simp

/-- The mask `0xFE007FFF` leaves `rs1` and `rs2` open. -/
theorem mask_rs1_rs2_iff {pattern : InstrWord} {funct7 : BitVec 7} {funct3 : BitVec 3}
    (hmatch : pattern = encSys funct7 0#5 0#5 funct3 0#5) :
    w &&& 0xFE007FFF#32 = pattern ↔ ∃ rs1 rs2, w = encSys funct7 rs2 rs1 funct3 0#5 := by
  have hmask : fOpcode 0xFE007FFF#32 = BitVec.allOnes 7 ∧ fFunct3 0xFE007FFF#32 = BitVec.allOnes 3 ∧
      fFunct7 0xFE007FFF#32 = BitVec.allOnes 7 ∧ fRs2 0xFE007FFF#32 = 0#5 ∧ fRs1 0xFE007FFF#32 = 0#5 ∧
      fRd 0xFE007FFF#32 = BitVec.allOnes 5 := by decide
  obtain ⟨hop, h3, h7, h2, h1, hd⟩ := hmask
  simp only [hmatch, eq_encSys_iff, fOpcode_and, fFunct3_and, fFunct7_and, fRs2_and, fRs1_and, fRd_and, hop, h3, h7, h2,
    h1, hd, BitVec.and_allOnes, BitVec.and_zero, true_and]
  simp

/-- The mask `0xFFF0707F` leaves `rd` and `rs1` open. -/
theorem mask_rd_rs1_iff {pattern : InstrWord} {funct7 : BitVec 7} {rs2 : RegIdx} {funct3 : BitVec 3}
    (hmatch : pattern = encSys funct7 rs2 0#5 funct3 0#5) :
    w &&& 0xFFF0707F#32 = pattern ↔ ∃ rd rs1, w = encSys funct7 rs2 rs1 funct3 rd := by
  have hmask : fOpcode 0xFFF0707F#32 = BitVec.allOnes 7 ∧ fFunct3 0xFFF0707F#32 = BitVec.allOnes 3 ∧
      fFunct7 0xFFF0707F#32 = BitVec.allOnes 7 ∧ fRs2 0xFFF0707F#32 = BitVec.allOnes 5 ∧ fRs1 0xFFF0707F#32 = 0#5 ∧
      fRd 0xFFF0707F#32 = 0#5 := by decide
  obtain ⟨hop, h3, h7, h2, h1, hd⟩ := hmask
  simp only [hmatch, eq_encSys_iff, fOpcode_and, fFunct3_and, fFunct7_and, fRs2_and, fRs1_and, fRd_and, hop, h3, h7, h2,
    h1, hd, BitVec.and_allOnes, BitVec.and_zero, and_true]
  simp

end masks

/-- Settles O4: each match is the word of its row with 0 in the operand fields, and each mask leaves exactly these fields
open. -/
theorem decodeFollowsMatchAndMask : Obligations.DecodeFollowsMatchAndMask := by
  intro w
  have hmret : w &&& 0xFFFFFFFF#32 = 0x30200073#32 ↔ w = encode .mret := by
    rw [show w &&& 0xFFFFFFFF#32 = w from BitVec.and_allOnes, show encode .mret = 0x30200073#32 by decide]
  simp only [decode_eq_instr_iff]
  refine ⟨mask_funct3_iff ?_, mask_funct3_iff ?_, mask_funct3_iff ?_, mask_funct3_iff ?_, mask_funct3_iff ?_,
    mask_funct3_iff ?_, hmret, mask_rs1_rs2_iff ?_, mask_rs1_rs2_iff ?_, mask_rd_rs1_iff ?_, mask_rd_rs1_iff ?_,
    mask_rd_rs1_iff ?_, mask_rd_rs1_iff ?_, mask_rd_rs1_iff ?_, mask_rd_rs1_iff ?_, mask_rd_rs1_iff ?_,
    mask_rd_rs1_iff ?_, mask_rd_rs1_iff ?_, (mask_rs1_rs2_iff ?_).trans exists_comm,
    (mask_rs1_rs2_iff ?_).trans exists_comm, (mask_rs1_rs2_iff ?_).trans exists_comm,
    (mask_rs1_rs2_iff ?_).trans exists_comm⟩ <;> decide

/-! ## The reserved words (R87) -/

/-- `funct3` = 000 is an instruction, a reserved word of R87(c) or (d), or a word outside the table. -/
theorem decodePriv_eq_reserved_iff {w : InstrWord} : decodePriv w = .reserved ↔
    ((fFunct7 w = 0b0010001#7 ∨ fFunct7 w = 0b0110001#7) ∧ fRd w ≠ 0#5) ∨
      (fFunct7 w = 0b0011000#7 ∧ fRs2 w = 0b00010#5 ∧ (fRs1 w ≠ 0#5 ∨ fRd w ≠ 0#5)) := by
  unfold decodePriv
  split_ifs with hvvma hd hgvma hd hmret hops
  · simp [hvvma, hd]
  · simp [hvvma, hd]
  · simp [hgvma, hd]
  · simp [hgvma, hd]
  · simp [hmret, hops]
  · simpa [hmret] using not_and_or.mp hops
  · simpa [hvvma, hgvma] using fun h7 h2 => absurd ⟨h7, h2⟩ hmret

theorem decodeHypLoad_ne_outside (w : InstrWord) : decodeHypLoad w ≠ .outside := by
  intro h
  unfold decodeHypLoad at h
  split_ifs at h

/-- With `funct3` = 100 every word is an instruction or reserved. -/
theorem decodeHyp_ne_outside (w : InstrWord) : decodeHyp w ≠ .outside := by
  intro h
  unfold decodeHyp at h
  split_ifs at h
  exact decodeHypLoad_ne_outside w h

theorem decode_eq_reserved_iff_of_funct3_four {w : InstrWord} (hop : fOpcode w = opSystem) (h4 : fFunct3 w = 0b100#3) :
    decode w = .reserved ↔ ¬ ∃ i, decode w = .instr i := by
  have hin : decode w ≠ .outside := decode_of_funct3_four hop h4 ▸ decodeHyp_ne_outside w
  cases hdec : decode w with
  | instr i => simp
  | reserved => simp
  | outside => exact absurd hdec hin

end Sys2Proof

namespace Sys2Proof.Machine

/-- Settles O5: the reserved words by `funct3`, and what the step does with one. -/
theorem reservedWordsRaiseIllegalInstruction : Obligations.ReservedWordsRaiseIllegalInstruction := by
  refine ⟨fun w => ?_, fun s w henv hint hfetch hdec => ?_⟩
  · change _ ↔ fOpcode w = opSystem ∧ _
    by_cases hop : fOpcode w = opSystem
    · rw [and_iff_right hop]
      by_cases h0 : fFunct3 w = 0b000#3
      · rw [decode_of_funct3_zero hop h0, decodePriv_eq_reserved_iff]
        simp [h0]
      by_cases h4 : fFunct3 w = 0b100#3
      · rw [decode_eq_reserved_iff_of_funct3_four hop h4]
        simp [h4]
      obtain ⟨i, hi, -⟩ := decode_of_funct3_csr hop h0 h4
      simp [hi, h0]
    · simp [decode, hop]
  · rw [step_of_fetch_word henv hint hfetch]
    simp only [runWord, hdec]

end Sys2Proof.Machine

/-! PROOF. The fetch in M-mode (30_encoding.md R80), the CSR numbers in M-mode (R86), and the rows that exist when MXLEN=64 only
(R87). -/

namespace Sys2Proof.Machine

/-! ## Fetch where nothing translates -/

theorem physByte_zero (pa : Word) : physByte pa 0 = pa.toNat := by simp [physByte]

/-- In M-mode a parcel of executable memory that no store has written lies at its own address (20_memory.md R68(i)). -/
theorem fetchParcel_machine {s : State} {k len : Nat} {pa : Word} (hp : s.priv = .m) (hpa : portionAddr s s.pc k = pa)
    (hphys : physical s pa pa len .execute s.mode = .ok pa) (hst : ∀ j < len, physByte pa j ∉ s.stored) :
    fetchParcel s k len = .ok pa := by
  have htr : translate s (portionAddr s s.pc k) len .execute s.mode = .ok pa := by
    simpa only [translate, State.mode, hp, hpa] using hphys
  exact fetchParcel_of_unstored htr hst

/-- Settles O12: each parcel lies at its own address, and the low byte announces four bytes. -/
theorem machineModeFetchReadsTheBytesAtThePc : Obligations.MachineModeFetchReadsTheBytesAtThePc := by
  intro s hp hpc hlow hmid
  have hpc0 : portionAddr s s.pc 0 = s.pc := by simpa [portionAddr] using hpc
  have hannounce : announces32 (s.byteAt s.pc.toNat) = true := by simp [announces32, hlow, hmid]
  refine ⟨fun hvl hphys hst => ?_, fun pc₂ hpc₂ hvl hphys hphys₂ hst => ?_⟩
  · have hparcel := fetchParcel_machine hp hpc0 hphys hst
    simp [fetch, hvl, hparcel, physByte_zero, hannounce, wordOfBytes]
  · have hparcel := fetchParcel_machine hp hpc0 hphys fun j hj => (hst j hj).1
    have hparcel₂ := fetchParcel_machine (k := 2) hp hpc₂.symm hphys₂ fun j hj => (hst j hj).2
    simp [fetch, hvl, hparcel, hparcel₂, physByte_zero, hannounce, wordOfBytes]

/-! ## CSR numbers in M-mode -/

/-- In M-mode no level and no TVM bars an access: a number that is not read-only reaches the register that it names (R100). -/
theorem csrCheck_machine {s : State} {n : CsrNum} {r : Csr} (hp : s.priv = .m) (hv : s.v = false)
    (hnamed : csrNamed s.cfg n = some r) (hreadOnly : csrReadOnly n = false) (w : Bool) : csrCheck n w s = .ok r := by
  have htvm : tvmActs s.mstatus s.mode = false := by simp [tvmActs, inHs, State.mode, hp]
  have hreached : csrReached false r = r := by cases r <;> rfl
  simp [csrCheck, hnamed, hreadOnly, hp, hv, htvm, hreached]

/-- A number of the table names its register whatever other registers the larger machine has. -/
theorem csrNamed_of_lookup {c : Config} {n : CsrNum} {r : Csr} (hn : n ≠ 0x310#12) (h : csrTable.lookup n = some r) :
    csrNamed c n = some r := by
  simp [csrNamed, hn, h]

theorem csrNamed_mstatush_x32 {c : Config} (hm : c.mxlen = .x32) : csrNamed c 0x310#12 = some .mstatush := by
  simp [csrNamed, hm]

theorem csrNamed_mstatush_x64 {c : Config} (hm : c.mxlen = .x64) : csrNamed c 0x310#12 = none := by
  simp [csrNamed, hm]

/-- A number that names no register raises IllegalInstruction in every mode (R100). -/
theorem csrCheck_of_unnamed {s : State} {n : CsrNum} (h : csrNamed s.cfg n = none) (w : Bool) :
    csrCheck n w s = .error .illegalInstruction := by
  simp [csrCheck, h]

/-- The rows of the table: each number finds its own row, is not that of `mstatush`, and is not read-only. -/
theorem csrTable_rows : ∀ q ∈ csrTable, q.1 ≠ 0x310#12 ∧ csrTable.lookup q.1 = some q.2 ∧ csrReadOnly q.1 = false := by
  decide

/-- Settles O31: the registers of the table by `csrTable_rows`, `mstatush` by the register that 0x310 names at each MXLEN. -/
theorem machineModeReachesEveryCsr : Obligations.MachineModeReachesEveryCsr := by
  intro s w hp hv
  refine ⟨fun q hq => ?_, fun hm => ?_, fun hm i hi => ?_⟩
  · obtain ⟨hn, hlookup, hreadOnly⟩ := csrTable_rows q hq
    exact csrCheck_machine hp hv (csrNamed_of_lookup hn hlookup) hreadOnly w
  · exact csrCheck_machine hp hv (csrNamed_mstatush_x32 hm) (by decide) w
  · obtain ⟨rd, new, hexec⟩ := exec_of_csrOf hi
    rw [hexec]
    exact csrAccess_of_error (csrCheck_of_unnamed (csrNamed_mstatush_x64 hm) w)

/-! ## Rows that are reserved at this MXLEN -/

theorem hypLoad_of_reserved {i : Instr} {s : State} (h : i.wellFormed s.cfg.mxlen = false) (rd rs1 : RegIdx) (n : Width)
    (signed : Bool) (kind : AccessKind) :
    hypLoad i rd rs1 n signed kind s = raiseInstr .illegalInstruction (encode i) s := by
  simp [hypLoad, h]

theorem hypStore_of_reserved {i : Instr} {s : State} (h : i.wellFormed s.cfg.mxlen = false) (rs2 rs1 : RegIdx)
    (n : Width) : hypStore i rs2 rs1 n s = raiseInstr .illegalInstruction (encode i) s := by
  simp [hypStore, h]

/-- Settles O45: none of the three is well-formed when MXLEN=32. -/
theorem doublewordAccessesAreReservedAtThirtyTwoBits : Obligations.DoublewordAccessesAreReservedAtThirtyTwoBits := by
  intro s a b hm
  rw [exec_hlvWu, exec_hlvD, exec_hsvD]
  exact ⟨hypLoad_of_reserved (by rw [hm]; rfl) .., hypLoad_of_reserved (by rw [hm]; rfl) ..,
    hypStore_of_reserved (by rw [hm]; rfl) ..⟩

end Sys2Proof.Machine

/-! PROOF. The CSR access check (40_csr_access.md R100, R115; 30_encoding.md R86) and the six CSR instructions (R101 to R106). -/

namespace Sys2Proof.Machine

/-! ## The six instructions -/

section
variable {i : Instr} {n : CsrNum} {w : Bool} {s : State}

/-- A CSR access that passes its check leaves the old value in `rd` and the new one in the register. -/
theorem csrEffect_csrDone (rd : RegIdx) (writes : Bool) (new : Word → Word) (r : Csr) (s : State) :
    CsrEffect rd writes (new (csrRead r s)) r s (csrDone rd writes new r s) where
  dest hrd := by cases writes <;> simp [csrDone, x_setX_same _ _ hrd]
  zero := x_zero _
  regs i hi := by cases writes <;> simp [csrDone, x_setX_other _ _ hi]
  specials := by constructor <;> simp [csrDone]
  memory a := by cases writes <;> simp [csrDone]
  pc := by cases writes <;> simp [PcAdvanced, csrDone]

/-- A CSR access that passes its check for a register of this spec completes with that effect. -/
theorem csrAccess_effect {rd : RegIdx} {new : Word → Word} {r : Csr} (hok : csrCheck n w s = .ok r)
    (hr : ∀ k, r ≠ .foreign k) :
    ∃ t, csrAccess i n rd w new s = .next t ∧ CsrEffect rd w (new (csrRead r s)) r s t :=
  ⟨_, csrAccess_of_ok hok hr, csrEffect_csrDone rd w new r s⟩

theorem exec_of_csrCheck_error {e : Exc} (hi : csrOf i = some (n, w)) (he : csrCheck n w s = .error e) :
    exec i s = raiseInstr e (encode i) s := by
  obtain ⟨rd, new, hexec⟩ := exec_of_csrOf hi
  rw [hexec, csrAccess_of_error he]

theorem exec_of_csrCheck_ok {r : Csr} (hi : csrOf i = some (n, w)) (hok : csrCheck n w s = .ok r)
    (hr : ∀ k, r ≠ .foreign k) : ∃ t, exec i s = .next t ∧ PcAdvanced s t := by
  obtain ⟨rd, new, hexec⟩ := exec_of_csrOf hi
  obtain ⟨t, ht, heffect⟩ := csrAccess_effect (i := i) (rd := rd) (new := new s) hok hr
  exact ⟨t, (hexec s).trans ht, heffect.pc⟩

/-- A register of the larger machine that passes the check has no meaning here (log 21). -/
theorem exec_of_csrCheck_foreign {k : CsrNum} (hi : csrOf i = some (n, w)) (hok : csrCheck n w s = .ok (.foreign k)) :
    exec i s = .refused (.foreignCsr k) := by
  obtain ⟨rd, new, hexec⟩ := exec_of_csrOf hi
  rw [hexec, csrAccess, hok]

/-- Settles O29: each instruction is one access, with its own rule for the new value and for whether it writes. -/
theorem csrInstructionsReadThenWrite : Obligations.CsrInstructionsReadThenWrite := by
  intro s rd rs1 u n r hr
  simp only [exec_csrrw, exec_csrrs, exec_csrrc, exec_csrrwi, exec_csrrsi, exec_csrrci]
  exact ⟨fun h => ⟨csrAccess_effect h hr, csrAccess_effect h hr⟩,
    fun h => ⟨csrAccess_effect h hr, csrAccess_effect h hr⟩,
    fun h => ⟨csrAccess_effect h hr, csrAccess_effect h hr⟩,
    fun i w e hi he => exec_of_csrCheck_error hi he⟩

/-! ## The access check -/

/-- A write to a read-only number raises IllegalInstruction, whether or not the number names a register. -/
theorem csrCheck_of_readOnly (h : csrReadOnly n = true) : csrCheck n true s = .error .illegalInstruction := by
  cases hn : csrNamed s.cfg n <;> simp [csrCheck, hn, h]

/-- Below M-mode a number of the M level raises IllegalInstruction. -/
theorem csrCheck_of_level_m (hl : csrLevel n = 3#2) (hp : s.priv ≠ .m) :
    csrCheck n w s = .error .illegalInstruction := by
  cases hn : csrNamed s.cfg n <;> simp [csrCheck, hn, hl, hp]

/-- In U-mode with V=0 every number above the U level raises IllegalInstruction. -/
theorem csrCheck_of_user (hl : csrLevel n ≠ 0#2) (hp : s.priv = .u) (hv : s.v = false) :
    csrCheck n w s = .error .illegalInstruction := by
  have hlevels : csrLevel n = 1#2 ∨ csrLevel n = 2#2 ∨ csrLevel n = 3#2 := by
    revert hl
    generalize csrLevel n = l
    revert l
    decide
  cases hn : csrNamed s.cfg n with
  | none => exact csrCheck_of_unnamed hn w
  | some r => rcases hlevels with hl | hl | hl <;> simp [csrCheck, hn, hl, hp, hv]

/-- With V=1 a number of the HS level, and in VU-mode one of the S level, raises VirtualInstruction. -/
theorem csrCheck_of_virtual (hn : csrNamed s.cfg n ≠ none) (hro : csrReadOnly n = false) (hv : s.v = true)
    (hl : csrLevel n = 2#2 ∨ csrLevel n = 1#2 ∧ s.priv = .u) : csrCheck n w s = .error .virtualInstruction := by
  obtain ⟨r, hr⟩ := Option.ne_none_iff_exists'.mp hn
  rcases hl with hl | ⟨hl, hp⟩
  · simp [csrCheck, hr, hro, hl, hv]
  · simp [csrCheck, hr, hro, hl, hv, hp]

/-- In M-mode a number of the M level that is not read-only reaches its register. -/
theorem csrCheck_of_level_m_machine {r : Csr} (hn : csrNamed s.cfg n = some r) (hro : csrReadOnly n = false)
    (hl : csrLevel n = 3#2) (hp : s.priv = .m) : csrCheck n w s = .ok (csrReached s.v r) := by
  have htvm : tvmActs s.mstatus s.mode = false := by simp [tvmActs, inHs, State.mode, hp]
  simp [csrCheck, hn, hro, hl, hp, htvm]

/-- In HS-mode a number of the HS level reaches its register, unless TVM guards it (R115). -/
theorem csrCheck_of_hs {r : Csr} (hn : csrNamed s.cfg n = some r) (hro : csrReadOnly n = false)
    (hl : csrLevel n = 2#2) (hp : s.priv = .s) (hv : s.v = false) :
    csrCheck n w s = if tvmGuards r ∧ s.mstatus.tvm then .error (tvmExc s.cfg) else .ok (csrReached false r) := by
  have htvm : tvmActs s.mstatus s.mode = s.mstatus.tvm := by simp [tvmActs, inHs, State.mode, hp, hv]
  simp [csrCheck, hn, hro, hl, hp, hv, htvm]

end

theorem csrReadOnly_of_ne {n : CsrNum} (h : n.extractLsb' 10 2 ≠ 3#2) : csrReadOnly n = false := beq_false_of_ne h

theorem csrReadOnly_of_eq {n : CsrNum} (h : n.extractLsb' 10 2 = 3#2) : csrReadOnly n = true := beq_iff_eq.mpr h

/-- Settles O30: each clause is one case of the check. -/
theorem csrCheckRaises : Obligations.CsrCheckRaises := by
  intro s i n w hi
  refine ⟨fun hn => ?_, fun hw hro => ?_, fun hl hp => ?_, fun hn hro hl hv => ?_, fun hl hv hp => ?_,
    fun hn hro hl hp hv => ?_, fun hl hp hv => ?_, fun hl hro hp hn => ?_⟩
  · exact exec_of_csrCheck_error hi (csrCheck_of_unnamed hn w)
  · subst hw
    exact exec_of_csrCheck_error hi (csrCheck_of_readOnly (csrReadOnly_of_eq hro))
  · exact exec_of_csrCheck_error hi (csrCheck_of_level_m hl hp)
  · exact exec_of_csrCheck_error hi (csrCheck_of_virtual hn (csrReadOnly_of_ne hro) hv (.inl hl))
  · exact exec_of_csrCheck_error hi (csrCheck_of_user (by rw [csrLevel, hl]; decide) hp hv)
  · exact exec_of_csrCheck_error hi (csrCheck_of_virtual hn (csrReadOnly_of_ne hro) hv (.inr ⟨hl, hp⟩))
  · exact exec_of_csrCheck_error hi (csrCheck_of_user (by rw [csrLevel, hl]; decide) hp hv)
  · exact exec_of_csrCheck_foreign hi (csrCheck_of_level_m_machine hn (csrReadOnly_of_ne hro) hl hp)

/-! ## `hgatp` and `vsatp` under TVM -/

theorem csrNamed_hgatp (c : Config) : csrNamed c 0x680#12 = some .hgatp := csrNamed_of_lookup (by decide) (by decide)

theorem csrNamed_vsatp (c : Config) : csrNamed c 0x280#12 = some .vsatp := csrNamed_of_lookup (by decide) (by decide)

/-- In HS-mode `hgatp` is reached exactly where TVM is 0. -/
theorem csrCheck_hgatp_hs {s : State} (hp : s.priv = .s) (hv : s.v = false) (w : Bool) :
    csrCheck 0x680#12 w s = if s.mstatus.tvm then .error (tvmExc s.cfg) else .ok .hgatp := by
  have hcheck := csrCheck_of_hs (w := w) (csrNamed_hgatp s.cfg) (by decide) (by decide) hp hv
  simpa [tvmGuards, csrReached] using hcheck

/-- In HS-mode `vsatp` is reached whatever TVM holds. -/
theorem csrCheck_vsatp_hs {s : State} (hp : s.priv = .s) (hv : s.v = false) (w : Bool) :
    csrCheck 0x280#12 w s = .ok .vsatp := by
  have hcheck := csrCheck_of_hs (w := w) (csrNamed_vsatp s.cfg) (by decide) (by decide) hp hv
  simpa [tvmGuards, csrReached] using hcheck

/-- Settles O32: both numbers are of the HS level, and TVM guards `hgatp` only. -/
theorem tvmBlocksHgatpInHsMode : Obligations.TvmBlocksHgatpInHsMode := by
  intro s i w
  have hgatp := csrNamed_hgatp s.cfg
  have vsatp := csrNamed_vsatp s.cfg
  refine ⟨fun hi => ⟨fun hp hv htvm hexc => ?_, fun hv => ?_, fun hp hv => ?_, fun hp hv htvm => ?_⟩,
    fun hi => ⟨fun hv => ?_, fun hp hv => ?_⟩⟩
  · have hcheck := csrCheck_hgatp_hs hp hv w
    rw [if_pos htvm, tvmExc, hexc] at hcheck
    exact exec_of_csrCheck_error hi hcheck
  · exact exec_of_csrCheck_error hi (csrCheck_of_virtual (by simp [hgatp]) (by decide) hv (.inl (by decide)))
  · exact exec_of_csrCheck_ok hi (csrCheck_machine hp hv hgatp (by decide) w) (by simp)
  · have hcheck := csrCheck_hgatp_hs hp hv w
    rw [if_neg (by simp [htvm])] at hcheck
    exact exec_of_csrCheck_ok hi hcheck (by simp)
  · exact exec_of_csrCheck_error hi (csrCheck_of_virtual (by simp [vsatp]) (by decide) hv (.inl (by decide)))
  · cases hpriv : s.priv with
    | u => exact absurd hpriv hp
    | s => exact exec_of_csrCheck_ok hi (csrCheck_vsatp_hs hpriv hv w) (by simp)
    | m => exact exec_of_csrCheck_ok hi (csrCheck_machine hpriv hv vsatp (by decide) w) (by simp)

end Sys2Proof.Machine

/-! PROOF. What a write of an interrupt register changes (40_csr_access.md R110 to R112, R116), and what `mtval2` and `mtinst`
hold after one (R113, R114). -/

namespace Sys2Proof.Machine

/-- No CSR write changes a general register, memory or the pc. -/
theorem csrWrite_frame (r : Csr) (v : Word) (s : State) :
    SameRegs s (csrWrite r v s) ∧ SameMemory s (csrWrite r v s) ∧ (csrWrite r v s).pc = s.pc :=
  ⟨x_csrWrite r v s, byteAt_csrWrite r v s, csrWrite_pc r v s⟩

/-! ## Merged bits -/

/-- A mask inside the writable bits sees the value written. -/
theorem mergeBits_and {writable mask : BitVec 16} (h : mask &&& writable = mask) (old a : BitVec 16) :
    mergeBits writable old a &&& mask = a &&& mask := by
  rw [← h]
  ext i hi
  simp only [mergeBits, BitVec.getElem_and, BitVec.getElem_or, BitVec.getElem_not]
  cases writable[i] <;> simp

theorem getLsbD_mergeBits (writable old a : BitVec 16) (i : Nat) :
    (mergeBits writable old a).getLsbD i = if writable.getLsbD i then a.getLsbD i else old.getLsbD i := by
  have hold : (old.getLsbD i && decide (i < 16)) = old.getLsbD i := by
    simpa using BitVec.lt_of_getLsbD (x := old) (i := i)
  simp only [mergeBits, BitVec.getLsbD_or, BitVec.getLsbD_and, BitVec.getLsbD_not]
  cases writable.getLsbD i <;> simp [hold, -BitVec.getLsbD_eq_getElem]

/-- A bit of a 16-bit register as a read shows it. -/
theorem getLsbD_setWidth_low (b : BitVec 16) (i : Nat) : (b.setWidth 64).getLsbD i = b.getLsbD i := by
  rw [BitVec.getLsbD_setWidth, Bool.and_eq_right_iff_imp, decide_eq_true_iff]
  exact fun h => (BitVec.lt_of_getLsbD h).trans (by decide)

/-- Under a 16-bit mask the low bits of a word are the word's. -/
theorem getLsbD_setWidth_and (v : Word) (mask : BitVec 16) (i : Nat) :
    ((v.setWidth 16).getLsbD i && mask.getLsbD i) = (v.getLsbD i && mask.getLsbD i) := by
  rw [BitVec.getLsbD_setWidth]
  cases h : mask.getLsbD i
  · simp
  · simp [BitVec.lt_of_getLsbD h]

/-- The low 16 bits of a word under a mask are the word under the mask. -/
theorem setWidth_low_and (v : Word) (mask : BitVec 16) :
    (v.setWidth 16 &&& mask).setWidth 64 = v &&& mask.setWidth 64 := by
  refine BitVec.eq_of_getLsbD_eq fun i _ => ?_
  rw [getLsbD_setWidth_low, BitVec.getLsbD_and, getLsbD_setWidth_and, BitVec.getLsbD_and, getLsbD_setWidth_low]

/-- What a read shows through `mask` after a write of some of the bits of `mask`: the value there, and what it showed
elsewhere. -/
theorem getLsbD_masked_mergeBits {writable mask : BitVec 16} (h : writable &&& mask = writable) (old : BitVec 16) (v : Word)
    (i : Nat) :
    ((mergeBits writable old (v.setWidth 16) &&& mask).setWidth 64).getLsbD i =
      if writable.getLsbD i then v.getLsbD i else ((old &&& mask).setWidth 64).getLsbD i := by
  simp only [getLsbD_setWidth_low, BitVec.getLsbD_and, getLsbD_mergeBits]
  split_ifs with hw
  · have hmask : mask.getLsbD i = true := by
      rw [← h, BitVec.getLsbD_and, Bool.and_eq_true] at hw
      exact hw.2
    have hlow := getLsbD_setWidth_and v mask i
    rw [hmask, Bool.and_true, Bool.and_true] at hlow
    rw [hmask, Bool.and_true, hlow]
  · rfl

/-! ## The bits of the masks (10_state.md R30) -/

/-- A mask whose bits below 16 are those of a list is that list. -/
theorem getLsbD_eq_mem {mask : BitVec 16} {l : List Nat} (h : ∀ i < 16, mask.getLsbD i = decide (i ∈ l))
    (hl : ∀ i ∈ l, i < 16) (i : Nat) : mask.getLsbD i = decide (i ∈ l) := by
  by_cases hi : i < 16
  · exact h i hi
  · rw [BitVec.getLsbD_of_ge mask i (Nat.le_of_not_lt hi), decide_eq_false (mt (hl i) hi)]

theorem getLsbD_mipWritable (i : Nat) : mipWritable.getLsbD i = decide (i ∈ [1, 2, 5, 9]) :=
  getLsbD_eq_mem (by decide) (by decide) i

theorem getLsbD_aliasMask (i : Nat) : aliasMask.getLsbD i = decide (i ∈ [12, 10, 6, 2]) :=
  getLsbD_eq_mem (by decide) (by decide) i

/-- The interrupts of 10_state.md R30; SGEI is among them where GEILEN is not 0. -/
abbrev IntDefined (c : Config) (i : Nat) : Prop := i ∈ [1, 2, 3, 5, 6, 7, 9, 10, 11] ∨ i = 12 ∧ c.geilen ≠ 0

theorem getLsbD_intMask (c : Config) (i : Nat) : (intMask c).getLsbD i = decide (IntDefined c i) := by
  unfold intMask IntDefined
  split
  · next h =>
    rw [getLsbD_eq_mem (l := [1, 2, 3, 5, 6, 7, 9, 10, 11] ++ [12]) (by decide) (by decide) i]
    simp only [List.mem_append, List.mem_singleton, h, ne_eq, not_false_eq_true, and_true]
  · next h =>
    rw [getLsbD_eq_mem (l := [1, 2, 3, 5, 6, 7, 9, 10, 11]) (by decide) (by decide) i]
    simp only [h, and_false, or_false]

theorem decide_intDefined_twelve (c : Config) : decide (IntDefined c 12) = (c.geilen != 0) := by
  rw [Bool.eq_iff_iff]
  simp [IntDefined]

/-- The software bits are defined at every GEILEN. -/
theorem mipWritable_and_intMask (c : Config) : mipWritable &&& intMask c = mipWritable := by
  unfold intMask
  split <;> decide

/-- The aliased ones of some defined bits are defined. -/
theorem and_aliasMask_and_intMask {writable : BitVec 16} {c : Config} (h : writable &&& intMask c = writable) :
    (writable &&& aliasMask) &&& intMask c = writable &&& aliasMask := by
  rw [BitVec.and_assoc, BitVec.and_comm aliasMask, ← BitVec.and_assoc, h]

/-! ## `mip` and `mie`, `hip` and `hie`, bit by bit -/

section
variable (s : State) (v : Word) (i : Nat)

/-- `hip` is the bits 12, 10, 6, 2 of `mip` (10_state.md R31). -/
theorem csrRead_hip : csrRead .hip s = csrRead .mip s &&& 0x1444#64 := BitVec.setWidth_and

/-- `hie` is the bits 12, 10, 6, 2 of `mie` (10_state.md R32). -/
theorem csrRead_hie : csrRead .hie s = csrRead .mie s &&& 0x1444#64 := BitVec.setWidth_and

/-- The mask of the aliased bits keeps each of them. -/
theorem getLsbD_and_aliased (a : Word) : ∀ i ∈ [12, 10, 6, 2], (a &&& 0x1444#64).getLsbD i = a.getLsbD i := by
  intro i hi
  have hmask : ∀ k ∈ [12, 10, 6, 2], (0x1444#64).getLsbD k = true := by decide
  rw [BitVec.getLsbD_and, hmask i hi, Bool.and_true]

theorem getLsbD_csrRead_mip : (csrRead .mip s).getLsbD i = (s.pend.getLsbD i && decide (IntDefined s.cfg i)) := by
  rw [csrRead, getLsbD_setWidth_low, State.mipBits, BitVec.getLsbD_and, getLsbD_intMask]

theorem getLsbD_csrRead_mie : (csrRead .mie s).getLsbD i = (s.enab.getLsbD i && decide (IntDefined s.cfg i)) := by
  rw [csrRead, getLsbD_setWidth_low, State.mieBits, BitVec.getLsbD_and, getLsbD_intMask]

/-- A write of `mip` reaches the software bits (R111). -/
theorem getLsbD_mip_csrWrite_mip : (csrRead .mip (csrWrite .mip v s)).getLsbD i =
    if i ∈ [1, 2, 5, 9] then v.getLsbD i else (csrRead .mip s).getLsbD i := by
  have hread : (csrRead .mip (csrWrite .mip v s)).getLsbD i =
      if mipWritable.getLsbD i then v.getLsbD i else (csrRead .mip s).getLsbD i :=
    getLsbD_masked_mergeBits (mipWritable_and_intMask s.cfg) s.pend v i
  simp only [hread, getLsbD_mipWritable, decide_eq_true_eq]

/-- A write of `hip` reaches VSSIP, the one software bit that is aliased (R116). -/
theorem getLsbD_mip_csrWrite_hip : (csrRead .mip (csrWrite .hip v s)).getLsbD i =
    if i = 2 then v.getLsbD 2 else (csrRead .mip s).getLsbD i := by
  have hread : (csrRead .mip (csrWrite .hip v s)).getLsbD i =
      if (mipWritable &&& aliasMask).getLsbD i then v.getLsbD i else (csrRead .mip s).getLsbD i :=
    getLsbD_masked_mergeBits (and_aliasMask_and_intMask (mipWritable_and_intMask s.cfg)) s.pend v i
  have hbits : (mipWritable &&& aliasMask).getLsbD i = decide (i ∈ [2]) := getLsbD_eq_mem (by decide) (by decide) i
  simp only [hread, hbits, List.mem_singleton, decide_eq_true_eq]
  split_ifs with h
  · rw [h]
  · rfl

/-- A write of `mie` reaches every defined bit (R112). -/
theorem getLsbD_mie_csrWrite_mie :
    (csrRead .mie (csrWrite .mie v s)).getLsbD i = (v.getLsbD i && decide (IntDefined s.cfg i)) := by
  by_cases h : IntDefined s.cfg i
  · have hread : (csrRead .mie (csrWrite .mie v s)).getLsbD i =
        if (intMask s.cfg).getLsbD i then v.getLsbD i else (csrRead .mie s).getLsbD i :=
      getLsbD_masked_mergeBits BitVec.and_self s.enab v i
    rw [hread, getLsbD_intMask, decide_eq_true h, if_pos rfl, Bool.and_true]
  · rw [getLsbD_csrRead_mie, csrWrite_cfg, decide_eq_false h, Bool.and_false, Bool.and_false]

/-- A write of `hie` reaches the defined bits that are aliased (R116). -/
theorem getLsbD_mie_csrWrite_hie : (csrRead .mie (csrWrite .hie v s)).getLsbD i =
    if i ∈ [12, 10, 6, 2] then v.getLsbD i && decide (IntDefined s.cfg i) else (csrRead .mie s).getLsbD i := by
  have hread : (csrRead .mie (csrWrite .hie v s)).getLsbD i =
      if (intMask s.cfg &&& aliasMask).getLsbD i then v.getLsbD i else (csrRead .mie s).getLsbD i :=
    getLsbD_masked_mergeBits (and_aliasMask_and_intMask BitVec.and_self) s.enab v i
  rw [hread, BitVec.getLsbD_and, getLsbD_intMask, getLsbD_aliasMask]
  by_cases h : IntDefined s.cfg i
  · simp only [h, decide_true, Bool.true_and, Bool.and_true, decide_eq_true_eq]
  · have hmie : (csrRead .mie s).getLsbD i = false := by
      rw [getLsbD_csrRead_mie, decide_eq_false h, Bool.and_false]
    simp only [h, decide_false, Bool.false_and, Bool.and_false, Bool.false_eq_true, if_false, hmie, ite_self]

/-- The interrupt registers read 0 above bit 15 (log 34). -/
theorem getLsbD_csrRead_interrupt_high {i : Nat} (hi : 16 ≤ i) :
    ∀ r ∈ [Csr.mip, .mie, .mideleg], (csrRead r s).getLsbD i = false := by
  have hhigh (b : BitVec 16) : (b.setWidth 64).getLsbD i = false := by
    rw [getLsbD_setWidth_low, BitVec.getLsbD_of_ge b i hi]
  intro r hr
  simp only [List.mem_cons, List.not_mem_nil, or_false] at hr
  obtain rfl | rfl | rfl := hr
  all_goals exact hhigh _

end

/-- Settles O34: what `mip` shows bit by bit, and `hip` as its mask. -/
theorem mipWriteChangesTheSoftwareBits : Obligations.MipWriteChangesTheSoftwareBits := by
  rintro s t v rfl
  refine ⟨getLsbD_mip_csrWrite_mip s v, fun hgei => ?_, fun i hi => ?_, by constructor <;> rfl, csrWrite_frame .mip v s⟩
  · rw [getLsbD_csrRead_mip, csrWrite_cfg]
    simp [hgei]
  · rw [csrRead_hip, getLsbD_and_aliased _ i hi]

/-- Settles O35: a write of `mie` leaves the value in the defined bits, and `hie` is the mask of `mie`. -/
theorem mieWriteChangesTheEnables : Obligations.MieWriteChangesTheEnables := by
  rintro s t v rfl
  refine ⟨fun i hi => ?_, ?_, fun i _ hi => ?_, fun i hi => ?_, by constructor <;> rfl, csrWrite_frame .mie v s⟩
  · rw [getLsbD_mie_csrWrite_mie, decide_eq_true (.inl hi), Bool.and_true]
  · rw [getLsbD_mie_csrWrite_mie, decide_intDefined_twelve]
  · have hundefined : ¬ IntDefined s.cfg i := by
      rintro (h | ⟨rfl, -⟩)
      · exact hi (List.mem_append_left [12] h)
      · exact hi (by decide)
    rw [getLsbD_mie_csrWrite_mie, decide_eq_false hundefined, Bool.and_false]
  · rw [csrRead_hie, getLsbD_and_aliased _ i hi]

/-- Settles O36: `hip` and `hie` as masks, and the bits of `mip` and `mie` that a write through them reaches. -/
theorem hipAndHieAreTheSameStorage : Obligations.HipAndHieAreTheSameStorage := by
  intro s v
  refine ⟨csrRead_hip s, csrRead_hie s, fun i hi => getLsbD_csrRead_interrupt_high s hi, ?_, ?_⟩
  · rintro t rfl
    refine ⟨fun i => ?_, by constructor <;> rfl, csrWrite_frame .hie v s⟩
    rw [getLsbD_mie_csrWrite_hie]
    by_cases htwelve : i = 12
    · subst htwelve
      rw [decide_intDefined_twelve]
      rfl
    have hdefined : i ∈ [10, 6, 2] → IntDefined s.cfg i := fun h =>
      .inl ((by decide : ∀ k ∈ [10, 6, 2], k ∈ [1, 2, 3, 5, 6, 7, 9, 10, 11]) i h)
    have hmem : i ∈ [12, 10, 6, 2] ↔ i ∈ [10, 6, 2] := by rw [List.mem_cons, or_iff_right htwelve]
    simp only [hmem, htwelve, if_false]
    split_ifs with h
    · rw [decide_eq_true (hdefined h), Bool.and_true]
    · rfl
  · rintro t rfl
    exact ⟨getLsbD_mip_csrWrite_hip s v, by constructor <;> rfl, csrWrite_frame .hip v s⟩

/-! ## `mideleg` -/

/-- What a write of `mideleg` leaves: the value in bits 9, 5, 1, the fixed bits, and bit 12 as the parameters have it (R110,
10_state.md R27). -/
theorem csrRead_mideleg_csrWrite (s : State) (v : Word) : csrRead .mideleg (csrWrite .mideleg v s) =
    (v &&& 0x222#64) ||| 0x444#64 ||| (midelegBit12 s.cfg (v.setWidth 16)).setWidth 64 := by
  have hkept : mergeBits (midelegWritable s.cfg) s.mideleg (v.setWidth 16) &&& 0x222#16 = v.setWidth 16 &&& 0x222#16 :=
    mergeBits_and (by unfold midelegWritable; split <;> decide) _ _
  have htwelve : midelegBit12 s.cfg (mergeBits (midelegWritable s.cfg) s.mideleg (v.setWidth 16)) =
      midelegBit12 s.cfg (v.setWidth 16) := by
    unfold midelegBit12
    split_ifs with hgei
    · rfl
    · cases hbit : s.cfg.midelegBit12NoGei with
      | zero => rfl
      | one => rfl
      | writable =>
        have hmask : midelegWritable s.cfg = 0x1222#16 := if_pos ⟨not_not.mp hgei, hbit⟩
        exact mergeBits_and (by rw [hmask]; decide) _ _
  change ((mergeBits (midelegWritable s.cfg) s.mideleg (v.setWidth 16) &&& 0x222#16) ||| 0x444#16 |||
    midelegBit12 s.cfg (mergeBits (midelegWritable s.cfg) s.mideleg (v.setWidth 16))).setWidth 64 = _
  rw [hkept, htwelve, BitVec.setWidth_or, BitVec.setWidth_or, setWidth_low_and]
  rfl

/-- Settles O33: the fixed bits read 1 in every state, and bit 12 by its parameter. -/
theorem midelegWriteKeepsItsFixedBits : Obligations.MidelegWriteKeepsItsFixedBits := by
  rintro s t v rfl
  rw [csrRead_mideleg_csrWrite]
  refine ⟨fun i hi => ⟨csrRead_mideleg_fixed s hi, ?_⟩, fun hgei => ?_, fun hgei hbit => ?_, fun hgei hbit => ?_,
    fun hgei hbit => ?_, by constructor <;> rfl, csrWrite_frame .mideleg v s⟩
  · rw [← csrRead_mideleg_csrWrite]
    exact csrRead_mideleg_fixed (csrWrite .mideleg v s) hi
  · simp [midelegBit12, hgei, BitVec.or_assoc]
  · simp [midelegBit12, hgei, hbit]
  · simp [midelegBit12, hgei, hbit, BitVec.or_assoc]
  · have hmask : v &&& 0x1222#64 = (v &&& 0x222#64) ||| (v &&& 0x1000#64) := by
      rw [← BitVec.and_or_distrib_left]
      rfl
    simp only [midelegBit12, hgei, hbit, ne_eq, not_true_eq_false, if_false, setWidth_low_and, hmask]
    rw [BitVec.or_assoc, BitVec.or_comm 0x444#64, ← BitVec.or_assoc]
    rfl

/-! ## `mtval2` and `mtinst` -/

section
variable {m : Mxlen} {reg : WarlReg} {set : LegalRanges} {old v : Word}

theorem warlWrite_of_legal (h : legalIn m set v = true) : warlWrite m reg set old v = v := if_pos h

theorem warlWrite_of_resolved (h : legalIn m set v = false)
    (hresolved : legalIn m set (Config.warlResolve reg old v) = true) :
    warlWrite m reg set old v = Config.warlResolve reg old v := by
  rw [warlWrite, if_neg (Bool.eq_false_iff.mp h), if_pos hresolved]

/-- 0 is legal in every set (92_eei_decisions.md D27). -/
theorem warlWrite_of_zero (h : v = 0#64) : warlWrite m reg set old v = 0#64 := by
  rw [h]
  exact warlWrite_of_legal (legalIn_zero m set)

end

/-- Settles O39: each of the two holds what `warlWrite` leaves. -/
theorem secondTrapRegistersAreWarl : Obligations.SecondTrapRegistersAreWarl := by
  intro s v
  refine ⟨?_, ?_⟩ <;> rintro t rfl
  · exact ⟨warlWrite_of_legal, warlWrite_legal _ _ _ _ v, warlWrite_of_resolved, warlWrite_of_zero,
      by constructor <;> rfl, csrWrite_frame .mtval2 v s⟩
  · exact ⟨warlWrite_of_legal, warlWrite_legal _ _ _ _ v, warlWrite_of_resolved, warlWrite_of_zero,
      by constructor <;> rfl, csrWrite_frame .mtinst v s⟩

end Sys2Proof.Machine

/-! PROOF. The fields of `mstatus` and `mstatush`: where they stand (40_csr_access.md R107, 10_state.md R15, R16), and what a write
leaves in them (R108, R109). -/

namespace Sys2Proof.Machine

/-! ## Positions -/

/-- A field of two bits by its bits. -/
theorem extractLsb'_eq_iff (a : Word) (k : Nat) (b : BitVec 2) :
    a.extractLsb' k 2 = b ↔ a.getLsbD k = b.getLsbD 0 ∧ a.getLsbD (k + 1) = b.getLsbD 1 := by
  constructor
  · rintro rfl
    simp
  · rintro ⟨hlow, hhigh⟩
    refine BitVec.eq_of_getLsbD_eq fun i hi => ?_
    rw [BitVec.getLsbD_extractLsb', decide_eq_true hi, Bool.true_and]
    obtain rfl | rfl : i = 0 ∨ i = 1 := by omega
    · exact hlow
    · exact hhigh

/-- Every bit of the low half of `mstatus`. -/
theorem getLsbD_mstatusLow (f : Mstatus) (i : Nat) : (mstatusLow f).getLsbD i =
    (f.sie && decide (i = 1) || f.mie && decide (i = 3) || f.spie && decide (i = 5) || f.ube && decide (i = 6) ||
      f.mpie && decide (i = 7) || f.spp && decide (i = 8) ||
      (f.vecStatus.getLsbD 0 && decide (i = 9) || f.vecStatus.getLsbD 1 && decide (i = 10)) ||
      (f.mpp.getLsbD 0 && decide (i = 11) || f.mpp.getLsbD 1 && decide (i = 12)) ||
      (f.fs.getLsbD 0 && decide (i = 13) || f.fs.getLsbD 1 && decide (i = 14)) ||
      (f.xs.getLsbD 0 && decide (i = 15) || f.xs.getLsbD 1 && decide (i = 16)) ||
      f.mprv && decide (i = 17) || f.sum && decide (i = 18) || f.mxr && decide (i = 19) || f.tvm && decide (i = 20) ||
      f.tw && decide (i = 21) || f.tsr && decide (i = 22)) := by
  simp only [mstatusLow, BitVec.getLsbD_or, getLsbD_bitAt, getLsbD_fieldAt, Nat.reduceLT, Nat.reduceAdd]

/-- Every bit of `mstatus` when MXLEN=64. -/
theorem getLsbD_mstatusRead64 (f : Mstatus) (i : Nat) : (mstatusRead64 f).getLsbD i =
    ((mstatusLow f).getLsbD i || (f.uxl.getLsbD 0 && decide (i = 32) || f.uxl.getLsbD 1 && decide (i = 33)) ||
      (f.sxl.getLsbD 0 && decide (i = 34) || f.sxl.getLsbD 1 && decide (i = 35)) || f.sbe && decide (i = 36) ||
      f.mbe && decide (i = 37) || f.gva && decide (i = 38) || f.mpv && decide (i = 39) ||
      sdOf f.fs f.xs f.vecStatus && decide (i = 63)) := by
  simp only [mstatusRead64, BitVec.getLsbD_or, getLsbD_bitAt, getLsbD_fieldAt, Nat.reduceLT, Nat.reduceAdd]

/-- Every bit of `mstatus` when MXLEN=32. -/
theorem getLsbD_mstatusRead32 (f : Mstatus) (i : Nat) : (mstatusRead32 f).getLsbD i =
    ((mstatusLow f).getLsbD i || sdOf f.fs f.xs f.vecStatus && decide (i = 31)) := by
  simp only [mstatusRead32, BitVec.getLsbD_or, getLsbD_bitAt, Nat.reduceLT]

/-- Every bit of `mstatush`. -/
theorem getLsbD_mstatushRead (f : Mstatus) (i : Nat) : (mstatushRead f).getLsbD i =
    (f.sbe && decide (i = 4) || f.mbe && decide (i = 5) || f.gva && decide (i = 6) || f.mpv && decide (i = 7)) := by
  simp only [mstatushRead, BitVec.getLsbD_or, getLsbD_bitAt, Nat.reduceLT]

/-- Up to bit 22 `mstatus` reads the same at both widths. -/
theorem getLsbD_mstatusRead_low (m : Mxlen) (f : Mstatus) {i : Nat} (hi : i < 23) :
    (mstatusRead m f).getLsbD i = (mstatusLow f).getLsbD i := by
  have hne {k : Nat} (hk : 23 ≤ k) : decide (i = k) = false := decide_eq_false (by omega)
  cases m with
  | x64 => simp only [mstatusRead, getLsbD_mstatusRead64, hne, Nat.reduceLeDiff, Bool.and_false, Bool.or_false]
  | x32 => simp only [mstatusRead, getLsbD_mstatusRead32, hne, Nat.reduceLeDiff, Bool.and_false, Bool.or_false]

/-! ## Bits that read 0 -/

/-- The bits of `mstatus` that are no field, MXLEN=64 (R15). -/
theorem mstatusRead64_reserved (f : Mstatus) : mstatusRead64 f &&& 0x7FFFFF00FF800015#64 = 0#64 := by
  simp [mstatusRead64, mstatusLow, BitVec.and_or_distrib_right, bitAt_and, fieldAt_and]

/-- The bits of `mstatus` that are no field, MXLEN=32 (R16). -/
theorem mstatusRead32_reserved (f : Mstatus) : mstatusRead32 f &&& 0xFFFFFFFF7F800015#64 = 0#64 := by
  simp [mstatusRead32, mstatusLow, BitVec.and_or_distrib_right, bitAt_and, fieldAt_and]

theorem mstatushRead_reserved (f : Mstatus) : mstatushRead f &&& ~~~0xF0#64 = 0#64 := by
  simp [mstatushRead, BitVec.and_or_distrib_right, bitAt_and]

theorem csrRead_mstatus (s : State) : csrRead .mstatus s = mstatusRead s.cfg.mxlen s.mstatus := rfl

/-- Settles O37: each position by the bits of the three words, SD by `sdOf_eq`. -/
theorem statusFieldsStandAtTheirPositions : Obligations.StatusFieldsStandAtTheirPositions := by
  rintro s sd rfl
  refine ⟨?_, fun hm => ?_, fun hm => ?_, ?_⟩
  · simp only [csrRead_mstatus, extractLsb'_eq_iff, getLsbD_mstatusRead_low, Nat.reduceLT, Nat.reduceAdd, getLsbD_mstatusLow]
    simp
  · simp only [csrRead_mstatus, hm, mstatusRead, extractLsb'_eq_iff, getLsbD_mstatusRead64, getLsbD_mstatusLow, sdOf_eq,
      mstatusRead64_reserved]
    simp
  · simp only [csrRead_mstatus, hm, mstatusRead, getLsbD_mstatusRead32, getLsbD_mstatusLow, sdOf_eq,
      mstatusRead32_reserved]
    simp
  · change _ ∧ _ ∧ _ ∧ _ ∧ mstatushRead s.mstatus &&& ~~~0xF0#64 = 0#64
    simp only [csrRead, getLsbD_mstatushRead, mstatushRead_reserved]
    simp

/-! ## Writes -/

theorem mppWrite_of_legal {old a : BitVec 2} (h : a ≠ 2#2) : mppWrite old a = a := if_neg h

theorem csrWrite_mstatus_mpp (s : State) (v : Word) :
    (csrWrite .mstatus v s).mstatus.mpp = mppWrite s.mstatus.mpp (v.extractLsb' 11 2) := by
  cases hm : s.cfg.mxlen <;> simp [csrWrite, mstatusWrite, mstatusWriteLow, hm]

/-- Settles O38: the fields by the definition of the write, and MPP stays legal. -/
theorem statusWritesChangeTheirFields : Obligations.StatusWritesChangeTheirFields := by
  intro s v
  refine ⟨?_, ?_⟩ <;> rintro t rfl
  · refine ⟨?_, fun h => ?_, ?_, by constructor <;> rfl, csrWrite_frame .mstatus v s⟩
    · cases hm : s.cfg.mxlen <;> simp only [csrWrite, mstatusWrite, mstatusWriteLow, hm]
    · rw [csrWrite_mstatus_mpp, mppWrite_of_legal h]
    · rw [csrWrite_mstatus_mpp]
      exact mppWrite_legal _ _
  · exact ⟨rfl, by constructor <;> rfl, csrWrite_frame .mstatush v s⟩

end Sys2Proof.Machine

/-! PROOF. MRET (41_mret.md R120, 60_exceptions.md R174): what it leaves, that it undoes a trap into M-mode, and that no other
instruction raises V. -/

namespace Sys2Proof.Machine

/-! ## The three outcomes of MRET -/

section
variable {s : State}

theorem exec_mret_of_mpp {p : Priv} (hp : s.priv = .m) (hmpp : privOfBits s.mstatus.mpp = some p) :
    exec .mret s = .next (returnTo p s) := by
  rw [exec_mret, execMret, if_pos hp, hmpp]

theorem exec_mret_of_mpp_two (hp : s.priv = .m) (hmpp : s.mstatus.mpp = 2#2) :
    exec .mret s = .refused .reservedMpp := by
  rw [exec_mret, execMret, if_pos hp, hmpp]
  rfl

theorem exec_mret_of_ne_m (hp : s.priv ≠ .m) : exec .mret s = raiseInstr .illegalInstruction (encode .mret) s := by
  rw [exec_mret, execMret, if_neg hp]

/-- An MRET that answers a next state has returned, in M-mode, or has raised into M-mode. -/
theorem exec_mret_next {t : State} (h : exec .mret s = .next t) :
    (s.priv = .m ∧ ∃ p, t = returnTo p s) ∨ ∃ tr, t = enterM tr s := by
  by_cases hp : s.priv = .m
  · by_cases hmpp : s.mstatus.mpp = 2#2
    · rw [exec_mret_of_mpp_two hp hmpp] at h
      cases h
    · obtain ⟨p, hp'⟩ := privOfBits_of_ne_two hmpp
      rw [exec_mret_of_mpp hp hp'] at h
      cases h
      exact .inl ⟨hp, p, rfl⟩
  · rw [exec_mret_of_ne_m hp] at h
    exact .inr ⟨_, (raiseInstr_next h).2⟩

end

/-- MPP names M-mode exactly when it is 3 (10_state.md R17). -/
theorem privOfBits_eq_m_iff : ∀ b : BitVec 2, privOfBits b = some .m ↔ b = 3#2 := by decide

/-- The word of MRET (30_encoding.md R85). -/
theorem encode_mret : encode .mret = 0x30200073#32 := by decide

/-- Settles O23: in M-mode MRET is `returnTo`, field by field. -/
theorem mretReturnsToTheSavedMode : Obligations.MretReturnsToTheSavedMode := by
  refine ⟨fun s p hp hmpp => ?_, fun s => exec_mret_of_mpp_two, fun s hp => encode_mret ▸ exec_mret_of_ne_m hp⟩
  have hv : (returnTo p s).v = if s.mstatus.mpp = 3#2 then false else s.mstatus.mpv := by
    rw [returnTo_v]
    simp only [← privOfBits_eq_m_iff, hmpp, Option.some.injEq]
  exact ⟨returnTo p s, exec_mret_of_mpp hp hmpp, rfl, hv, rfl, rfl, privOfBits_privBits _, rfl, rfl, rfl, rfl,
    by constructor <;> rfl, x_returnTo s p, byteAt_returnTo s p⟩

/-! ## A trap, then MRET (corner case (iii)) -/

/-- After a trap MRET returns to the level that the trap interrupted. -/
theorem exec_mret_enterM (tr : Trap) (s : State) :
    exec .mret (enterM tr s) = .next (returnTo s.priv (enterM tr s)) :=
  exec_mret_of_mpp rfl (privOfBits_privBits s.priv)

/-- Settles O24: MPV, MPP, MPIE and `mepc` hold what the trap saved there. -/
theorem trapThenMretRestoresTheMode : Obligations.TrapThenMretRestoresTheMode := by
  intro s t tr hlegal h
  obtain ⟨-, rfl⟩ := takeTrap_next h
  have hv : (returnTo s.priv (enterM tr s)).v = s.v := by
    rw [returnTo_v]
    split_ifs with hp
    · exact (hlegal hp).symm
    · rfl
  exact ⟨_, exec_mret_enterM tr s, rfl, hv, rfl, instrAddr_idem s.cfg tr.epc, fun _ => rfl, fun _ => rfl⟩

/-! ## The mode after an instruction (corner case (ii)) -/

/-- The mode is as it was, or the hart has entered M-mode. -/
def ModeKeptOrEntered (s t : State) : Prop := t.mode = s.mode ∨ t.mode = { p := .m, v := false }

theorem modeKeptOrEntered_enterM (tr : Trap) (s u : State) : ModeKeptOrEntered s (enterM tr u) := .inr rfl

theorem modeKeptOrEntered_load {rd : RegIdx} {va : Word} {n : Width} {signed : Bool} {md : Mode} {kind : AccessKind}
    {s t : State} (h : load rd va n signed md kind s = .next t) : ModeKeptOrEntered s t := by
  obtain ⟨value, -, rfl⟩ | ⟨f, -, rfl⟩ := load_next h
  · exact .inl (by simp [State.mode])
  · exact modeKeptOrEntered_enterM _ s s

theorem modeKeptOrEntered_store {va : Word} {n : Width} {value : Word} {md : Mode} {s t : State}
    (h : store va n value md s = .next t) : ModeKeptOrEntered s t := by
  obtain ⟨m, st, hwrite⟩ := memWrite_shape s va n value md
  obtain ⟨-, rfl⟩ | ⟨f, -, rfl⟩ := store_next h
  · exact .inl (by simp [State.mode, hwrite])
  · exact modeKeptOrEntered_enterM _ s _

/-- HFENCE.VVMA raises into M-mode or advances the pc. -/
theorem exec_hfenceVvma_next {rs1 rs2 : RegIdx} {s t : State} (h : exec (.hfenceVvma rs1 rs2) s = .next t) :
    (∃ tr, t = enterM tr s) ∨ t = s.advance := by
  rw [exec_hfenceVvma, execHfenceVvma] at h
  split at h
  · exact .inl ⟨_, (raiseInstr_next h).2⟩
  · cases h
    exact .inr rfl

/-- So does HFENCE.GVMA, with TVM as one more reason to raise. -/
theorem exec_hfenceGvma_next {rs1 rs2 : RegIdx} {s t : State} (h : exec (.hfenceGvma rs1 rs2) s = .next t) :
    (∃ tr, t = enterM tr s) ∨ t = s.advance := by
  rw [exec_hfenceGvma, execHfenceGvma] at h
  split at h
  · exact .inl ⟨_, (raiseInstr_next h).2⟩
  · split at h
    · exact .inl ⟨_, (raiseInstr_next h).2⟩
    · cases h
      exact .inr rfl

theorem modeKeptOrEntered_fence {s t : State} (h : (∃ tr, t = enterM tr s) ∨ t = s.advance) : ModeKeptOrEntered s t := by
  obtain ⟨tr, rfl⟩ | rfl := h
  · exact modeKeptOrEntered_enterM tr s s
  · exact .inl rfl

/-- Every instruction but MRET keeps the mode or enters M-mode. -/
theorem exec_modeKeptOrEntered {i : Instr} {s t : State} (hi : i ≠ .mret) (h : exec i s = .next t) :
    ModeKeptOrEntered s t := by
  obtain ⟨n, w, hf⟩ | ⟨rs1, n, kind, hf⟩ | rfl | ⟨rs1, rs2, rfl⟩ | ⟨rs1, rs2, rfl⟩ := instr_forms i
  · obtain ⟨rd, new, he⟩ := exec_of_csrOf hf
    rw [he] at h
    obtain ⟨e, -, rfl⟩ | ⟨r, -, rfl⟩ := csrAccess_next h
    · exact modeKeptOrEntered_enterM _ s s
    · exact .inl (csrDone_mode _ _ _ _ s)
  · obtain ⟨rd, signed, -, he⟩ | ⟨rs2, -, -, he⟩ := exec_of_hypOf hf <;> rw [he] at h
    · obtain ⟨tr, rfl⟩ | hload := hypLoad_next h
      · exact modeKeptOrEntered_enterM tr s s
      · exact modeKeptOrEntered_load hload
    · obtain ⟨tr, rfl⟩ | hstore := hypStore_next h
      · exact modeKeptOrEntered_enterM tr s s
      · exact modeKeptOrEntered_store hstore
  · exact absurd rfl hi
  · exact modeKeptOrEntered_fence (exec_hfenceVvma_next h)
  · exact modeKeptOrEntered_fence (exec_hfenceGvma_next h)

/-- Keeping the mode and entering M-mode do not raise V. -/
theorem ModeKeptOrEntered.v_false {s t : State} (h : ModeKeptOrEntered s t) (hv : s.v = false) : t.v = false := by
  obtain h | h := h
  · exact (congrArg Mode.v h).trans hv
  · exact congrArg Mode.v h

/-- A return with V = 1 takes it from MPV. -/
theorem mpv_of_returnTo_v {p : Priv} {s : State} (h : (returnTo p s).v = true) : s.mstatus.mpv = true := by
  rw [returnTo_v] at h
  split_ifs at h
  exact h

/-- An instruction returns, in M-mode and by MRET, or keeps the mode or enters M-mode. -/
theorem exec_returned_or_mode {i : Instr} {s t : State} (h : exec i s = .next t) :
    (i = .mret ∧ s.priv = .m ∧ ∃ p, t = returnTo p s) ∨ ModeKeptOrEntered s t := by
  by_cases hi : i = .mret
  · subst hi
    obtain ⟨hp, hret⟩ | ⟨tr, rfl⟩ := exec_mret_next h
    · exact .inl ⟨rfl, hp, hret⟩
    · exact .inr (modeKeptOrEntered_enterM tr s s)
  · exact .inr (exec_modeKeptOrEntered hi h)

/-- Settles O26: only a return can raise V, and it takes V from MPV. -/
theorem onlyMretRaisesV : Obligations.OnlyMretRaisesV := by
  intro i s t h
  obtain ⟨rfl, hp, p, rfl⟩ | hmode := exec_returned_or_mode h
  · exact ⟨fun _ ht => ⟨rfl, hp, mpv_of_returnTo_v ht⟩, .inr (.inr ⟨rfl, hp⟩)⟩
  · refine ⟨fun hs ht => ?_, hmode.imp_right .inl⟩
    rw [hmode.v_false hs] at ht
    cases ht

end Sys2Proof.Machine

/-! PROOF. The registers that hold what is written to them (log 18, 19, 20; 41_mret.md R120). -/

namespace Sys2Proof.Machine

/-! ## `hstatus` -/

/-- The bits of `hstatus` that a write reaches (log 18): GVA, SPV, SPVP, HU, VGEIN, VTVM, VTW and VTSR. -/
def hstatusWritable : List Nat := [6, 7, 8, 9, 12, 13, 14, 15, 16, 17, 20, 21, 22]

/-- A bit of VGEIN at its position. -/
theorem getLsbD_fieldAt_vgein (a : BitVec 6) (i : Nat) :
    (fieldAt a 12).getLsbD i = (decide (12 ≤ i) && a.getLsbD (i - 12)) := by
  rw [fieldAt, BitVec.getLsbD_shiftLeft, BitVec.getLsbD_setWidth]
  have hhigh : 6 ≤ i - 12 → a.getLsbD (i - 12) = false := BitVec.getLsbD_of_ge a (i - 12)
  grind

/-- Every bit of a read of `hstatus`. -/
theorem getLsbD_hstatusRead (m : Mxlen) (f : Hstatus) (i : Nat) : (hstatusRead m f).getLsbD i =
    (f.vsbe && decide (i = 5) || f.gva && decide (i = 6) || f.spv && decide (i = 7) || f.spvp && decide (i = 8) ||
      f.hu && decide (i = 9) || decide (12 ≤ i) && f.vgein.getLsbD (i - 12) || f.vtvm && decide (i = 20) ||
      f.vtw && decide (i = 21) || f.vtsr && decide (i = 22) ||
      decide (m = .x64) && (f.vsxl.getLsbD 0 && decide (i = 32) || f.vsxl.getLsbD 1 && decide (i = 33))) := by
  cases m <;> simp [hstatusRead, hstatusLow, getLsbD_bitAt, getLsbD_fieldAt, getLsbD_fieldAt_vgein]

/-- What a write of `hstatus` shows, bit by bit. -/
theorem getLsbD_hstatusRead_hstatusWrite (m : Mxlen) (v : Word) (f : Hstatus) (i : Nat) :
    (hstatusRead m (hstatusWrite v f)).getLsbD i =
      if i ∈ hstatusWritable then v.getLsbD i else (hstatusRead m f).getLsbD i := by
  simp only [getLsbD_hstatusRead, hstatusWrite]
  split_ifs with hi
  · simp only [hstatusWritable, List.mem_cons, List.not_mem_nil, or_false] at hi
    rcases hi with rfl | rfl | rfl | rfl | rfl | rfl | rfl | rfl | rfl | rfl | rfl | rfl | rfl <;> simp
  · simp only [hstatusWritable, List.mem_cons, List.not_mem_nil, or_false, not_or] at hi
    have hvgein (a : BitVec 6) : (decide (12 ≤ i) && a.getLsbD (i - 12)) = false := by
      by_cases hlow : 12 ≤ i
      · rw [BitVec.getLsbD_of_ge a (i - 12) (by omega), Bool.and_false]
      · rw [decide_eq_false hlow, Bool.false_and]
    simp only [hvgein]
    simp [hi]

/-! ## The seven registers and `mtval` -/

/-- Settles O41: each register holds the value cut to XLEN, `mepc` an instruction address, `hstatus` its written bits. -/
theorem otherCsrsHoldWhatIsWritten : Obligations.OtherCsrsHoldWhatIsWritten := by
  intro s v
  refine ⟨fun r hr => ?_, instrAddr_idem s.cfg v, getLsbD_hstatusRead_hstatusWrite s.cfg.mxlen v s.hstatus,
    by constructor <;> rfl, by constructor <;> rfl, by constructor <;> rfl, by constructor <;> rfl,
    by constructor <;> rfl, by constructor <;> rfl, by constructor <;> rfl, fun r _ => csrWrite_frame r v s, rfl⟩
  simp only [List.mem_cons, List.not_mem_nil, or_false] at hr
  obtain rfl | rfl | rfl | rfl | rfl := hr
  all_goals exact xlenCut_idem s.cfg.mxlen v

end Sys2Proof.Machine

/-! PROOF. The fences (42_hfence.md R125, R126; 10_state.md R21): the check that both make, and TVM for HFENCE.GVMA alone. -/

namespace Sys2Proof.Machine

section
variable {s : State} {rs1 rs2 : RegIdx}

/-! ## The check of both fences -/

theorem fenceCheck_of_virtual (hv : s.v = true) : fenceCheck s = some .virtualInstruction := by
  rw [fenceCheck, if_pos hv]

theorem fenceCheck_of_user (hv : s.v = false) (hp : s.priv = .u) : fenceCheck s = some .illegalInstruction := by
  rw [fenceCheck, if_neg (Bool.eq_false_iff.mp hv), if_pos hp]

theorem fenceCheck_eq_none (hv : s.v = false) (hp : s.priv ≠ .u) : fenceCheck s = none := by
  rw [fenceCheck, if_neg (Bool.eq_false_iff.mp hv), if_neg hp]

/-- Either fence raises what the check finds. -/
theorem exec_fence_of_fenceCheck_some {i : Instr} {e : Exc} (hi : i ∈ [Instr.hfenceVvma rs1 rs2, .hfenceGvma rs1 rs2])
    (hcheck : fenceCheck s = some e) : exec i s = raiseInstr e (encode i) s := by
  simp only [List.mem_cons, List.not_mem_nil, or_false] at hi
  obtain rfl | rfl := hi
  · rw [exec_hfenceVvma, execHfenceVvma, hcheck]
  · rw [exec_hfenceGvma, execHfenceGvma, hcheck]

/-! ## A fence that passes the check -/

/-- HFENCE.VVMA then advances the pc, whatever TVM holds. -/
theorem exec_hfenceVvma_of_fenceCheck_none (hcheck : fenceCheck s = none) :
    exec (.hfenceVvma rs1 rs2) s = .next s.advance := by
  rw [exec_hfenceVvma, execHfenceVvma, hcheck]
  rfl

/-- HFENCE.GVMA then still asks whether TVM acts. -/
theorem exec_hfenceGvma_of_fenceCheck_none (hcheck : fenceCheck s = none) :
    exec (.hfenceGvma rs1 rs2) s =
      if tvmActs s.mstatus s.mode then raiseInstr (tvmExc s.cfg) (encode (.hfenceGvma rs1 rs2)) s
      else .next s.advance := by
  rw [exec_hfenceGvma, execHfenceGvma, hcheck]
  rfl

/-- TVM acts where it is set, in HS-mode only (R179). -/
theorem tvmActs_mode_iff : tvmActs s.mstatus s.mode = true ↔ s.mstatus.tvm = true ∧ s.priv = .s ∧ s.v = false := by
  simp [tvmActs, inHs, State.mode]

end

/-- Settles O42: the check has three outcomes, and after it TVM is asked by HFENCE.GVMA alone and acts in HS-mode alone. -/
theorem tvmBlocksGvmaAndNotVvma : Obligations.TvmBlocksGvmaAndNotVvma := by
  intro s rs1 rs2
  refine ⟨fun hv hp => ?_, fun hv hmode => ?_, fun hv hp htvm hexc => ?_, fun i hi => ⟨fun hv => ?_, fun hv hp => ?_⟩⟩
  · exact exec_hfenceVvma_of_fenceCheck_none (fenceCheck_eq_none hv hp)
  · have hcheck : fenceCheck s = none := fenceCheck_eq_none hv fun hu => by simp [hu] at hmode
    have hacts : ¬ tvmActs s.mstatus s.mode = true := by
      rw [tvmActs_mode_iff]
      rintro ⟨htvm, hs, -⟩
      simp [hs, htvm] at hmode
    rw [exec_hfenceGvma_of_fenceCheck_none hcheck, if_neg hacts]
    rfl
  · have hcheck : fenceCheck s = none := fenceCheck_eq_none hv (by simp [hp])
    rw [exec_hfenceGvma_of_fenceCheck_none hcheck, if_pos (tvmActs_mode_iff.mpr ⟨htvm, hp, hv⟩), tvmExc, hexc]
  · exact exec_fence_of_fenceCheck_some hi (fenceCheck_of_virtual hv)
  · exact exec_fence_of_fenceCheck_some hi (fenceCheck_of_user hv hp)

end Sys2Proof.Machine

/-! PROOF. HLV, HLVX and HSV (43_hlv_hsv.md R135 to R148): the check, the accesses that complete, and the faults of `Translate`,
which a fetch shares with them (60_exceptions.md R160 to R165, 20_memory.md R61, R65). -/

namespace Sys2Proof.Machine

/-! ## The check -/

section
variable {s : State}

theorem hypCheck_of_virtual (hv : s.v = true) : hypCheck s = some .virtualInstruction := by
  rw [hypCheck, if_pos hv]

theorem hypCheck_of_user (hv : s.v = false) (hp : s.priv = .u) (hhu : s.hstatus.hu = false) :
    hypCheck s = some .illegalInstruction := by
  rw [hypCheck, if_neg (Bool.eq_false_iff.mp hv), if_pos ⟨hp, hhu⟩]

/-- Every one of them raises what the check finds, a load as a store. -/
theorem exec_of_hypCheck_some {i : Instr} {rs1 : RegIdx} {n : Width} {kind : AccessKind} {e : Exc}
    (hi : hypOf i = some (rs1, n, kind)) (hwf : i.wellFormed s.cfg.mxlen = true) (hcheck : hypCheck s = some e) :
    exec i s = raiseInstr e (encode i) s := by
  obtain ⟨rd, signed, -, hload⟩ | ⟨rs2, -, -, hstore⟩ := exec_of_hypOf hi
  · rw [hload, hypLoad, if_pos hwf, hcheck]
  · rw [hstore, hypStore, if_pos hwf, hcheck]

end

/-- Settles O44: the check finds VirtualInstruction with V = 1 and IllegalInstruction in U-mode without HU. -/
theorem hypervisorAccessesAreChecked : Obligations.HypervisorAccessesAreChecked := fun _ _ _ hi hwf =>
  ⟨fun hv => exec_of_hypCheck_some hi hwf (hypCheck_of_virtual hv),
    fun hv hp hhu => exec_of_hypCheck_some hi hwf (hypCheck_of_user hv hp hhu)⟩

/-! ## Accesses that complete -/

section
variable {s : State} {i : Instr} {rs1 : RegIdx} {n : Width} {f : Nat → Nat} (hallowed : HypAllowed s)
  (hle : LittleEndian s)
include hallowed hle

/-- An HLV or HLVX whose bytes `Translate` lets through extends their value. -/
theorem hypLoad_bytesAt {rd : RegIdx} {signed : Bool} {kind : AccessKind} {value : Word}
    (hwf : i.wellFormed s.cfg.mxlen = true) (h : BytesAt s (s.x rs1) n kind (hypMode s) f)
    (hvalue : loadedValue signed s n f = value) :
    ∃ t, hypLoad i rd rs1 n signed kind s = .next t ∧ LoadEffect rd value s t := by
  rw [hypLoad_of_allowed hwf hallowed, ← hvalue]
  exact load_bytesAt rd signed (xlenCut_x s rs1) hle h

/-- An HSV whose bytes `Translate` lets through writes them. -/
theorem hypStore_bytesAt {rs2 : RegIdx} (hwf : i.wellFormed s.cfg.mxlen = true) (hmem : MemCanonical s)
    (hd : Distinct f (widthBytes n)) (htab : TablesApart s (s.x rs1) n f)
    (h : BytesAt s (s.x rs1) n .write (hypMode s) f) :
    ∃ t, hypStore i rs2 rs1 n s = .next t ∧ StoreEffect f (widthBytes n) (s.x rs2) s t := by
  rw [hypStore_of_allowed hwf hallowed]
  exact store_bytesAt (s.x rs2) (xlenCut_x s rs1) hle hmem hd htab h

end

/-- Settles O46: the value of one byte is that byte. -/
theorem byteLoadsExtendTheByte : Obligations.ByteLoadsExtendTheByte := by
  intro s rd rs1 f hallowed hle h
  rw [exec_hlvB, exec_hlvBu]
  exact ⟨hypLoad_bytesAt hallowed hle rfl h (loadedValue_b true s f),
    hypLoad_bytesAt hallowed hle rfl h (loadedValue_b false s f)⟩

/-- Settles O47: the value of two bytes is the second above the first, aligned or split. -/
theorem halfwordLoadsAssembleTwoBytes : Obligations.HalfwordLoadsAssembleTwoBytes := by
  intro s rd rs1 f hallowed hle
  rw [exec_hlvH, exec_hlvHu, exec_hlvxHu]
  exact ⟨fun h => ⟨hypLoad_bytesAt hallowed hle rfl h (loadedValue_h true s f rfl),
      hypLoad_bytesAt hallowed hle rfl h (loadedValue_h false s f rfl)⟩,
    fun h => hypLoad_bytesAt hallowed hle rfl h (loadedValue_h false s f rfl)⟩

/-- Settles O48: the value of four bytes is `word`, that of eight has `word` as its low half; HLV.WU and HLV.D are well-formed
when MXLEN=64. -/
theorem wordLoadsAssembleTheirBytes : Obligations.WordLoadsAssembleTheirBytes := by
  intro s rd rs1 f word hallowed hle hword
  rw [exec_hlvW, exec_hlvxWu, exec_hlvWu, exec_hlvD]
  exact ⟨fun h => hypLoad_bytesAt hallowed hle rfl h (loadedValue_w true s f hword),
    fun h => hypLoad_bytesAt hallowed hle rfl h (loadedValue_w false s f hword),
    fun h hm => hypLoad_bytesAt hallowed hle (by rw [hm]; rfl) h (loadedValue_w false s f hword),
    fun h hm => hypLoad_bytesAt hallowed hle (by rw [hm]; rfl) h (loadedValue_d false s f hword)⟩

/-- Settles O49: each byte of the value is at its address; a byte store is one portion, so no table can be in its way. -/
theorem storesWriteTheirBytes : Obligations.StoresWriteTheirBytes := by
  intro s rs2 rs1 f hallowed hle hmem
  rw [exec_hsvB, exec_hsvH, exec_hsvW, exec_hsvD]
  exact ⟨fun hd h => hypStore_bytesAt hallowed hle rfl hmem hd (.inl (Nat.mod_one _)) h,
    fun hd htab h => hypStore_bytesAt hallowed hle rfl hmem hd htab h,
    fun hd htab h => hypStore_bytesAt hallowed hle rfl hmem hd htab h,
    fun hd htab h hm => hypStore_bytesAt hallowed hle (by rw [hm]; rfl) hmem hd htab h⟩

/-! ## Accesses that `Translate` stops -/

section
variable {s : State} {i : Instr} {rs1 : RegIdx} {n : Width} {kind : AccessKind} (hi : hypOf i = some (rs1, n, kind))
  (hwf : i.wellFormed s.cfg.mxlen = true) (hallowed : HypAllowed s)
include hi hwf hallowed

/-- An aligned access that stops reads and writes nothing. -/
theorem exec_of_aligned_stop {e : AccessStop} (hal : (s.x rs1).toNat % widthBytes n = 0)
    (he : translate s (s.x rs1) (widthBytes n) kind (hypMode s) = .error e) : exec i s = stopResult e s := by
  obtain ⟨rd, signed, -, hload⟩ | ⟨rs2, rfl, -, hstore⟩ := exec_of_hypOf hi
  · rw [hload, hypLoad_of_allowed hwf hallowed, load_of_stop (memRead_of_aligned_stop (xlenCut_x s rs1) hal he)]
  · rw [hstore, hypStore_of_allowed hwf hallowed,
      store_of_stop (memWrite_of_aligned_stop _ (xlenCut_x s rs1) hal he)]

/-- A split access of which some bytes fault takes the trap of one of them; only a store has a value to write. -/
theorem exec_of_bytesFault {f : Nat → Nat} {value : Word} (hvalue : ∀ rs2, storeSource i = some rs2 → value = s.x rs2)
    (hle : LittleEndian s) (hmem : MemCanonical s) (h : BytesFault s (s.x rs1) n kind (hypMode s) f) :
    ∃ t, exec i s = .next t ∧ SplitFaultEffect (s.x rs1) n kind (hypMode s) f value s t := by
  obtain ⟨rd, signed, -, hload⟩ | ⟨rs2, rfl, hsource, hstore⟩ := exec_of_hypOf hi
  · rw [hload, hypLoad_of_allowed hwf hallowed]
    exact load_bytesFault rd signed value h
  · rw [hstore, hypStore_of_allowed hwf hallowed, hvalue rs2 hsource]
    exact store_bytesFault (s.x rs2) hle hmem h

end

/-! ## Fetches that `Translate` stops -/

section
variable {s : State} {k len : Nat} {stop : AccessStop}

theorem fetchParcel_of_stop (h : translate s (portionAddr s s.pc k) len .execute s.mode = .error stop) :
    fetchParcel s k len = .error (.stop stop) := by
  simp only [fetchParcel, fetchMode, h]

/-- The portions of a fetch: four bytes at the pc or, where instructions have more than one length, two there and then two more,
which are fetched where the first two are let through, no store has written them, and they announce a 32-bit instruction
(30_encoding.md R80, 60_exceptions.md R165). -/
def FetchesPortion (s : State) (k len : Nat) : Prop :=
  (s.cfg.variableLength = false ∧ k = 0 ∧ len = 4) ∨ (s.cfg.variableLength = true ∧ k = 0 ∧ len = 2) ∨
    (s.cfg.variableLength = true ∧ k = 2 ∧ len = 2 ∧
      ∃ pa, translate s (portionAddr s s.pc 0) 2 .execute s.mode = .ok pa ∧ (∀ j < 2, physByte pa j ∉ s.stored) ∧
        (s.byteAt (physByte pa 0)).extractLsb' 0 2 = 3#2 ∧ (s.byteAt (physByte pa 0)).extractLsb' 2 3 ≠ 7#3)

/-- The fetch ends in the portion that stops. -/
theorem FetchesPortion.fetch_eq_stop (hk : FetchesPortion s k len)
    (h : translate s (portionAddr s s.pc k) len .execute s.mode = .error stop) : fetch s = .stop stop := by
  have hstop := fetchParcel_of_stop h
  obtain ⟨hvl, rfl, rfl⟩ | ⟨hvl, rfl, rfl⟩ | ⟨hvl, rfl, rfl, pa, hpa, hst, hlow, hmid⟩ := hk
  · simp [fetch, hvl, hstop]
  · simp [fetch, hvl, hstop]
  · have hannounce : announces32 (s.byteAt (physByte pa 0)) = true := by simp [announces32, hlow, hmid]
    simp [fetch, hvl, fetchParcel_of_unstored (k := 0) hpa hst, hannounce, hstop]

/-- With no event and no interrupt a step whose fetch stops does what the stop does. -/
theorem step_of_fetch_stop (henv : s.env = []) (hint : pendingInterrupt s = none) (hfetch : fetch s = .stop stop) :
    step s = stopResult stop s := by
  simp only [step, henv, hartStep, hint, runInstr, hfetch]

end

/-- The trap of a fault at an aligned pc saves the pc. -/
theorem FaultEffect.mepc_eq_pc {tr : Trap} {code : Nat} {va : Word} {isGva : Bool} {gpa : Option Word} {s t : State}
    (h : FaultEffect tr code va isGva gpa s t) (hpc : PcAligned s) : t.mepc = s.pc := by
  rw [h.raised.entry.mepc, h.epc, hpc]

/-- Settles O54: an aligned access and a fetch end in the stop of `Translate`, a split access in that of one of its bytes; the
fault is about the address that was translated, a guest's exactly when V = 1. -/
theorem faultingAccessesTrapWithTheGuestAddress : Obligations.FaultingAccessesTrapWithTheGuestAddress := by
  refine ⟨fun s i rs1 n kind e hi hwf hallowed hal he htarget => ?_,
    fun s i rs1 n kind f hi hwf hallowed hle hmem h =>
      exec_of_bytesFault hi hwf hallowed (fun rs2 hsource => by rw [hsource]) hle hmem h,
    fun s k len va e henv hint hva hk he htarget => ?_⟩
  · obtain ⟨htval, hgva⟩ := translate_fault_addr he
    have hguest : e.tvalIsGva = true := hgva
    rw [exec_of_aligned_stop hi hwf hallowed hal he, ← hguest]
    exact stopResult_fault htval (xlenCut_x s rs1) htarget
  · subst hva
    obtain ⟨htval, hgva⟩ := translate_fault_addr he
    have hmode : e.tvalIsGva = s.v := hgva
    have hportion : FetchesPortion s k len := hk
    obtain ⟨t, tr, ht, heffect⟩ := stopResult_fault htval (xlenCut_idem _ _) htarget
    rw [step_of_fetch_stop henv hint (hportion.fetch_eq_stop he), ← hmode]
    exact ⟨t, tr, ht, heffect, heffect.mepc_eq_pc⟩

end Sys2Proof.Machine

/-! PROOF. Taking a trap into M-mode (60_exceptions.md R160 to R169, R175, R176): where it goes, and what it leaves. -/

namespace Sys2Proof.Machine

/-! ## Where an exception goes (R160, R176) -/

/-- Below M-mode an exception of `medeleg` goes to HS-mode or VS-mode, and neither entry has a meaning here. -/
theorem takeTrap_of_delegated {tr : Trap} {s : State} (hi : tr.isInterrupt = false) (hp : s.priv ≠ .m)
    (hcode : tr.code ≠ 11) (h : tr.code ∈ s.cfg.medeleg) : takeTrap tr s = .refused .trapBelowM := by
  have htarget : trapTarget tr s = if s.v && s.cfg.hedeleg.contains tr.code then .vs else .hs := by
    simp [trapTarget, hi, hp, hcode, h]
  rw [takeTrap, htarget]
  split_ifs <;> rfl

/-- Settles O22: the target is M-mode in M-mode and for what is not delegated, and one below it otherwise. -/
theorem trapTargetFollowsDelegation : Obligations.TrapTargetFollowsDelegation := fun _ _ hi =>
  ⟨fun hp => takeTrap_of_target (trapTarget_of_m hp hi),
    fun _ h => takeTrap_of_target (trapTarget_of_undelegated hi (.inl h)),
    fun hp h hcode => takeTrap_of_delegated hi hp hcode h⟩

/-! ## What entry saves (R161, R167, R168, R175) -/

/-- Entry changes the mode, `mstatus`, the pc and the five trap registers of R163 to R167, and no other special register. -/
theorem sameSpecials_enterM (tr : Trap) (s : State) :
    SameSpecials { s with
      priv := (enterM tr s).priv, v := (enterM tr s).v, mstatus := (enterM tr s).mstatus, mtval := (enterM tr s).mtval,
      mtval2 := (enterM tr s).mtval2, mtinst := (enterM tr s).mtinst, mepc := (enterM tr s).mepc,
      mcause := (enterM tr s).mcause } (enterM tr s) := by
  constructor <;> rfl

/-- Settles O17: `enterM` has the effect of every entry, saves the mode, and keeps what R161 to R168 do not name. -/
theorem trapEntrySavesTheState : Obligations.TrapEntrySavesTheState := fun s tr htarget =>
  ⟨enterM tr s, takeTrap_of_target htarget, entryEffect_enterM tr s, rfl, privOfBits_privBits s.priv, rfl,
    sameSpecials_enterM tr s⟩

/-- Settles O25: the second trap is taken in M-mode with V = 0, so MPP and MPV name that mode for the MRET. -/
theorem nestedTrapOverwritesTheFirst : Obligations.NestedTrapOverwritesTheFirst := by
  intro s t u tr tr' h h'
  obtain ⟨-, rfl⟩ := takeTrap_next h
  obtain ⟨-, rfl⟩ := takeTrap_next h'
  exact ⟨rfl, privOfBits_privBits .m, rfl, _, exec_mret_enterM tr' (enterM tr s), rfl, rfl⟩

/-! ## The handler's address (R167) -/

/-- Shifted right by 2 and back, a word has lost its two low bits. -/
theorem shiftRight_two_shiftLeft_two (a : Word) : a >>> 2 <<< 2 = a &&& ~~~3#64 := by
  rw [BitVec.shiftLeft_ushiftRight, show BitVec.allOnes 64 <<< 2 = ~~~3#64 by decide]

/-- BASE * 4 is `mtvec` with its MODE cleared. -/
theorem mtvec_base (mtvec : Word) : (mtvec >>> 2) * 4#64 = mtvec &&& ~~~3#64 := by
  rw [show (4#64 : Word) = BitVec.twoPow 64 2 by decide, BitVec.mul_twoPow_eq_shiftLeft, shiftRight_two_shiftLeft_two]

/-- Settles O18: the two cases of the handler's address. -/
theorem trapVectorFollowsMtvec : Obligations.TrapVectorFollowsMtvec := by
  intro s t tr h
  obtain ⟨-, rfl⟩ := takeTrap_next h
  rw [enterM_pc, trapPc, mtvec_base]
  exact ⟨fun hvectored => by rw [if_pos hvectored], fun hdirect => by rw [if_neg hdirect]⟩

/-! ## GVA (R162) -/

/-- Under the rule `guest_va` GVA is what the trap's description says of `mtval`. -/
theorem gvaOf_guestVa {c : Config} (h : c.gvaRule = .guestVa) (tr : Trap) : gvaOf c tr = tr.tvalIsGva := by
  simp only [gvaOf, h]

/-- An interrupt, and an exception whose `mtval` is no address, has no guest virtual address there (R169). -/
theorem envTrap_tvalIsGva_eq_false {e : EnvTrap} (s : State)
    (h : e.isInterrupt = true ∨ e.code ∈ [2, 8, 9, 10, 11, 22]) : (envTrap e s).tvalIsGva = false := by
  obtain hi | hcode := h
  · simp [envTrap, hi]
  · have hpossible : ∀ c ∈ [2, 8, 9, 10, 11, 22], gvaPossible c = false := by decide
    simp [envTrap, hpossible e.code hcode]

/-- Settles O19: entry writes GVA by `gvaOf`, and the environment's records are cut to R169's last column. -/
theorem gvaTellsAGuestVirtualAddress : Obligations.GvaTellsAGuestVirtualAddress := by
  intro s t hrule
  have hgva {tr : Trap} (h : takeTrap tr s = .next t) : t.mstatus.gva = tr.tvalIsGva := by
    obtain ⟨-, rfl⟩ := takeTrap_next h
    exact gvaOf_guestVa hrule tr
  exact ⟨fun tr => hgva, fun e h he => (hgva h).trans (envTrap_tvalIsGva_eq_false s he)⟩

/-! ## `mtval2` (R163) -/

theorem isGuestPageFault_iff {code : Nat} : isGuestPageFault code = true ↔ code ∈ [20, 21, 23] := by
  simp [isGuestPageFault, or_assoc]

/-- `mtval2` is 0 for a trap that is no guest-page fault. -/
theorem mtval2Of_eq_zero {tr : Trap} (h : ¬ (tr.isInterrupt = false ∧ tr.code ∈ [20, 21, 23])) (c : Config) (d : Nat) :
    mtval2Of c tr d = 0#64 := by
  rw [← isGuestPageFault_iff] at h
  rw [mtval2Of, if_neg]
  simpa using h

/-- On a guest-page fault whose address is drawn and legal, `mtval2` reports it. -/
theorem mtval2Of_of_reported {c : Config} {tr : Trap} {d : Nat} {g : Word} (hi : tr.isInterrupt = false)
    (hcode : tr.code ∈ [20, 21, 23]) (hg : tr.gpa = some g) (hdraw : Config.mtval2ReportsGpa d = true)
    (hlegal : legalIn c.mxlen c.mtval2Legal (g >>> 2) = true) : mtval2Of c tr d = g >>> 2 := by
  simp [mtval2Of, hi, isGuestPageFault_iff.mpr hcode, hg, hdraw, hlegal]

/-- Settles O20: 0 but on a guest-page fault, and there the guest address where the draw reports it. -/
theorem mtvalTwoIsZeroOrTheGuestAddress : Obligations.MtvalTwoIsZeroOrTheGuestAddress := by
  intro s t tr h
  obtain ⟨-, rfl⟩ := takeTrap_next h
  refine ⟨?_, fun g hi hcode hg hdraw hlegal => mtval2Of_of_reported hi hcode hg hdraw hlegal,
    mtval2Of_legal s.cfg tr s.draws⟩
  by_cases hfault : tr.isInterrupt = false ∧ tr.code ∈ [20, 21, 23]
  · obtain ⟨hi, hcode⟩ := hfault
    refine (mtval2Of_cases s.cfg tr s.draws).imp_right fun ⟨g, hg, hmtval2⟩ => ⟨hi, hcode, g, hg, hmtval2, ?_⟩
    rw [enterM_mtval2, hmtval2, shiftRight_two_shiftLeft_two]
  · exact .inl (mtval2Of_eq_zero hfault s.cfg s.draws)

/-! ## `mtinst` (R164, R166) -/

/-- Where a legal set has a nonzero value of MXLEN bits, the fallback of R166 is not 0. -/
theorem firstNonzeroLegal_ne_zero {m : Mxlen} {set : LegalRanges}
    (h : ∃ r ∈ set, ∃ k, r.1 ≤ k ∧ k ≤ r.2 ∧ 0 < k ∧ k < 2 ^ mxlenBits m) : firstNonzeroLegal m set ≠ 0#64 := by
  induction set with
  | nil =>
    obtain ⟨r, hr, -⟩ := h
    cases hr
  | cons q rest ih =>
    rw [firstNonzeroLegal]
    split
    · next hq =>
      have hlt : max q.1 1 < 2 ^ 64 := Nat.lt_of_lt_of_le hq.2 (by cases m <;> decide)
      intro hzero
      have hto := congrArg BitVec.toNat hzero
      rw [BitVec.toNat_ofNat, Nat.mod_eq_of_lt hlt, BitVec.toNat_zero] at hto
      omega
    · next hq =>
      obtain ⟨r, hr, k, hlow, hhigh, hk, hbits⟩ := h
      obtain rfl | hr := List.mem_cons.mp hr
      · exact absurd ⟨by omega, by omega⟩ hq
      · exact ih ⟨r, hr, k, hlow, hhigh, hk, hbits⟩

/-- Under the default set `mtinst` is 0 where R166 asks for nothing else. -/
theorem mtinstOf_eq_zero {c : Config} {tr : Trap} {d : Nat} (hpolicy : c.mtinstPolicy = .zeroUnlessImplicit)
    (h : needsMtinst c tr d = false) : mtinstOf c tr d = 0#64 := by
  simp [mtinstOf, h, hpolicy]

/-- In case (b) of R166 `mtinst` is not 0 where the fallback is not: the draw is taken only where it is nonzero. -/
theorem mtinstOf_ne_zero {c : Config} {tr : Trap} {d : Nat} (h : needsMtinst c tr d = true)
    (hlegal : firstNonzeroLegal c.mxlen c.mtinstLegal ≠ 0#64) : mtinstOf c tr d ≠ 0#64 := by
  rw [mtinstOf, if_pos h]
  split
  · next hfree => exact hfree.1
  · exact hlegal

/-- Settles O21: case (b) of R166 is an implicit VS-stage access with a nonzero `mtval2`. -/
theorem mtinstAfterATrap : Obligations.MtinstAfterATrap := by
  intro s t tr h hpolicy
  obtain ⟨-, rfl⟩ := takeTrap_next h
  refine ⟨mtinstOf_legal s.cfg tr s.draws, fun hnot => mtinstOf_eq_zero hpolicy ?_,
    fun himplicit hmtval2 hlegal => mtinstOf_ne_zero ?_ (firstNonzeroLegal_ne_zero hlegal)⟩
  · obtain himplicit | hmtval2 := hnot
    · simp [needsMtinst, himplicit]
    · rw [enterM_mtval2] at hmtval2
      simp [needsMtinst, hmtval2]
  · rw [enterM_mtval2] at hmtval2
    simp [needsMtinst, himplicit, hmtval2]

/-! ## An instruction that raises (R169) -/

/-- `mcause` of an exception is its code (R167). -/
theorem mcauseOf_exception {tr : Trap} {e : Exc} (hi : tr.isInterrupt = false) (hcode : tr.code = excCode e) (m : Mxlen) :
    mcauseOf m tr = BitVec.ofNat 64 (excCode e) := by
  rw [mcauseOf, hi, hcode, if_neg Bool.false_ne_true, BitVec.zero_or]
  cases m with
  | x32 => cases e <;> rfl
  | x64 => rfl

/-- An instruction that raises leaves its bits in `mtval`, or 0 (30_encoding.md R87). -/
theorem enterM_instrTrap_mtval (e : Exc) (w : InstrWord) (s : State) :
    (enterM (instrTrap e w s) s).mtval = xlenCut s.cfg.mxlen (w.setWidth 64) ∨
      (enterM (instrTrap e w s) s).mtval = 0#64 := by
  rw [enterM_mtval, instrTrap]
  split
  · exact .inl rfl
  · exact .inr (xlenCut_zero _)

/-- `mtval2` receives no guest physical address from it. -/
theorem mtval2Of_instrTrap (c : Config) (e : Exc) (w : InstrWord) (s : State) (d : Nat) :
    mtval2Of c (instrTrap e w s) d = 0#64 :=
  (mtval2Of_cases c (instrTrap e w s) d).resolve_right nofun

/-- Settles O43: the trap of the instruction is about no address, so `mtval` holds its bits or 0, and `mtval2` and GVA are 0. -/
theorem raisingSavesTheInstructionAndChangesNoRegister : Obligations.RaisingSavesTheInstructionAndChangesNoRegister := by
  intro s w e htarget
  refine ⟨_, instrTrap e w s, takeTrap_of_target (trapTarget_of_undelegated rfl htarget), raiseEffect_enterM _ s, rfl, rfl,
    rfl, enterM_instrTrap_mtval e w s, fun _ => mtval2Of_instrTrap s.cfg e w s s.draws,
    fun hrule => gvaOf_guestVa hrule _, ?_⟩
  rw [enterM_mcause, mcauseOf_exception (e := e) rfl rfl]
  cases e <;> decide

end Sys2Proof.Machine

/-! PROOF. Interrupts (60_exceptions.md R170 to R173): which one a step takes into M-mode, and which are never taken there. -/

namespace Sys2Proof.Machine

/-! ## Ready interrupts (R172) -/

/-- An interrupt is ready where `mip`, `mie` and `mideleg` read so and the mode lets it in. -/
theorem interruptReady_iff {s : State} {i : Nat} : interruptReady s i = true ↔
    (csrRead .mip s).getLsbD i = true ∧ (csrRead .mie s).getLsbD i = true ∧ (csrRead .mideleg s).getLsbD i = false ∧
      (s.priv ≠ .m ∨ s.mstatus.mie = true) := by
  simp only [interruptReady, csrRead, getLsbD_setWidth_low, Bool.and_eq_true, Bool.or_eq_true, Bool.not_eq_true', bne_iff_ne,
    and_assoc]

/-- The same for an interrupt that can be taken below M-mode (R171). -/
theorem interruptBelow_iff {s : State} {i : Nat} : interruptBelow s i = true ↔
    (csrRead .mip s).getLsbD i = true ∧ (csrRead .mie s).getLsbD i = true ∧ (csrRead .mideleg s).getLsbD i = true ∧
      s.priv ≠ .m := by
  simp only [interruptBelow, csrRead, getLsbD_setWidth_low, Bool.and_eq_true, bne_iff_ne, and_assoc]

/-- The interrupt that is taken: it is ready and none before it in the order is (R173(b)). -/
theorem pendingInterrupt_of_first {s : State} {before after : List Nat} {i : Nat}
    (horder : interruptOrder = before ++ i :: after) (hready : interruptReady s i = true) (hfirst : ∀ j ∈ before, interruptReady s j = false) :
    pendingInterrupt s = some i := by
  rw [pendingInterrupt, List.find?_eq_some_iff_append]
  exact ⟨hready, before, after, horder, fun j hj => by rw [hfirst j hj]; rfl⟩

/-- A ready interrupt is not delegated, so it goes to M-mode. -/
theorem takeTrap_interruptTrap {s : State} {i : Nat} (hready : interruptReady s i = true) :
    takeTrap (interruptTrap i s) s = .next (enterM (interruptTrap i s) s) := by
  obtain ⟨-, -, hdeleg, -⟩ := interruptReady_iff.mp hready
  rw [csrRead, getLsbD_setWidth_low] at hdeleg
  exact takeTrap_of_target (by simp [trapTarget, interruptTrap, hdeleg])

/-! ## The step (R173(a)) -/

/-- The interrupt that is pending is taken, whatever the hart would do. -/
theorem hartStep_of_pendingInterrupt {run : State → Result} {s : State} {i : Nat} (h : pendingInterrupt s = some i) :
    hartStep run s = .next (enterM (interruptTrap i s) s) := by
  rw [hartStep, h]
  exact takeTrap_interruptTrap (pendingInterrupt_ready h)

/-- No event, and the events that have the hart do something, leave the step to the hart. -/
theorem step_eq_hartStep {s : State} {rest : List EnvEvent}
    (h : (s.env = [] ∧ rest = []) ∨
      ∃ e, s.env = e :: rest ∧ (e = .pass ∨ (∃ tr, e = .trap tr) ∨ (∃ a, e = .access a))) :
    ∃ run, step s = hartStep run { s with env := rest } := by
  obtain ⟨henv, rfl⟩ | ⟨e, henv, he⟩ := h
  · have hsame : { s with env := [] } = s := by rw [← henv]
    exact ⟨runInstr, by rw [hsame]; simp only [step, henv]⟩
  · obtain rfl | ⟨tr, rfl⟩ | ⟨a, rfl⟩ := he
    · exact ⟨runInstr, by rw [step, henv]; rfl⟩
    · exact ⟨envRecord tr, by rw [step, henv]; rfl⟩
    · exact ⟨ordinaryAccess a, by rw [step, henv]; rfl⟩

/-- Settles O15: the first ready interrupt is the pending one, and the hart's step takes it; without one the environment's
interrupt is for a mode below M or nothing. -/
theorem readyInterruptIsTaken : Obligations.ReadyInterruptIsTaken := by
  refine ⟨fun s before after i rest hstep horder hip hie hdeleg hmode hbefore => ?_, fun s e rest henv hint hnone => ?_⟩
  · have hready : interruptReady { s with env := rest } i = true := interruptReady_iff.mpr ⟨hip, hie, hdeleg, hmode⟩
    have hfirst : ∀ j ∈ before, interruptReady { s with env := rest } j = false := by
      intro j hj
      rw [Bool.eq_false_iff, ne_eq, interruptReady_iff]
      rintro ⟨hjip, hjie, hjdeleg, -⟩
      obtain h | h | h := hbefore j hj
      · exact Bool.eq_false_iff.mp h hjip
      · exact Bool.eq_false_iff.mp h hjie
      · exact Bool.eq_false_iff.mp hjdeleg h
    obtain ⟨run, hrun⟩ := step_eq_hartStep hstep
    have heffect := entryEffect_enterM (interruptTrap i s) { s with env := rest }
    exact ⟨_, hrun.trans (hartStep_of_pendingInterrupt (pendingInterrupt_of_first horder hready hfirst)), heffect,
      heffect.mcause⟩
  · have hpending : pendingInterrupt { s with env := rest } = none :=
      List.find?_eq_none.mpr fun i hi hready => hnone i hi (interruptReady_iff.mp hready)
    have hrecord : step s = envRecord e { s with env := rest } := by
      rw [step, henv]
      simp only [envStep, hartStep, hpending]
    rw [hrecord, envRecord_interrupt hint]
    exact if_congr interruptBelow_iff rfl rfl

/-! ## Interrupts that are always delegated (R171) -/

/-- A delegated interrupt is not taken into M-mode from the pending bits. -/
theorem pendingInterrupt_ne_of_delegated {s : State} {c : Nat} (h : (csrRead .mideleg s).getLsbD c = true) :
    pendingInterrupt s ≠ some c := by
  intro hpending
  obtain ⟨-, -, hdeleg, -⟩ := interruptReady_iff.mp (pendingInterrupt_ready hpending)
  exact Bool.eq_false_iff.mp hdeleg h

/-- Nor is a trap with its code. -/
theorem trapTarget_of_delegated_interrupt {s : State} {tr : Trap} (hi : tr.isInterrupt = true)
    (h : (csrRead .mideleg s).getLsbD tr.code = true) : trapTarget tr s = .hs := by
  rw [csrRead, getLsbD_setWidth_low] at h
  rw [trapTarget, if_pos hi, if_pos h]

/-- With GEILEN = 0 interrupt 12 reads 0 in `mip` (R171). -/
theorem getLsbD_csrRead_mip_twelve {s : State} (h : s.cfg.geilen = 0) : (csrRead .mip s).getLsbD 12 = false := by
  rw [getLsbD_csrRead_mip, decide_intDefined_twelve, h]
  exact Bool.and_false _

/-- Settles O16: `mideleg` reads 1 in these bits in every state; with GEILEN = 0 bit 12 of `mip` reads 0. -/
theorem delegatedInterruptsNeverEnterMachineMode : Obligations.DelegatedInterruptsNeverEnterMachineMode := by
  refine ⟨fun s c hc => ?_, fun s hgei => ⟨getLsbD_csrRead_mip_twelve hgei, fun hpending => ?_⟩⟩
  · have hdeleg : (csrRead .mideleg s).getLsbD c = true := csrRead_mideleg_fixed s (by tauto)
    refine ⟨pendingInterrupt_ne_of_delegated hdeleg, ?_⟩
    rintro tr hi rfl
    have htarget := trapTarget_of_delegated_interrupt hi hdeleg
    refine ⟨by simp [htarget], fun t ht => ?_⟩
    cases htarget.symm.trans (takeTrap_next ht).1
  · obtain ⟨hmip, -⟩ := interruptReady_iff.mp (pendingInterrupt_ready hpending)
    exact Bool.eq_false_iff.mp (getLsbD_csrRead_mip_twelve hgei) hmip

end Sys2Proof.Machine

/-! PROOF. Below M-mode no instruction changes the M-level state but by entering M-mode (60_exceptions.md R177, 40_csr_access.md
R100, R116). -/

namespace Sys2Proof.Machine

/-! ## The M-level state (R177) -/

/-- The M-level state: the registers and fields of R177, of `mip` and `mie` the bits that `hip` and `hie` do not reach (R116). -/
def mLevelView (s : State) :=
  (s.mideleg, s.mtval, s.mtval2, s.mtinst, s.mepc, s.mcause, s.mtvec, s.mscratch, s.mstatus.mie, s.mstatus.mpie,
    s.mstatus.mpp, s.mstatus.mpv, s.mstatus.gva, s.mstatus.mprv, s.mstatus.tvm, s.mstatus.tw, s.mstatus.tsr,
    s.pend &&& ~~~0x0004#16, s.enab &&& ~~~0x1444#16)

/-- States with the same special registers have the same M-level state. -/
theorem SameSpecials.mLevelView_eq {s t : State} (h : SameSpecials s t) : mLevelView t = mLevelView s := by
  simp only [mLevelView, h.mideleg, h.mtval, h.mtval2, h.mtinst, h.mepc, h.mcause, h.mtvec, h.mscratch, h.mstatus, h.pend,
    h.enab]

/-! ## The registers that are reached below M-mode (30_encoding.md R86, R100) -/

/-- The registers whose numbers are below the M level, and those of the larger machine. -/
def belowMLevel : Csr → Bool
  | .sstatus | .vsstatus | .vsatp | .hstatus | .hie | .hip | .hgatp | .foreign _ => true
  | .mstatus | .mideleg | .mie | .mtvec | .mstatush | .mscratch | .mepc | .mcause | .mtval | .mip | .mtinst | .mtval2 => false

/-- The rows of the table: every other register has a number of the M level. -/
theorem csrTable_level : ∀ q ∈ csrTable, csrLevel q.1 = 3#2 ∨ belowMLevel q.2 = true := by decide

theorem belowMLevel_of_csrNamed {c : Config} {n : CsrNum} {r : Csr} (hl : csrLevel n ≠ 3#2) (h : csrNamed c n = some r) :
    belowMLevel r = true := by
  unfold csrNamed at h
  split at h
  · next hn =>
    subst hn
    exact absurd (by decide) hl
  · split at h
    · next q hq =>
      cases h
      obtain ⟨_, _, htable, -⟩ := List.lookup_eq_some_iff.mp hq
      exact (csrTable_level (n, r) (by simp [htable])).resolve_left hl
    · split at h <;> cases h
      rfl

/-- An access that passes its check reaches the register that its number names, `vsstatus` in place of `sstatus` with V = 1. -/
theorem csrReached_of_csrCheck {n : CsrNum} {w : Bool} {s : State} {r : Csr} (h : csrCheck n w s = .ok r) :
    ∃ q, csrNamed s.cfg n = some q ∧ r = csrReached s.v q := by
  unfold csrCheck at h
  split at h
  · cases h
  · next q hq =>
    split_ifs at h
    cases h
    exact ⟨q, hq, rfl⟩

/-- Below M-mode the check lets no access reach a register of the M level. -/
theorem belowMLevel_of_csrCheck {n : CsrNum} {w : Bool} {s : State} {r : Csr} (hp : s.priv ≠ .m)
    (h : csrCheck n w s = .ok r) : belowMLevel r = true := by
  have hl : csrLevel n ≠ 3#2 := by
    intro hl
    rw [csrCheck_of_level_m hl hp] at h
    cases h
  obtain ⟨q, hq, rfl⟩ := csrReached_of_csrCheck h
  have hbelow := belowMLevel_of_csrNamed hl hq
  cases q with
  | sstatus => cases s.v <;> rfl
  | _ => exact hbelow

/-! ## Writes below the M level -/

/-- The bits outside a mask are not changed by a write of bits inside it. -/
theorem mergeBits_and_not {writable mask : BitVec 16} (h : writable &&& mask = writable) (old a : BitVec 16) :
    mergeBits writable old a &&& ~~~mask = old &&& ~~~mask := by
  rw [← h]
  ext i hi
  simp only [mergeBits, BitVec.getElem_and, BitVec.getElem_or, BitVec.getElem_not]
  cases mask[i] <;> simp

/-- `hip` reaches VSSIP, `hie` the aliased bits, and every other register below the M level no M-level state at all (R116). -/
theorem mLevelView_csrWrite {r : Csr} (hr : belowMLevel r = true) (a : Word) (s : State) :
    mLevelView (csrWrite r a s) = mLevelView s := by
  cases r with
  | hip =>
    have hpend : (csrWrite .hip a s).pend &&& ~~~0x0004#16 = s.pend &&& ~~~0x0004#16 := mergeBits_and_not (by decide) _ _
    rw [mLevelView, hpend]
    rfl
  | hie =>
    have henab : (csrWrite .hie a s).enab &&& ~~~0x1444#16 = s.enab &&& ~~~0x1444#16 :=
      mergeBits_and_not (by rw [aliasMask, BitVec.and_assoc, BitVec.and_self]) _ _
    rw [mLevelView, henab]
    rfl
  | sstatus | vsstatus | vsatp | hstatus | hgatp | foreign => rfl
  | _ => cases hr

/-- So an access that passes its check below M-mode leaves the M-level state alone. -/
theorem mLevelView_csrDone {r : Csr} (hr : belowMLevel r = true) (rd : RegIdx) (writes : Bool) (new : Word → Word)
    (s : State) : mLevelView (csrDone rd writes new r s) = mLevelView s := by
  rw [(csrEffect_csrDone rd writes new r s).specials.mLevelView_eq]
  split
  · exact mLevelView_csrWrite hr _ s
  · rfl

/-- Every shape of a next state below M-mode, where the hart started there, has the M-level state that it had. -/
theorem HartShape.mLevelView_eq {s t : State} (h : HartShape s t) (hs : s.priv ≠ .m) (ht : t.priv ≠ .m) :
    mLevelView t = mLevelView s := by
  cases h with
  | trap => exact absurd rfl ht
  | csr n rd writes new r hr => exact mLevelView_csrDone (belowMLevel_of_csrCheck hs hr) rd writes new s
  | ret p hp => exact absurd hp hs
  | fence => rfl
  | load rd a va n => simp [mLevelView]
  | store m st va n => simp [mLevelView]

/-- Settles O27: `HartShape.mLevelView_eq`, field by field. -/
theorem belowMachineModeMLevelStateIsSafe : Obligations.BelowMachineModeMLevelStateIsSafe := by
  intro i s t hs h ht
  simpa only [mLevelView, Prod.mk.injEq] using (exec_shape h).mLevelView_eq hs ht

end Sys2Proof.Machine

/-! PROOF. TSR, VTSR, TVM and TW guard instructions outside the spec (60_exceptions.md R178 to R180; log 25). -/

namespace Sys2Proof.Machine

section
variable {s : State} {w : InstrWord}

/-! ## A word outside the spec -/

theorem runWord_of_guard {e : Exc} (hdecode : decode w = .outside) (hguard : outsideGuard w s = some e) :
    runWord w s = raiseInstr e w s := by
  simp only [runWord, hdecode, outsideWord, hguard]

theorem runWord_of_no_guard (hdecode : decode w = .outside) (hguard : outsideGuard w s = none) :
    runWord w s = .refused .outsideInstruction := by
  simp only [runWord, hdecode, outsideWord, hguard]

/-! ## SRET under TSR and VTSR (R178) -/

theorem decode_sretWord : decode sretWord = .outside := by decide

theorem outsideGuard_sretWord : outsideGuard sretWord s =
    if tsrActs s.mstatus s.mode then some .illegalInstruction
    else if inVs s.mode && s.hstatus.vtsr then some .virtualInstruction
    else none := if_pos rfl

theorem tsrActs_mode_iff : tsrActs s.mstatus s.mode = true ↔ s.priv = .s ∧ s.v = false ∧ s.mstatus.tsr = true := by
  simp only [tsrActs, inHs, State.mode, Bool.and_eq_true, beq_iff_eq, Bool.not_eq_true']
  tauto

theorem inVs_and_vtsr_iff :
    (inVs s.mode && s.hstatus.vtsr) = true ↔ s.priv = .s ∧ s.v = true ∧ s.hstatus.vtsr = true := by
  simp [inVs, State.mode, and_assoc]

theorem runSret_hs (h : s.priv = .s ∧ s.v = false ∧ s.mstatus.tsr = true) :
    runWord sretWord s = raiseInstr .illegalInstruction sretWord s :=
  runWord_of_guard decode_sretWord (by rw [outsideGuard_sretWord, if_pos (tsrActs_mode_iff.mpr h)])

/-- TSR does not act in VS-mode, and VTSR does. -/
theorem runSret_vs (h : s.priv = .s ∧ s.v = true ∧ s.hstatus.vtsr = true) :
    runWord sretWord s = raiseInstr .virtualInstruction sretWord s := by
  refine runWord_of_guard decode_sretWord ?_
  have hhs : ¬ tsrActs s.mstatus s.mode = true := by simp [tsrActs_mode_iff, h]
  rw [outsideGuard_sretWord, if_neg hhs, if_pos (inVs_and_vtsr_iff.mpr h)]

theorem runSret_unguarded (htsr : ¬ (s.priv = .s ∧ s.v = false ∧ s.mstatus.tsr = true))
    (hvtsr : ¬ (s.priv = .s ∧ s.v = true ∧ s.hstatus.vtsr = true)) :
    runWord sretWord s = .refused .outsideInstruction := by
  refine runWord_of_no_guard decode_sretWord ?_
  rw [outsideGuard_sretWord, if_neg (mt tsrActs_mode_iff.mp htsr), if_neg (mt inVs_and_vtsr_iff.mp hvtsr)]

/-! ## WFI under TW (R180) -/

theorem decode_wfiWord : decode wfiWord = .outside := by decide

theorem outsideGuard_wfiWord : outsideGuard wfiWord s =
    if twActs s.mstatus s.mode && Config.wfiTimesOut s.draws then some .illegalInstruction else none := by
  rw [outsideGuard, if_neg (by decide), if_pos rfl]

/-- TW acts in every mode below M-mode, and then the bounded time decides. -/
theorem twActs_and_wfiTimesOut_iff : (twActs s.mstatus s.mode && Config.wfiTimesOut s.draws) = true ↔
    s.priv ≠ .m ∧ s.mstatus.tw = true ∧ Config.wfiTimesOut s.draws = true := by
  simp only [twActs, State.mode, Bool.and_eq_true, bne_iff_ne]
  tauto

theorem runWfi_guarded (h : s.priv ≠ .m ∧ s.mstatus.tw = true ∧ Config.wfiTimesOut s.draws = true) :
    runWord wfiWord s = raiseInstr .illegalInstruction wfiWord s :=
  runWord_of_guard decode_wfiWord (by rw [outsideGuard_wfiWord, if_pos (twActs_and_wfiTimesOut_iff.mpr h)])

theorem runWfi_unguarded (h : s.priv = .m ∨ s.mstatus.tw = false ∨ Config.wfiTimesOut s.draws = false) :
    runWord wfiWord s = .refused .outsideInstruction := by
  refine runWord_of_no_guard decode_wfiWord ?_
  rw [outsideGuard_wfiWord, if_neg]
  rw [twActs_and_wfiTimesOut_iff]
  rintro ⟨hp, htw, htime⟩
  simp [hp, htw, htime] at h

/-! ## SFENCE.VMA and SINVAL.VMA under TVM (R179) -/

theorem isSfence_encSys {rs1 rs2 : RegIdx}
    (h : w = encSys 0b0001001#7 rs2 rs1 0b000#3 0#5 ∨ w = encSys 0b0001011#7 rs2 rs1 0b000#3 0#5) : isSfence w = true := by
  obtain rfl | rfl := h <;> simp [isSfence]

/-- Neither `funct7` is that of an instruction with `funct3` = 000. -/
theorem decode_of_isSfence (h : isSfence w = true) : decode w = .outside := by
  simp only [isSfence, Bool.and_eq_true, Bool.or_eq_true, beq_iff_eq] at h
  obtain ⟨⟨⟨hop, hfunct3⟩, -⟩, hfunct7⟩ := h
  rw [decode_of_funct3_zero hop hfunct3, decodePriv]
  obtain hfunct7 | hfunct7 := hfunct7 <;> simp [hfunct7]

theorem outsideGuard_of_isSfence (h : isSfence w = true) :
    outsideGuard w s = if tvmActs s.mstatus s.mode then some .illegalInstruction else none := by
  have hsret : w ≠ sretWord := by
    rintro rfl
    exact absurd h (by decide)
  have hwfi : w ≠ wfiWord := by
    rintro rfl
    exact absurd h (by decide)
  rw [outsideGuard, if_neg hsret, if_neg hwfi, h, Bool.true_and]

theorem runSfence_guarded (hw : isSfence w = true) (h : s.mstatus.tvm = true ∧ s.priv = .s ∧ s.v = false) :
    runWord w s = raiseInstr .illegalInstruction w s :=
  runWord_of_guard (decode_of_isSfence hw) (by rw [outsideGuard_of_isSfence hw, if_pos (tvmActs_mode_iff.mpr h)])

theorem runSfence_unguarded (hw : isSfence w = true) (h : ¬ (s.mstatus.tvm = true ∧ s.priv = .s ∧ s.v = false)) :
    runWord w s = .refused .outsideInstruction :=
  runWord_of_no_guard (decode_of_isSfence hw) (by rw [outsideGuard_of_isSfence hw, if_neg (mt tvmActs_mode_iff.mp h)])

end

/-- Settles O28: each word is outside the spec, and its guard acts in exactly these modes. -/
theorem tsrAndTvmActInHsModeOnly : Obligations.TsrAndTvmActInHsModeOnly := by
  refine ⟨fun s => ⟨fun hp hv htsr => runSret_hs ⟨hp, hv, htsr⟩, fun hp hv hvtsr => runSret_vs ⟨hp, hv, hvtsr⟩,
    runSret_unguarded, fun hp htw htime => runWfi_guarded ⟨hp, htw, htime⟩, runWfi_unguarded⟩, fun s w rs1 rs2 hw => ?_⟩
  have hsfence := isSfence_encSys hw
  exact ⟨fun hp hv htvm => runSfence_guarded hsfence ⟨htvm, hp, hv⟩,
    fun hnot => runSfence_unguarded hsfence fun ⟨htvm, hp, hv⟩ => hnot ⟨hp, hv, htvm⟩⟩

end Sys2Proof.Machine
